-- ==== Sys2Proof/Word.lean ====
section
/-! DEFINITION. The byte, the masking key, the decoder's eight input bytes, and the decoder's widths and results
(spec 00_scope.md R8, 10_state.md R26, R35). Plain data only: every function on them stands in Decode.lean. -/

namespace Sys2Proof

/-- "A byte is 8 bits." (R8); bit 7 is the most significant (R11). -/
abbrev Byte := BitVec 8

/-- The masking key: four bytes in arrival order, never an integer (R26, R98). `k0` is the first on the wire. -/
structure Key where
  k0 : Byte
  k1 : Byte
  k2 : Byte
  k3 : Byte
  deriving DecidableEq, Repr

/-- The decoder unit's eight input bytes `be_in[0..7]`, `b0` first (R35). -/
structure BeIn where
  b0 : Byte
  b1 : Byte
  b2 : Byte
  b3 : Byte
  b4 : Byte
  b5 : Byte
  b6 : Byte
  b7 : Byte
  deriving DecidableEq, Repr

/-- The three output widths of the big-endian decoder (R130). -/
inductive BeWidth where
  | w16
  | w32
  | w64
  deriving DecidableEq, Repr

/-- What a decode gives: a value of `n` bits, or the error `LengthMismatch` with no value (R130, R134). -/
inductive BeResult (n : Nat) where
  | value (v : BitVec n)
  | lengthMismatch
  deriving DecidableEq, Repr

end Sys2Proof
end

