-- ==== Sys2Proof/Config.lean ====
section
/-! DEFINITION. What an instance of WSFP fixes (IN_CAP, OUT_CAP: spec 00_scope.md R9, decision D6) and the one free
value (be_val while be_err = 1: 40_be_decoder.md R134, entry U5). None of them has a value here, so no proof can rest
on one. -/

namespace Sys2Proof

/-- `IN_CAP`, the largest number of bytes the window can present (R9 (a); log 2). -/
opaque Config.inCap : Nat

/-- How many bytes OUT holds beyond the least the spec allows (log 3). -/
opaque Config.outSlack : Nat

/-- `OUT_CAP`; written so that the spec's constraint `OUT_CAP >= IN_CAP - 2` (R63) holds of every instance. -/
def Config.outCap : Nat := Config.inCap - 2 + Config.outSlack

/-- `ceil(log2(cap + 1))`: the bits a register needs to hold 0 to `cap` (R9 (a)). -/
def availBits (cap : Nat) : Nat := Nat.clog 2 (cap + 1)

/-- `AVAIL_W` (R9 (a)). -/
def Config.availW : Nat := availBits Config.inCap

/-- FREE VALUE: what stands on `be_val` while `be_err = 1`, a function of the unit's inputs `be_width`, `be_len`,
`be_in`, since the unit is combinational (R134, U5; log 9). -/
opaque Config.beValUnspecified : BitVec 2 → BitVec 4 → BeIn → BitVec 64

end Sys2Proof
end

