-- ==== Sys2Proof/Syntax.lean ====
section
/-! DEFINITION. The instructions of WSFP: one constructor per row of spec/opcode_table.json. An instruction is one
frame, known by its header (00_scope.md section 4), or one of the decoder unit's three operations (30_encoding.md R109). -/

namespace Sys2Proof

/-- The three forms of the payload length (30_encoding.md R95 to R97). `short n` is `L = n`, well formed when
`n <= 125`; `ext16 v` is `L = 126` and two bytes spelling `v`; `ext64 v` is `L = 127` and eight bytes spelling `v`. -/
inductive LenForm where
  | short (n : BitVec 7)
  | ext16 (v : BitVec 16)
  | ext64 (v : BitVec 64)
  deriving DecidableEq, Repr

/-- The operands of a frame (R92, R98): the mask flag is 1 exactly when a key is present (10_state.md R20). The length
form and the presence of a key together are one of the six formats of R93. -/
structure FrameOps where
  fin  : Bool
  rsv1 : Bool
  rsv2 : Bool
  rsv3 : Bool
  len  : LenForm
  key  : Option Key
  deriving DecidableEq, Repr

/-- The operands of a decoder operation: the number of bytes supplied, `be_len`, and the bytes, `be_in` (10_state.md R35). -/
structure BeOps where
  len   : BitVec 4
  bytes : BeIn
  deriving DecidableEq, Repr

/-- The instruction set: sixteen frames (30_encoding.md R100) and three decoder operations (R109). -/
inductive Instr where
  | cont (f : FrameOps)
  | text (f : FrameOps)
  | bin (f : FrameOps)
  | rsv3 (f : FrameOps)
  | rsv4 (f : FrameOps)
  | rsv5 (f : FrameOps)
  | rsv6 (f : FrameOps)
  | rsv7 (f : FrameOps)
  | close (f : FrameOps)
  | ping (f : FrameOps)
  | pong (f : FrameOps)
  | rsvB (f : FrameOps)
  | rsvC (f : FrameOps)
  | rsvD (f : FrameOps)
  | rsvE (f : FrameOps)
  | rsvF (f : FrameOps)
  | be16 (o : BeOps)
  | be32 (o : BeOps)
  | be64 (o : BeOps)
  deriving DecidableEq, Repr

end Sys2Proof
end

