-- ==== Sys2Proof/WellFormed.lean ====
section
/-! DEFINITION. Which instruction terms stand for encodings: the only check is that a 7-bit length is at most 125,
since 126 and 127 select the longer forms (30_encoding.md R93, R94, R103). -/

namespace Sys2Proof

/-- R95: the short form holds 0 to 125. -/
def LenForm.wf : LenForm → Bool
  | .short n => decide (n ≤ 125#7)
  | .ext16 _ => true
  | .ext64 _ => true

/-- Every combination of the other header fields is legal (R102, R105). -/
def FrameOps.wf (f : FrameOps) : Bool := f.len.wf

/-- Every `be_len` and `be_in` can be driven, so a decoder operation is always well formed (40_be_decoder.md R134). -/
def Instr.wf : Instr → Bool
  | .cont f => f.wf
  | .text f => f.wf
  | .bin f => f.wf
  | .rsv3 f => f.wf
  | .rsv4 f => f.wf
  | .rsv5 f => f.wf
  | .rsv6 f => f.wf
  | .rsv7 f => f.wf
  | .close f => f.wf
  | .ping f => f.wf
  | .pong f => f.wf
  | .rsvB f => f.wf
  | .rsvC f => f.wf
  | .rsvD f => f.wf
  | .rsvE f => f.wf
  | .rsvF f => f.wf
  | .be16 _ => true
  | .be32 _ => true
  | .be64 _ => true

end Sys2Proof
end

