-- ==== Sys2Proof/Decode.lean ====
section
/-! DEFINITION. Byte order and bit fields, the big-endian decode function, the instruction decoder (total on any bytes,
rejecting by name), and after it the encoder. Spec: 30_encoding.md, 40_be_decoder.md R130, 41_header_parser.md steps 1 to 4. -/

namespace Sys2Proof

/-! ## Sequences of bytes -/

/-- R14: `Σ b_i · 256^(n-1-i)`, the first byte the most significant. -/
def beValue (bs : List Byte) : Nat := bs.foldl (fun v b => 256 * v + b.toNat) 0

/-- `B[i]` (R12); 0 past the end, where no rule looks. -/
def byteAt (B : List Byte) (i : Nat) : Byte := B.getD i 0#8

/-- `B[a..b)` (R12). -/
def sliceOf (B : List Byte) (a b : Nat) : List Byte := (B.take b).drop a

/-- The key byte at index `i mod 4` (42_payload_extractor.md R162). -/
def Key.get (k : Key) (i : Nat) : Byte :=
  match i % 4 with
  | 0 => k.k0
  | 1 => k.k1
  | 2 => k.k2
  | _ => k.k3

/-- `KEY[j] <- b` for `j` in 0..3 (43_message_parser.md R209); no other index names a byte. -/
def Key.set (k : Key) (j : Nat) (b : Byte) : Key :=
  match j with
  | 0 => { k with k0 := b }
  | 1 => { k with k1 := b }
  | 2 => { k with k2 := b }
  | 3 => { k with k3 := b }
  | _ => k

/-- The cleared key registers (43_message_parser.md R205). -/
def Key.zero : Key := ⟨0#8, 0#8, 0#8, 0#8⟩

/-- The key bytes in arrival order (R98). -/
def Key.toList (k : Key) : List Byte := [k.k0, k.k1, k.k2, k.k3]

/-- The first four bytes of a sequence as key registers; a byte not there leaves its register 0. -/
def Key.ofList (bs : List Byte) : Key := ⟨byteAt bs 0, byteAt bs 1, byteAt bs 2, byteAt bs 3⟩

/-- `be_in[0..7]` as a sequence. -/
def BeIn.toList (x : BeIn) : List Byte := [x.b0, x.b1, x.b2, x.b3, x.b4, x.b5, x.b6, x.b7]

/-! ## The big-endian decode function -/

/-- `W / 8`. -/
def BeWidth.bytes : BeWidth → Nat
  | .w16 => 2
  | .w32 => 4
  | .w64 => 8

/-- `W`. -/
def BeWidth.bits : BeWidth → Nat
  | .w16 => 16
  | .w32 => 32
  | .w64 => 64

/-- `be_decode(W, S)` (40_be_decoder.md R130). -/
def beDecode (w : BeWidth) (S : List Byte) : BeResult w.bits :=
  if S.length = w.bytes then .value (BitVec.ofNat w.bits (beValue S)) else .lengthMismatch

/-- The decoded number zero-extended to 64 bits; 0 on a mismatch, which no caller meets (40_be_decoder.md R136). -/
def BeResult.zext64 {n : Nat} : BeResult n → BitVec 64
  | .value v => v.setWidth 64
  | .lengthMismatch => 0#64

/-! ## The fields of the two fixed bytes (30_encoding.md Table E1) -/

/-- Byte 0 bit 7. -/
def finOf (b0 : Byte) : Bool := b0.getLsbD 7
/-- Byte 0 bit 6. -/
def rsv1Of (b0 : Byte) : Bool := b0.getLsbD 6
/-- Byte 0 bit 5. -/
def rsv2Of (b0 : Byte) : Bool := b0.getLsbD 5
/-- Byte 0 bit 4. -/
def rsv3Of (b0 : Byte) : Bool := b0.getLsbD 4
/-- Byte 0 bits 3:0. -/
def opcodeOf (b0 : Byte) : BitVec 4 := b0.extractLsb' 0 4
/-- Byte 1 bit 7. -/
def maskOf (b1 : Byte) : Bool := b1.getLsbD 7
/-- Byte 1 bits 6:0, the 7-bit length field `L`. -/
def lenOf (b1 : Byte) : BitVec 7 := b1.extractLsb' 0 7

/-- `ext`, the number of extended-length bytes `L` announces (R94). -/
def extBytes (L : BitVec 7) : Nat := if L = 126#7 then 2 else if L = 127#7 then 8 else 0

/-! ## Operands of a frame as numbers -/

/-- The length field `L` that selects the form (R93). -/
def LenForm.field : LenForm → BitVec 7
  | .short n => n
  | .ext16 _ => 126#7
  | .ext64 _ => 127#7

/-- `ext` of the form (R94). -/
def LenForm.ext : LenForm → Nat
  | .short _ => 0
  | .ext16 _ => 2
  | .ext64 _ => 8

/-- `payloadLength`, 64 bits, zero-extended (R95 to R97). -/
def LenForm.value : LenForm → BitVec 64
  | .short n => n.setWidth 64
  | .ext16 v => v.setWidth 64
  | .ext64 v => v

/-- The form that `L` and the extended-length bytes spell (R95 to R97). -/
def LenForm.ofBytes (L : BitVec 7) (e : List Byte) : LenForm :=
  if L = 126#7 then .ext16 (BitVec.ofNat 16 (beValue e))
  else if L = 127#7 then .ext64 (BitVec.ofNat 64 (beValue e))
  else .short L

/-- The extended-length bytes of a form, most significant first (R96, R97). -/
def LenForm.bytes : LenForm → List Byte
  | .short _ => []
  | .ext16 v => [v.extractLsb' 8 8, v.extractLsb' 0 8]
  | .ext64 v =>
    [v.extractLsb' 56 8, v.extractLsb' 48 8, v.extractLsb' 40 8, v.extractLsb' 32 8,
     v.extractLsb' 24 8, v.extractLsb' 16 8, v.extractLsb' 8 8, v.extractLsb' 0 8]

/-- The mask flag: a key is present exactly when it is 1 (10_state.md R20). -/
def FrameOps.masked (f : FrameOps) : Bool := f.key.isSome

/-- `hlen = 2 + ext + 4 * mask` (41_header_parser.md R148). -/
def FrameOps.hlen (f : FrameOps) : Nat := 2 + f.len.ext + (if f.masked then 4 else 0)

/-- `plen`. -/
def FrameOps.plen (f : FrameOps) : BitVec 64 := f.len.value

/-! ## The decoder -/

/-- Where an instruction stands: the bytes of the window from offset 0, or the decoder unit's input ports
(`be_width`, `be_len`, `be_in`). -/
inductive Encoded where
  | frame (bytes : List Byte)
  | ports (width : BitVec 2) (len : BitVec 4) (bytes : BeIn)
  deriving DecidableEq, Repr

/-- Why no instruction is read. The first three are the causes of `InsufficientData` in a header (41_header_parser.md
R150, R144 to R146); the last is `be_width = 3`, "not a width" (10_state.md R35). No opcode is ever rejected (R100). -/
inductive Reject where
  | hdr2
  | ext
  | key
  | noWidth
  deriving DecidableEq, Repr

/-- The verdict of the decoder. -/
inductive Decoded where
  | instr (i : Instr)
  | rejected (r : Reject)
  deriving DecidableEq, Repr

/-- The frame with opcode `op` (30_encoding.md Table E3). -/
def frameOf (op : BitVec 4) (f : FrameOps) : Instr :=
  match op.toNat with
  | 0 => .cont f
  | 1 => .text f
  | 2 => .bin f
  | 3 => .rsv3 f
  | 4 => .rsv4 f
  | 5 => .rsv5 f
  | 6 => .rsv6 f
  | 7 => .rsv7 f
  | 8 => .close f
  | 9 => .ping f
  | 10 => .pong f
  | 11 => .rsvB f
  | 12 => .rsvC f
  | 13 => .rsvD f
  | 14 => .rsvE f
  | _ => .rsvF f

/-- A frame's opcode and operands; none for a decoder operation. -/
def Instr.frame? : Instr → Option (BitVec 4 × FrameOps)
  | .cont f => some (0x0#4, f)
  | .text f => some (0x1#4, f)
  | .bin f => some (0x2#4, f)
  | .rsv3 f => some (0x3#4, f)
  | .rsv4 f => some (0x4#4, f)
  | .rsv5 f => some (0x5#4, f)
  | .rsv6 f => some (0x6#4, f)
  | .rsv7 f => some (0x7#4, f)
  | .close f => some (0x8#4, f)
  | .ping f => some (0x9#4, f)
  | .pong f => some (0xA#4, f)
  | .rsvB f => some (0xB#4, f)
  | .rsvC f => some (0xC#4, f)
  | .rsvD f => some (0xD#4, f)
  | .rsvE f => some (0xE#4, f)
  | .rsvF f => some (0xF#4, f)
  | .be16 _ => none
  | .be32 _ => none
  | .be64 _ => none

/-- The operands that a complete header at the front of `B` spells (41_header_parser.md R141 to R146). -/
def frameOpsOf (B : List Byte) : FrameOps :=
  { fin  := finOf (byteAt B 0)
    rsv1 := rsv1Of (byteAt B 0)
    rsv2 := rsv2Of (byteAt B 0)
    rsv3 := rsv3Of (byteAt B 0)
    len  := LenForm.ofBytes (lenOf (byteAt B 1)) (sliceOf B 2 (2 + extBytes (lenOf (byteAt B 1))))
    key  := if maskOf (byteAt B 1) then some (Key.ofList (B.drop (2 + extBytes (lenOf (byteAt B 1))))) else none }

/-- Reading a frame's header from the front of a byte sequence: bytes missing are reported in the order of the header
algorithm's steps (41_header_parser.md R150, R144, R145, R146, R151). -/
def decodeFrame (B : List Byte) : Decoded :=
  if B.length < 2 then .rejected .hdr2
  else if B.length < 2 + extBytes (lenOf (byteAt B 1)) then .rejected .ext
  else if maskOf (byteAt B 1) = true ∧ B.length < 2 + extBytes (lenOf (byteAt B 1)) + 4 then .rejected .key
  else .instr (frameOf (opcodeOf (byteAt B 0)) (frameOpsOf B))

/-- Reading a decoder operation from the unit's ports (30_encoding.md R109). -/
def decodePorts (width : BitVec 2) (len : BitVec 4) (x : BeIn) : Decoded :=
  match width.toNat with
  | 0 => .instr (.be16 ⟨len, x⟩)
  | 1 => .instr (.be32 ⟨len, x⟩)
  | 2 => .instr (.be64 ⟨len, x⟩)
  | _ => .rejected .noWidth

/-- The instruction decoder, total on any bytes and any port values. -/
def decode : Encoded → Decoded
  | .frame B => decodeFrame B
  | .ports w len x => decodePorts w len x

/-- Eight input bytes of zeros. -/
def BeIn.zero : BeIn := ⟨0#8, 0#8, 0#8, 0#8, 0#8, 0#8, 0#8, 0#8⟩

/-- The longest header is fourteen bytes (30_encoding.md R93). -/
def longestHeader : Nat := 14

/-- A table row's 16-bit word as wire bytes: byte 0 is `w[15:8]` (R99), and zeros up to the longest header. -/
def tableFrameBytes (w : Nat) : List Byte :=
  BitVec.ofNat 8 (w / 256) :: BitVec.ofNat 8 w :: List.replicate (longestHeader - 2) 0#8

/-- A table row's bits as the decoder meets them: a 16-bit row is a frame's two fixed bytes, a shorter row the
2-bit `be_width` port value with `be_len` and `be_in` zero (R99, R109). -/
def tableEncoded (nbits w : Nat) : Encoded :=
  if nbits < 16 then .ports (BitVec.ofNat 2 w) 0#4 BeIn.zero else .frame (tableFrameBytes w)

/-- The instruction the decoder reads from a table row's bits. -/
def decodeTableWord (nbits w : Nat) : Option Instr :=
  match decode (tableEncoded nbits w) with
  | .instr i => some i
  | .rejected _ => none

/-! ## The encoder -/

/-- Byte 0: `F RRR oooo` (30_encoding.md R92, R99). -/
def FrameOps.byte0 (op : BitVec 4) (f : FrameOps) : Byte :=
  BitVec.ofBool f.fin ++ BitVec.ofBool f.rsv1 ++ BitVec.ofBool f.rsv2 ++ BitVec.ofBool f.rsv3 ++ op

/-- Byte 1: `M LLLLLLL` (R92, R99). -/
def FrameOps.byte1 (f : FrameOps) : Byte := BitVec.ofBool f.masked ++ f.len.field

/-- A frame's header bytes: two fixed bytes, the extended length, the key (R93; 20_memory.md Table M1). -/
def FrameOps.header (op : BitVec 4) (f : FrameOps) : List Byte :=
  f.byte0 op :: f.byte1 :: (f.len.bytes ++ (match f.key with | some k => k.toList | none => []))

/-- The encoder: a frame's header bytes, or the port values that ask for a decoder operation. -/
def encode : Instr → Encoded
  | .cont f => .frame (f.header 0x0#4)
  | .text f => .frame (f.header 0x1#4)
  | .bin f => .frame (f.header 0x2#4)
  | .rsv3 f => .frame (f.header 0x3#4)
  | .rsv4 f => .frame (f.header 0x4#4)
  | .rsv5 f => .frame (f.header 0x5#4)
  | .rsv6 f => .frame (f.header 0x6#4)
  | .rsv7 f => .frame (f.header 0x7#4)
  | .close f => .frame (f.header 0x8#4)
  | .ping f => .frame (f.header 0x9#4)
  | .pong f => .frame (f.header 0xA#4)
  | .rsvB f => .frame (f.header 0xB#4)
  | .rsvC f => .frame (f.header 0xC#4)
  | .rsvD f => .frame (f.header 0xD#4)
  | .rsvE f => .frame (f.header 0xE#4)
  | .rsvF f => .frame (f.header 0xF#4)
  | .be16 o => .ports 0#2 o.len o.bytes
  | .be32 o => .ports 1#2 o.len o.bytes
  | .be64 o => .ports 2#2 o.len o.bytes

end Sys2Proof
end

