-- ==== Sys2Proof/Machine/State.lean ====
section
/-! DEFINITION. The state of WSFP as plain data: the registers of spec 10_state.md section 3, the memory OUT, the pins and
the window of section 5, the model's own `grain` (log 1); the state after reset (70_reset_and_hazards.md R270); the
ways a step can stop; and the values a host reads (Frame Header, Message). -/

namespace Sys2Proof.Machine

/-- PH, the phase of the transaction (10_state.md R39). The value 7, never written by any rule, is not represented (log 12). -/
inductive Phase where
  | idle
  | b0
  | b1
  | ext
  | keyp
  | chk
  | pay
  deriving DecidableEq, Repr

/-- KIND, the result kind (10_state.md R29). -/
inductive Kind where
  | none
  | ok
  | insufficientData
  | protocolViolation
  deriving DecidableEq, Repr

/-- CAUSE, which check produced the result (10_state.md R29). The value 7 is not represented (log 12). -/
inductive Cause where
  | none
  | hdr2
  | ext
  | key
  | payload
  | ctrlLen
  | rsvNoFin
  deriving DecidableEq, Repr

/-- The classes of opcode (00_scope.md R15). -/
inductive OpClass where
  | continuation
  | text
  | binary
  | reservedNonControl
  | close
  | ping
  | pong
  | reservedControl
  deriving DecidableEq, Repr

/-- The grain at which the next transaction is carried out (00_scope.md R7, 70_reset_and_hazards.md R280; log 1):
the whole of it in one step, or one window byte a step. -/
inductive Grain where
  | transaction
  | byteSerial
  deriving DecidableEq, Repr

/-- The state. Field by field it is the list under '## State' of INVENTORY.md. -/
structure State where
  /-- PH -/
  ph    : Phase
  /-- AVL: the number of window bytes, latched at start. -/
  avl   : Nat
  /-- POS: the offset of the next unread window byte (R24). -/
  pos   : Nat
  /-- FIN -/
  fin   : Bool
  /-- RSV1 -/
  rsv1  : Bool
  /-- RSV2 -/
  rsv2  : Bool
  /-- RSV3 -/
  rsv3  : Bool
  /-- OPC -/
  opc   : BitVec 4
  /-- MSK -/
  msk   : Bool
  /-- L7 -/
  l7    : BitVec 7
  /-- EXTN: extended-length bytes still to read. -/
  extn  : BitVec 4
  /-- PLEN -/
  plen  : BitVec 64
  /-- KEY[0..3] -/
  key   : Key
  /-- KCNT: key bytes read so far. -/
  kcnt  : BitVec 3
  /-- HLEN -/
  hlen  : BitVec 4
  /-- IDX: the index of the next payload byte. -/
  idx   : Nat
  /-- HDR_OK -/
  hdrOk : Bool
  /-- KIND -/
  kind  : Kind
  /-- CAUSE -/
  cause : Cause
  /-- CONS: bytes consumed by the last successful parse. -/
  cons  : Nat
  /-- The memory OUT: address and byte pairs, addresses strictly rising; an address not listed has no value (R34, R271). -/
  out   : List Host.Cell
  /-- Output `cons_valid`: 1 in the step that makes the `consume` pulse (R33). -/
  consValid : Bool
  /-- Output `cons_k`: the pulse's count. -/
  consK : Nat
  /-- Input `rst`. -/
  rst   : Bool
  /-- Input `start`. -/
  start : Bool
  /-- The window IN: the transport's unconsumed bytes, offset 0 first (R33). -/
  window : List Byte
  /-- Input `be_in[0..7]` (R35). -/
  beIn  : BeIn
  /-- Input `be_len`. -/
  beLen : BitVec 4
  /-- Input `be_width`. -/
  beWidth : BitVec 2
  /-- The model's own field (log 1). -/
  grain : Grain
  deriving DecidableEq, Repr

/-- Why a step stops with a fault. Both are states that entry U6 and R216 say no run from reset reaches. -/
inductive Fault where
  /-- Raised by a read of IN at or above AVL (20_memory.md R61: "defined only below the latched length"). Safe: R61
  shows the machine never issues one. -/
  | readBeyondAvl
  /-- Raised by KEYP with KCNT above 3, where `KEY[KCNT]` names no register (43_message_parser.md R209, entry U6). Safe:
  unreachable by R216 (f). -/
  | keyIndex
  deriving DecidableEq, Repr

/-- Why a step is refused. -/
inductive Refusal where
  /-- Raised by `exec` for an instruction with no meaning yet. Safe. No arm raises it. -/
  | notModelled (mnemonic : String)
  /-- Raised by a read of IN below AVL at an offset the window no longer holds: the host took bytes away while BUSY = 1
  (70_reset_and_hazards.md R275, entry U7). Safe: the spec gives such a run no meaning. -/
  | windowBroken
  /-- Raised by the host's own actions (`hostAppend`) when it breaks the discipline of Table H1 (R282, entry U7). Safe. -/
  | hostDuty
  deriving DecidableEq, Repr

/-- The outcome of a step of this machine. -/
abbrev Stepped := Host.Outcome State Fault Refusal

/-- The state after a reset step (70_reset_and_hazards.md R270): every register 0. OUT holds no value (R271), the window is
empty and the input pins are low (log 6, 7). -/
def State.reset : State :=
  { ph := .idle, avl := 0, pos := 0,
    fin := false, rsv1 := false, rsv2 := false, rsv3 := false, opc := 0#4, msk := false, l7 := 0#7,
    extn := 0#4, plen := 0#64, key := ⟨0#8, 0#8, 0#8, 0#8⟩, kcnt := 0#3, hlen := 0#4, idx := 0,
    hdrOk := false, kind := .none, cause := .none, cons := 0,
    out := [], consValid := false, consK := 0,
    rst := false, start := false, window := [],
    beIn := ⟨0#8, 0#8, 0#8, 0#8, 0#8, 0#8, 0#8, 0#8⟩, beLen := 0#4, beWidth := 0#2,
    grain := .transaction }

/-! ## Values of the function level -/

/-- The Frame Header (10_state.md R20). -/
structure FrameHeader where
  fin           : Bool
  rsv1          : Bool
  rsv2          : Bool
  rsv3          : Bool
  opCode        : BitVec 4
  isMasked      : Bool
  payloadLength : BitVec 64
  maskingKey    : Option Key
  deriving DecidableEq, Repr

/-- The Message: one Frame Header and one Payload (R21). -/
structure Message where
  header  : FrameHeader
  payload : List Byte
  deriving DecidableEq, Repr

/-- A result of the function level: a value, or `Err(kind, cause)` (00_scope.md R13). -/
inductive Parsed (α : Type) where
  | ok (a : α)
  | err (k : Kind) (c : Cause)
  deriving DecidableEq, Repr

end Sys2Proof.Machine
end

