-- ==== Sys2Proof/Machine/Flags.lean ====
section
/-! DEFINITION. Predicates of opcodes (00_scope.md R15), the classification flags (10_state.md R22, R30), BUSY (R39) and
the STATUS byte (R31). All are computed, none is stored. -/

namespace Sys2Proof.Machine

/-- `ctrl_range(op)`: `op >= 0x8`, that is `op[3] = 1` (R15). -/
def ctrlRange (op : BitVec 4) : Bool := op.getLsbD 3

/-- `reserved(op)`: 0x3..0x7 or 0xB..0xF (R15, R210). -/
def reserved (op : BitVec 4) : Bool := (decide (3#4 ≤ op) && decide (op ≤ 7#4)) || decide (11#4 ≤ op)

/-- `known_ctrl(op)`: 0x8, 0x9, 0xA (R15). -/
def knownCtrl (op : BitVec 4) : Bool := op == 0x8#4 || op == 0x9#4 || op == 0xA#4

/-- `opclass(op)` (R15). -/
def opclass (op : BitVec 4) : OpClass :=
  match op.toNat with
  | 0 => .continuation
  | 1 => .text
  | 2 => .binary
  | 8 => .close
  | 9 => .ping
  | 10 => .pong
  | _ => if ctrlRange op then .reservedControl else .reservedNonControl

/-- `isControlFrame`: opcode in close, ping, pong (R22). -/
def isControlFrame (op : BitVec 4) : Bool := knownCtrl op

/-- `isFragmentHeader`: `fin == false` and opcode in text, binary (R22). -/
def isFragmentHeader (fin : Bool) (op : BitVec 4) : Bool := !fin && (op == 0x1#4 || op == 0x2#4)

/-- `isFragmentFooter`: `fin == true` and opcode continuation (R22). -/
def isFragmentFooter (fin : Bool) (op : BitVec 4) : Bool := fin && op == 0x0#4

/-- `isFragment` (R22). -/
def isFragment (fin : Bool) (op : BitVec 4) : Bool :=
  isFragmentHeader fin op || isFragmentFooter fin op || (op == 0x0#4 && !fin)

/-- Output IS_CTRL (R30). -/
def State.isCtrl (s : State) : Bool := isControlFrame s.opc
/-- Output IS_FRAG_HDR (R30). -/
def State.isFragHdr (s : State) : Bool := isFragmentHeader s.fin s.opc
/-- Output IS_FRAG_FTR (R30). -/
def State.isFragFtr (s : State) : Bool := isFragmentFooter s.fin s.opc
/-- Output IS_FRAG (R30). -/
def State.isFrag (s : State) : Bool := isFragment s.fin s.opc

/-- Output BUSY: 1 exactly when `PH != 0` (R39). -/
def State.busy (s : State) : Bool := s.ph != .idle

/-- The code of PH (R39). -/
def Phase.code : Phase → BitVec 3
  | .idle => 0#3
  | .b0 => 1#3
  | .b1 => 2#3
  | .ext => 3#3
  | .keyp => 4#3
  | .chk => 5#3
  | .pay => 6#3

/-- The code of KIND (R29). -/
def Kind.code : Kind → BitVec 2
  | .none => 0#2
  | .ok => 1#2
  | .insufficientData => 2#2
  | .protocolViolation => 3#2

/-- The code of CAUSE (R29). -/
def Cause.code : Cause → BitVec 3
  | .none => 0#3
  | .hdr2 => 1#3
  | .ext => 2#3
  | .key => 3#3
  | .payload => 4#3
  | .ctrlLen => 5#3
  | .rsvNoFin => 6#3

/-- The STATUS byte: bit 0 BUSY, bit 1 HDR_OK, bits 3:2 KIND, bits 6:4 CAUSE, bit 7 zero (R31). -/
def State.status (s : State) : BitVec 8 :=
  0#1 ++ s.cause.code ++ s.kind.code ++ BitVec.ofBool s.hdrOk ++ BitVec.ofBool s.busy

/-- The pairings of KIND and CAUSE that Table X1 allows (60_exceptions.md R241). -/
def pairedX1 : Kind → Cause → Bool
  | .none, .none => true
  | .ok, .none => true
  | .insufficientData, .hdr2 => true
  | .insufficientData, .ext => true
  | .insufficientData, .key => true
  | .insufficientData, .payload => true
  | .protocolViolation, .ctrlLen => true
  | .protocolViolation, .rsvNoFin => true
  | _, _ => false

end Sys2Proof.Machine
end

