-- ==== Sys2Proof/Machine/Ops.lean ====
section
/-! DEFINITION. The shared operations: reading the window and OUT, writing OUT, unmasking; the start step and reset;
`fail`, WSFP's taking of an exception (43_message_parser.md R211, 60_exceptions.md R246, R250), whose return is the next
start step (R251); `finish` and the transport's answer to its `consume` pulse. -/

namespace Sys2Proof.Machine

/-- Continue with `f` on a next state; a stop stays the stop it is. -/
def onNext (o : Stepped) (f : State → State) : Stepped :=
  match o with
  | .next s => .next (f s)
  | .fault r => .fault r
  | .refused r => .refused r

/-! ## Memory OUT -/

/-- The canonical form: addresses strictly rising. An unlisted address has no value, so no entry can equal what an
unlisted address reads as. -/
abbrev Memory.wf (m : List Host.Cell) : Prop := m.Pairwise (fun x y => x.1 < y.1)

/-- What OUT holds at an address: no value where nothing was written (70_reset_and_hazards.md R271, entry U3). -/
def Memory.read : List Host.Cell → Nat → Option Byte
  | [], _ => none
  | (a', b) :: m, a => if a' = a then some b else Memory.read m a

/-- `MemWrite(a, 1, b)` (00_scope.md R13): one byte, kept in canonical form. -/
def Memory.write : List Host.Cell → Nat → Byte → List Host.Cell
  | [], a, b => [(a, b)]
  | (a', b') :: m, a, b =>
    if a < a' then (a, b) :: (a', b') :: m
    else if a' = a then (a, b) :: m
    else (a', b') :: Memory.write m a b

/-- Bytes written at `a`, `a + 1`, ... in ascending order (20_memory.md R67). -/
def Memory.writeBytes : List Host.Cell → Nat → List Byte → List Host.Cell
  | m, _, [] => m
  | m, a, b :: bs => Memory.writeBytes (Memory.write m a b) (a + 1) bs

/-! ## The window IN -/

/-- `avail`: the number of bytes the transport holds unconsumed (10_state.md R33; log 4). -/
def State.avail (s : State) : Nat := s.window.length

/-- `MemRead(a, 1)`: defined only below AVL (20_memory.md R61), and only while the host keeps the window (R275). -/
def readWindow (a : Nat) (s : State) (k : Byte → Stepped) : Stepped :=
  if a < s.avl then
    match s.window[a]? with
    | some b => k b
    | none => .refused .windowBroken
  else .fault .readBeyondAvl

/-! ## Unmasking -/

/-- One payload byte: XOR with `key[i mod 4]` when masked, unchanged otherwise (42_payload_extractor.md R162, R163). -/
def unmaskByte (msk : Bool) (k : Key) (i : Nat) (b : Byte) : Byte := if msk then b ^^^ k.get i else b

/-- `xorkey(S, k)` from payload index `i` on (R165). -/
def xorkeyFrom (k : Key) : Nat → List Byte → List Byte
  | _, [] => []
  | i, b :: bs => (b ^^^ k.get i) :: xorkeyFrom k (i + 1) bs

/-- `xorkey(S, k)`: byte `i` XOR `k[i mod 4]` (R165). -/
def xorkey (S : List Byte) (k : Key) : List Byte := xorkeyFrom k 0 S

/-- The payload the extractor gives for the bytes after the header (R162, R163). -/
def unmask (msk : Bool) (k : Key) (S : List Byte) : List Byte := if msk then xorkey S k else S

/-! ## Start, reset, and the two endings -/

/-- The start step (43_message_parser.md R205): AVL takes `avail`, PH takes B0, every other register is cleared. OUT and
the window are not touched. -/
def startStep (s : State) : State :=
  { s with
    ph := .b0, avl := s.avail, pos := 0,
    fin := false, rsv1 := false, rsv2 := false, rsv3 := false, opc := 0#4, msk := false, l7 := 0#7,
    extn := 0#4, plen := 0#64, key := Key.zero, kcnt := 0#3, hlen := 0#4, idx := 0,
    hdrOk := false, kind := .none, cause := .none, cons := 0, consValid := false }

/-- A step with `rst = 1` (70_reset_and_hazards.md R270): every register 0, no pulse; OUT, the window and the pins stay. -/
def resetStep (s : State) : State :=
  { s with
    ph := .idle, avl := 0, pos := 0,
    fin := false, rsv1 := false, rsv2 := false, rsv3 := false, opc := 0#4, msk := false, l7 := 0#7,
    extn := 0#4, plen := 0#64, key := Key.zero, kcnt := 0#3, hlen := 0#4, idx := 0,
    hdrOk := false, kind := .none, cause := .none, cons := 0, consValid := false }

/-- `fail(kind, cause)`: taking an exception (R211). KIND and CAUSE are written and PH returns to IDLE; nothing is
saved, nothing is consumed, OUT is not written (60_exceptions.md R250). -/
def fail (k : Kind) (c : Cause) (s : State) : State := { s with kind := k, cause := c, ph := .idle }

/-- `finish(total)`: the ending of a successful parse, with the one `consume` pulse (R212). -/
def finish (total : Nat) (s : State) : State :=
  { s with kind := .ok, cause := .none, cons := total, ph := .idle, consValid := true, consK := total }

/-- The `consume` pulse lasts one step (R212): a step begins with the output low. -/
def quiet (s : State) : State := { s with consValid := false }

/-- The transport's answer to the pulse: it drops exactly `cons_k` bytes from the front of the window
(10_state.md R33, 70_reset_and_hazards.md R278; log 5). -/
def transport (s : State) : State := if s.consValid then { s with window := s.window.drop s.consK } else s

end Sys2Proof.Machine
end

