-- ==== Sys2Proof/Machine/Operands.lean ====
section
/-! DEFINITION. The operand forms of a frame in registers: what the header-reading steps leave in the registers for a
complete header in any of the six formats (43_message_parser.md R206 to R209), and for one that breaks off; and the
decoder unit's operands on its ports (10_state.md R35). -/

namespace Sys2Proof.Machine

/-- The registers on entry to CHK, the header read whole (R206 to R209, R216 (b)): the field registers hold the
operands, EXTN is 0, KCNT 4 or 0, and POS is the header length. -/
def loadHeader (op : BitVec 4) (f : FrameOps) (s : State) : State :=
  { s with
    fin := f.fin, rsv1 := f.rsv1, rsv2 := f.rsv2, rsv3 := f.rsv3, opc := op,
    msk := f.masked, l7 := f.len.field, extn := 0#4, plen := f.plen,
    key := f.key.getD Key.zero, kcnt := if f.masked then 4#3 else 0#3,
    pos := f.hlen, ph := .chk }

/-- FIN, RSV1..3, OPC from byte 0 (R206). -/
def loadByte0 (b : Byte) (s : State) : State :=
  { s with fin := finOf b, rsv1 := rsv1Of b, rsv2 := rsv2Of b, rsv3 := rsv3Of b, opc := opcodeOf b, pos := 1, ph := .b1 }

/-- MSK, L7, PLEN, EXTN from byte 1, and the next phase (R207). -/
def loadByte1 (b : Byte) (s : State) : State :=
  { s with
    msk := maskOf b, l7 := lenOf b, pos := 2,
    plen := if lenOf b ≤ 125#7 then (lenOf b).setWidth 64 else 0#64,
    extn := BitVec.ofNat 4 (extBytes (lenOf b)),
    ph := if lenOf b ≤ 125#7 then (if maskOf b then .keyp else .chk) else .ext }

/-- A transaction whose header breaks off (`InsufficientData`, 41_header_parser.md R150, R144 to R146), in one go: the
registers hold what the byte-serial steps would have left in them (scratch, entry U4; log 15) and the exception is
taken. `noWidth` is no verdict on a frame. -/
def failHeader (r : Reject) (s : State) : State :=
  match r with
  | .hdr2 => fail .insufficientData .hdr2 (startStep s)
  | .ext =>
    fail .insufficientData .ext
      { loadByte1 (byteAt s.window 1) (loadByte0 (byteAt s.window 0) (startStep s)) with
        plen := BitVec.ofNat 64 (beValue (s.window.drop 2)),
        extn := BitVec.ofNat 4 (extBytes (lenOf (byteAt s.window 1)) - (s.window.length - 2)),
        pos := s.window.length }
  | .key =>
    fail .insufficientData .key
      { loadByte1 (byteAt s.window 1) (loadByte0 (byteAt s.window 0) (startStep s)) with
        plen := (frameOpsOf s.window).plen,
        extn := 0#4,
        key := Key.ofList (s.window.drop (2 + extBytes (lenOf (byteAt s.window 1)))),
        kcnt := BitVec.ofNat 3 (s.window.length - (2 + extBytes (lenOf (byteAt s.window 1)))),
        pos := s.window.length }
  | .noWidth => s

/-- The host drives the decoder unit's input ports (10_state.md R35, 70_reset_and_hazards.md Table H1). -/
def driveDecoder (width : BitVec 2) (len : BitVec 4) (x : BeIn) (s : State) : State :=
  { s with beWidth := width, beLen := len, beIn := x }

end Sys2Proof.Machine
end

