-- ==== Sys2Proof/Machine/BigEndian.lean ====
section
/-! DEFINITION. The big-endian decoder unit (spec 40_be_decoder.md): its combinational outputs, and the three operations a
host asks of it by driving its ports. -/

namespace Sys2Proof.Machine

/-- The unit over its ports (R134): the requested width must match `be_len`; the bytes beyond it are ignored;
`be_width = 3` requests no width. -/
def beUnit (width : BitVec 2) (len : BitVec 4) (x : BeIn) : BeResult 64 :=
  let go (w : BeWidth) : BeResult 64 :=
    if len.toNat = w.bytes then .value (beDecode w (x.toList.take w.bytes)).zext64 else .lengthMismatch
  match width.toNat with
  | 0 => go .w16
  | 1 => go .w32
  | 2 => go .w64
  | _ => .lengthMismatch

/-- Output `be_err` (R35, R134). -/
def State.beErr (s : State) : Bool :=
  match beUnit s.beWidth s.beLen s.beIn with
  | .value _ => false
  | .lengthMismatch => true

/-- Output `be_val` (R35, R134): the decoded value, and a free value while `be_err = 1` (entry U5; log 9). -/
def State.beVal (s : State) : BitVec 64 :=
  match beUnit s.beWidth s.beLen s.beIn with
  | .value v => v
  | .lengthMismatch => Config.beValUnspecified s.beWidth s.beLen s.beIn

/-- `be16` (R131): the ports driven with `be_width = 0`; the outputs follow in the same instant. -/
def execBe16 (o : BeOps) (s : State) : Stepped := .next (driveDecoder 0#2 o.len o.bytes s)

/-- `be32` (R132): `be_width = 1`. -/
def execBe32 (o : BeOps) (s : State) : Stepped := .next (driveDecoder 1#2 o.len o.bytes s)

/-- `be64` (R133): `be_width = 2`. -/
def execBe64 (o : BeOps) (s : State) : Stepped := .next (driveDecoder 2#2 o.len o.bytes s)

end Sys2Proof.Machine
end

