-- ==== Sys2Proof/Machine/Phases.lean ====
section
/-! DEFINITION. The step rules of the byte-serial machine, one per phase (43_message_parser.md R206 to R210, R213). -/

namespace Sys2Proof.Machine

/-- B0 step (R206). -/
def b0Step (s : State) : Stepped :=
  if s.avl < 2 then .next (fail .insufficientData .hdr2 s)
  else readWindow 0 s fun b => .next (loadByte0 b s)

/-- B1 step (R207). -/
def b1Step (s : State) : Stepped := readWindow 1 s fun b => .next (loadByte1 b s)

/-- EXT step (R208). -/
def extStep (s : State) : Stepped :=
  if s.avl ≤ s.pos then .next (fail .insufficientData .ext s)
  else readWindow s.pos s fun b => .next
    { s with
      plen := (s.plen <<< 8) ||| b.setWidth 64,
      pos := s.pos + 1,
      extn := s.extn - 1#4,
      ph := if s.extn - 1#4 = 0#4 then (if s.msk then .keyp else .chk) else .ext }

/-- KEYP step (R209). -/
def keypStep (s : State) : Stepped :=
  if s.avl ≤ s.pos then .next (fail .insufficientData .key s)
  else if s.kcnt.toNat ≤ 3 then
    readWindow s.pos s fun b => .next
      { s with
        key := s.key.set s.kcnt.toNat b,
        kcnt := s.kcnt + 1#3,
        pos := s.pos + 1,
        ph := if s.kcnt + 1#3 = 4#3 then .chk else .keyp }
  else .fault .keyIndex

/-- CHK step (R210): the control-length check, the reserved-opcode check, then availability of the payload, tested as
42_payload_extractor.md R160 writes it (`n < hlen` is never true on a run, R216 (a)). -/
def chkStep (s : State) : State :=
  let t := { s with hlen := BitVec.ofNat 4 s.pos }
  if ctrlRange s.opc = true ∧ 125#64 < s.plen then fail .protocolViolation .ctrlLen t
  else if reserved s.opc = true ∧ s.fin = false then fail .protocolViolation .rsvNoFin t
  else if s.avl < s.pos ∨ s.avl - s.pos < s.plen.toNat then fail .insufficientData .payload { t with hdrOk := true }
  else if s.plen = 0#64 then finish s.pos { t with hdrOk := true }
  else { t with hdrOk := true, idx := 0, ph := .pay }

/-- PAY step (R213). -/
def payStep (s : State) : Stepped :=
  readWindow s.pos s fun b =>
    let t := { s with
      out := Memory.write s.out s.idx (unmaskByte s.msk s.key s.idx b),
      idx := s.idx + 1,
      pos := s.pos + 1 }
    .next (if s.idx + 1 = s.plen.toNat then finish (s.pos + 1) t else t)

/-- The step of the phase a running transaction is in; which one is decided by PH alone (R204). -/
def serialStep (s : State) : Stepped :=
  match s.ph with
  | .idle => .next s
  | .b0 => b0Step s
  | .b1 => b1Step s
  | .ext => extStep s
  | .keyp => keypStep s
  | .chk => .next (chkStep s)
  | .pay => payStep s

end Sys2Proof.Machine
end

