-- ==== Sys2Proof/Machine/Frames.lean ====
section
/-! DEFINITION. One frame carried out as one PARSE transaction, at the grain the host sees (20_memory.md R68): the operation
every frame's meaning is one call of. "Every frame is executed by the same pipeline" (44_data_frames.md). -/

namespace Sys2Proof.Machine

/-- The payload of the frame whose header the registers hold: `PLEN` window bytes from POS on, unmasked
(42_payload_extractor.md R160, R162, R163). -/
def payloadOf (s : State) : List Byte := unmask s.msk s.key ((s.window.drop s.pos).take s.plen.toNat)

/-- All PAY steps at once (43_message_parser.md R213): the payload to OUT in ascending order, then `finish`. -/
def payAll (s : State) : State :=
  finish (s.pos + s.plen.toNat)
    { s with
      out := Memory.writeBytes s.out 0 (payloadOf s),
      idx := s.plen.toNat,
      pos := s.pos + s.plen.toNat }

/-- The part of a transaction from CHK on: the checks, and the payload where they pass. -/
def chkAndPay (s : State) : State := if (chkStep s).ph = .pay then payAll (chkStep s) else chkStep s

/-- PARSE of a frame with opcode `op` and operands `f` (43_message_parser.md R200, R205 to R213): start, header, checks,
payload. While BUSY = 1 a PARSE is ignored (70_reset_and_hazards.md R277). -/
def parseFrame (op : BitVec 4) (f : FrameOps) (s : State) : Stepped :=
  if s.ph = .idle then .next (chkAndPay (loadHeader op f (startStep s))) else .next s

end Sys2Proof.Machine
end

