-- ==== Sys2Proof/Machine/ControlFrames.lean ====
section
/-! DEFINITION. The known control frames (spec 45_control_frames.md R175 to R178): the 125-byte cap applies, `fin = 0` is passed through. -/

namespace Sys2Proof.Machine

/-- `close` (R176): the payload is opaque bytes. -/
def execClose (f : FrameOps) (s : State) : Stepped := parseFrame 0x8#4 f s

/-- `ping` (R177): classified, not answered. -/
def execPing (f : FrameOps) (s : State) : Stepped := parseFrame 0x9#4 f s

/-- `pong` (R178): not matched to any ping. -/
def execPong (f : FrameOps) (s : State) : Stepped := parseFrame 0xA#4 f s

end Sys2Proof.Machine
end

