-- ==== Sys2Proof/Machine/DataFrames.lean ====
section
/-! DEFINITION. The data frames (spec 44_data_frames.md R170 to R173). -/

namespace Sys2Proof.Machine

/-- `cont`, continuation (R170): a middle fragment with `fin = 0`, a fragment footer with `fin = 1`. -/
def execCont (f : FrameOps) (s : State) : Stepped := parseFrame 0x0#4 f s

/-- `text` (R171): a fragment header with `fin = 0`. The payload is not checked to be UTF-8 (42_payload_extractor.md R167). -/
def execText (f : FrameOps) (s : State) : Stepped := parseFrame 0x1#4 f s

/-- `bin`, binary (R172): differs from `text` in nothing but the opcode reported. -/
def execBin (f : FrameOps) (s : State) : Stepped := parseFrame 0x2#4 f s

end Sys2Proof.Machine
end

