-- ==== Sys2Proof/Machine/ReservedFrames.lean ====
section
/-! DEFINITION. The reserved-opcode frames (spec 46_reserved_frames.md R180 to R190): passed through with `fin = 1`, rejected with `fin = 0`; the 125-byte cap applies from 0xB on. -/

namespace Sys2Proof.Machine

/-- `rsv3` (R181), reserved-non-control. -/
def execRsv3 (f : FrameOps) (s : State) : Stepped := parseFrame 0x3#4 f s

/-- `rsv4` (R182), reserved-non-control. -/
def execRsv4 (f : FrameOps) (s : State) : Stepped := parseFrame 0x4#4 f s

/-- `rsv5` (R183), reserved-non-control. -/
def execRsv5 (f : FrameOps) (s : State) : Stepped := parseFrame 0x5#4 f s

/-- `rsv6` (R184), reserved-non-control. -/
def execRsv6 (f : FrameOps) (s : State) : Stepped := parseFrame 0x6#4 f s

/-- `rsv7` (R185), reserved-non-control. -/
def execRsv7 (f : FrameOps) (s : State) : Stepped := parseFrame 0x7#4 f s

/-- `rsvB` (R186), reserved-control. -/
def execRsvB (f : FrameOps) (s : State) : Stepped := parseFrame 0xB#4 f s

/-- `rsvC` (R187), reserved-control. -/
def execRsvC (f : FrameOps) (s : State) : Stepped := parseFrame 0xC#4 f s

/-- `rsvD` (R188), reserved-control. -/
def execRsvD (f : FrameOps) (s : State) : Stepped := parseFrame 0xD#4 f s

/-- `rsvE` (R189), reserved-control. -/
def execRsvE (f : FrameOps) (s : State) : Stepped := parseFrame 0xE#4 f s

/-- `rsvF` (R190), reserved-control. -/
def execRsvF (f : FrameOps) (s : State) : Stepped := parseFrame 0xF#4 f s

end Sys2Proof.Machine
end

