-- ==== Sys2Proof/Machine/Dispatch.lean ====
section
/-! DEFINITION. Dispatch: one arm per constructor of Instr, each one call of that instruction's meaning. -/

namespace Sys2Proof.Machine

def exec (i : Instr) (s : State) : Host.Outcome State Fault Refusal :=
  match i with
  | .cont f => Sys2Proof.Machine.execCont f s
  | .text f => Sys2Proof.Machine.execText f s
  | .bin f => Sys2Proof.Machine.execBin f s
  | .rsv3 f => Sys2Proof.Machine.execRsv3 f s
  | .rsv4 f => Sys2Proof.Machine.execRsv4 f s
  | .rsv5 f => Sys2Proof.Machine.execRsv5 f s
  | .rsv6 f => Sys2Proof.Machine.execRsv6 f s
  | .rsv7 f => Sys2Proof.Machine.execRsv7 f s
  | .close f => Sys2Proof.Machine.execClose f s
  | .ping f => Sys2Proof.Machine.execPing f s
  | .pong f => Sys2Proof.Machine.execPong f s
  | .rsvB f => Sys2Proof.Machine.execRsvB f s
  | .rsvC f => Sys2Proof.Machine.execRsvC f s
  | .rsvD f => Sys2Proof.Machine.execRsvD f s
  | .rsvE f => Sys2Proof.Machine.execRsvE f s
  | .rsvF f => Sys2Proof.Machine.execRsvF f s
  | .be16 o => Sys2Proof.Machine.execBe16 o s
  | .be32 o => Sys2Proof.Machine.execBe32 o s
  | .be64 o => Sys2Proof.Machine.execBe64 o s

end Sys2Proof.Machine
end

