-- ==== Sys2Proof/Machine/Cycle.lean ====
section
/-! DEFINITION. What one step of the block does around an instruction's meaning: the pins, the fetch of a frame from the
window or of an operation from the decoder's ports, the grain, and the transport's answer to the pulse. Also how a
program is placed for the next step (log 14). -/

namespace Sys2Proof.Machine

/-- A whole PARSE transaction in one step: the header at the front of the window is decoded and its frame carried out; a
header that breaks off ends in `InsufficientData` (41_header_parser.md R140, 43_message_parser.md R201). -/
def parseStep (s : State) : Stepped :=
  match decode (.frame s.window) with
  | .instr i => exec i s
  | .rejected r => .next (failHeader r s)

/-- `PH = IDLE` and `start = 1` (43_message_parser.md R205), at the grain the state names (log 1). -/
def startAtGrain (s : State) : Stepped :=
  match s.grain with
  | .transaction => parseStep s
  | .byteSerial => .next (startStep s)

/-- `PH = IDLE` and `start = 0`: the parser does nothing (43_message_parser.md R214), and the operation standing on the
decoder unit's ports, which is combinational, is carried out. -/
def idleStep (s : State) : Stepped :=
  match decode (.ports s.beWidth s.beLen s.beIn) with
  | .instr i => exec i s
  | .rejected _ => .next s

/-- One step of WSFP itself, the pulse of the step before already low: reset wins (70_reset_and_hazards.md R270), then PH
decides, and `start` when PH = IDLE (R204). While BUSY = 1 `start` is not looked at (R277). -/
def wsfpStep (s : State) : Stepped :=
  if s.rst then .next (resetStep s)
  else
    match s.ph with
    | .idle => if s.start then startAtGrain s else idleStep s
    | _ => serialStep s

/-- One step of the block with its transport. -/
def cycle (s : State) : Stepped := onNext (wsfpStep (quiet s)) transport

/-- A frame's word placed at the front of the window, and the pins set so that the next step parses it. -/
def placeFrame (bytes : List Byte) (s : State) : State :=
  { s with window := bytes ++ s.window.drop bytes.length, rst := false, start := true, ph := .idle, grain := .transaction }

/-- A decoder operation placed on the unit's ports, and the pins set so that the next step carries out only it. -/
def placePorts (width : BitVec 2) (len : BitVec 4) (x : BeIn) (s : State) : State :=
  { s with beWidth := width, beLen := len, beIn := x, rst := false, start := false, ph := .idle }

/-- An instruction placed where the next step fetches it. -/
def place (e : Encoded) (s : State) : State :=
  match e with
  | .frame B => placeFrame B s
  | .ports w len x => placePorts w len x s

end Sys2Proof.Machine
end

