-- ==== Sys2Proof/Machine/Step.lean ====
section
/-! DEFINITION. The step of the machine, and the placing of a table row's word for the next step. -/

namespace Sys2Proof.Machine

/-- One step (43_message_parser.md R204). -/
def step (s : State) : Host.Outcome State Fault Refusal := cycle s

/-- `s` with a table row's bits placed where `step` fetches next (log 14). -/
def State.withFetchWord (s : State) (nbits w : Nat) : State := place (tableEncoded nbits w) s

end Sys2Proof.Machine
end

