-- ==== Sys2Proof/Machine/HostPort.lean ====
section
/-! DEFINITION. The host's side of the ports: what it may do to the machine and what it may read (70_reset_and_hazards.md
Table H1, 10_state.md R32). These are the environment's actions, not steps of WSFP. -/

namespace Sys2Proof.Machine

/-- The host appends bytes to the window; only while BUSY = 0 (10_state.md R33, R275, entry U7). -/
def hostAppend (bs : List Byte) (s : State) : Stepped :=
  if s.busy then .refused .hostDuty else .next { s with window := s.window ++ bs }

/-- The host drives `start`, at any time (R277, Table H1). -/
def hostStart (level : Bool) (s : State) : State := { s with start := level }

/-- The host drives `rst`, at any time (R270, Table H1). -/
def hostReset (level : Bool) (s : State) : State := { s with rst := level }

/-- The Frame Header and header length a host may read: only while BUSY = 0 and HDR_OK = 1 (R32). With `MSK = 0` the
zeros in KEY are not a key. -/
def State.header? (s : State) : Option (FrameHeader × Nat) :=
  if s.busy = false ∧ s.hdrOk = true then
    some ({ fin := s.fin, rsv1 := s.rsv1, rsv2 := s.rsv2, rsv3 := s.rsv3, opCode := s.opc, isMasked := s.msk,
            payloadLength := s.plen, maskingKey := if s.msk then some s.key else none }, s.hlen.toNat)
  else none

/-- A byte of OUT a host may read: only while BUSY = 0, after KIND = OK, below PLEN (R271). -/
def State.readOut (s : State) (a : Nat) : Option Byte :=
  if s.busy = false ∧ s.kind = .ok ∧ a < s.plen.toNat then Memory.read s.out a else none

/-- The Message a host may read (R21, R32). -/
def State.message? (s : State) : Option Message :=
  if s.kind = .ok then
    match s.header?, (List.range s.plen.toNat).mapM s.readOut with
    | some (h, _), some p => some ⟨h, p⟩
    | _, _ => none
  else none

end Sys2Proof.Machine
end

