-- ==== Sys2Proof/Machine/Parser.lean ====
section
/-! DEFINITION. The function level of the spec, as its pseudocode gives it: `parse_header` (41_header_parser.md R140),
`extract_payload` (42_payload_extractor.md R160) and `parse` (43_message_parser.md R200), total functions of a byte
sequence. No meaning of an instruction calls them: that the machine agrees with them is R221. -/

namespace Sys2Proof.Machine

/-- `parse_header(B)`, the numbered steps of R140. -/
def parseHeader (B : List Byte) : Parsed (FrameHeader × Nat) :=
  let n := B.length
  let L := lenOf (byteAt B 1)
  let mask := maskOf (byteAt B 1)
  let opcode := opcodeOf (byteAt B 0)
  let fin := finOf (byteAt B 0)
  let ext := if L ≤ 125#7 then 0 else if L = 126#7 then 2 else 8
  let plen : BitVec 64 :=
    if L ≤ 125#7 then L.setWidth 64
    else if L = 126#7 then (beDecode .w16 (sliceOf B 2 4)).zext64
    else (beDecode .w64 (sliceOf B 2 10)).zext64
  let hlen := 2 + ext + (if mask then 4 else 0)
  if n < 2 then .err .insufficientData .hdr2
  else if L = 126#7 ∧ n < 4 then .err .insufficientData .ext
  else if L = 127#7 ∧ n < 10 then .err .insufficientData .ext
  else if mask = true ∧ n < 2 + ext + 4 then .err .insufficientData .key
  else if 8#4 ≤ opcode ∧ 125#64 < plen then .err .protocolViolation .ctrlLen
  else if reserved opcode = true ∧ fin = false then .err .protocolViolation .rsvNoFin
  else .ok
    ({ fin := fin, rsv1 := rsv1Of (byteAt B 0), rsv2 := rsv2Of (byteAt B 0), rsv3 := rsv3Of (byteAt B 0),
       opCode := opcode, isMasked := mask, payloadLength := plen,
       maskingKey := if mask then some (Key.ofList (sliceOf B (2 + ext) (2 + ext + 4))) else none }, hlen)

/-- `extract_payload(H, hlen, B)` (R160): availability is tested by subtraction on the small side (R161). -/
def extractPayload (h : FrameHeader) (hlen : Nat) (B : List Byte) : Parsed (List Byte) :=
  if B.length < hlen ∨ B.length - hlen < h.payloadLength.toNat then .err .insufficientData .payload
  else
    let S := sliceOf B hlen (hlen + h.payloadLength.toNat)
    .ok (match h.maskingKey with
      | some k => xorkey S k
      | none => S)

/-- `parse(B)` (R200): the Message and the count `consumed = hlen + plen`, or the first failing stage's error (R201). -/
def parse (B : List Byte) : Parsed (Message × Nat) :=
  match parseHeader B with
  | .err k c => .err k c
  | .ok (h, hlen) =>
    match extractPayload h hlen B with
    | .err k c => .err k c
    | .ok p => .ok (⟨h, p⟩, hlen + h.payloadLength.toNat)

/-- The number of steps of the byte-serial machine for the window `B`, the start step included (R215; informative). -/
def transactionSteps (B : List Byte) : Nat :=
  match parse B with
  | .ok (_, consumed) => consumed + 2
  | .err _ .hdr2 => 2
  | .err _ .ext => B.length + 2
  | .err _ .key => B.length + 2
  | .err _ _ => 2 + extBytes (lenOf (byteAt B 1)) + (if maskOf (byteAt B 1) then 4 else 0) + 2

end Sys2Proof.Machine
end

