-- ==== Sys2Proof/Safety.lean ====
section
/-! DEFINITION. What the claims are stated in terms of: the machine's invariant (43_message_parser.md R216 with Table X1,
10_state.md R23, R26, R32 and entry U6), the bounds of an instance (00_scope.md R9, 20_memory.md R63), and agreement with the
function level (43_message_parser.md R221). -/

namespace Sys2Proof.Machine

/-- The header length that the mask flag and `L` in the registers announce (30_encoding.md R94). -/
def State.announced (s : State) : Nat := 2 + extBytes s.l7 + (if s.msk then 4 else 0)

/-- What holds in each phase before its step (R216 (a) to (c); IDX is still 0 before PAY, R205); in IDLE, what the results
mean (10_state.md R32). -/
def PhaseInv (s : State) : Prop :=
  match s.ph with
  | .idle =>
    (s.hdrOk = true ↔ (s.kind = .ok ∨ s.cause = .payload)) ∧
    (s.kind = .ok → s.cons = s.hlen.toNat + s.plen.toNat ∧ s.pos = s.cons ∧ s.idx = s.plen.toNat ∧
      ∀ j < s.plen.toNat, (Memory.read s.out j).isSome = true) ∧
    (s.kind ≠ .ok → s.cons = 0)
  | .b0 => s.pos = 0 ∧ s.hdrOk = false ∧ s.idx = 0 ∧ s.kcnt = 0#3 ∧ s.msk = false
  | .b1 => s.pos = 1 ∧ 2 ≤ s.avl ∧ s.hdrOk = false ∧ s.idx = 0 ∧ s.kcnt = 0#3 ∧ s.msk = false
  | .ext =>
    1 ≤ s.extn.toNat ∧ s.extn.toNat ≤ extBytes s.l7 ∧ s.pos + s.extn.toNat = 2 + extBytes s.l7 ∧
    s.hdrOk = false ∧ s.idx = 0 ∧ s.kcnt = 0#3
  | .keyp =>
    s.msk = true ∧ s.extn = 0#4 ∧ s.kcnt.toNat ≤ 3 ∧ s.pos = 2 + extBytes s.l7 + s.kcnt.toNat ∧ s.hdrOk = false ∧
    s.idx = 0
  | .chk => s.extn = 0#4 ∧ s.pos = s.announced ∧ s.hdrOk = false ∧ s.idx = 0
  | .pay =>
    s.hdrOk = true ∧ s.extn = 0#4 ∧ s.hlen.toNat = s.announced ∧ s.pos = s.hlen.toNat + s.idx ∧
    s.idx < s.plen.toNat ∧ s.hlen.toNat + s.plen.toNat ≤ s.avl ∧
    ∀ j < s.idx, Memory.read s.out j = (s.window[s.hlen.toNat + j]?).map (unmaskByte s.msk s.key j)

/-- The invariant of WSFP between steps, a whole run or a broken-off one alike. -/
structure Invariant (s : State) : Prop where
  /-- OUT is in canonical form. -/
  outWf : Memory.wf s.out
  /-- KIND and CAUSE are paired as Table X1 allows (60_exceptions.md R241). -/
  paired : pairedX1 s.kind s.cause = true
  /-- R216 (a): POS never passes AVL. -/
  posLe : s.pos ≤ s.avl
  /-- R216 (d): no result and nothing consumed while BUSY = 1. -/
  busyNone : s.ph ≠ .idle → s.kind = .none ∧ s.cons = 0
  /-- The host keeps the window while BUSY = 1 (70_reset_and_hazards.md R275). -/
  windowKept : s.ph ≠ .idle → s.avl ≤ s.window.length
  /-- R216 (f). -/
  extnLe : s.extn.toNat ≤ 8
  /-- R216 (f). -/
  kcntLe : s.kcnt.toNat ≤ 4
  /-- Entry U6: HLEN is 0 or one of the six header lengths. -/
  hlenLegal : s.hlen.toNat ∈ [0, 2, 4, 6, 8, 10, 14]
  /-- 10_state.md R26: with `MSK = 0` the key registers stay 0. -/
  keyZero : s.msk = false → s.key = Key.zero
  /-- 10_state.md R23 (a): no validated header of an opcode of 8 or more declares above 125 bytes. -/
  cap : s.hdrOk = true → ctrlRange s.opc = true → s.plen ≤ 125#64
  /-- 41_header_parser.md R149: no validated header has a reserved opcode with `fin = 0`. -/
  noRsvNoFin : s.hdrOk = true → reserved s.opc = true → s.fin = true
  /-- 43_message_parser.md R212: the pulse is made only as a parse succeeds, with the count in CONS. -/
  pulse : s.consValid = true → s.ph = .idle ∧ s.kind = .ok ∧ s.consK = s.cons
  /-- What holds phase by phase. -/
  phase : PhaseInv s

/-- The bounds of an instance with capacities `inCap` and `outCap`: the host's duty `avail <= IN_CAP` (R282), AVL and IDX
within it, and OUT listing only addresses below OUT_CAP (20_memory.md R60, R63). -/
structure FitsInstance (inCap outCap : Nat) (s : State) : Prop where
  availLe : s.avail ≤ inCap
  avlLe : s.avl ≤ inCap
  idxLe : s.idx ≤ inCap
  outLt : ∀ a, (Memory.read s.out a).isSome = true → a < outCap

/-- Where a step looks for the next frame: IDLE, `start = 1`, no reset (43_message_parser.md R205). -/
def ParseAsked (s : State) : Prop := s.ph = .idle ∧ s.start = true ∧ s.rst = false

/-- The end of a transaction that began in `s` on the window `B` and ended in `t`, as the function level gives it
(43_message_parser.md R221 (a) and (b)). -/
def AgreesWithParse (B : List Byte) (s t : State) : Prop :=
  t.ph = .idle ∧
  match parse B with
  | .ok (m, c) =>
    t.kind = .ok ∧ t.cause = .none ∧ t.hdrOk = true ∧
    t.fin = m.header.fin ∧ t.rsv1 = m.header.rsv1 ∧ t.rsv2 = m.header.rsv2 ∧ t.rsv3 = m.header.rsv3 ∧
    t.opc = m.header.opCode ∧ t.msk = m.header.isMasked ∧ t.plen = m.header.payloadLength ∧
    t.key = m.header.maskingKey.getD Key.zero ∧
    t.hlen.toNat + t.plen.toNat = c ∧
    (∀ i < m.payload.length, Memory.read t.out i = m.payload[i]?) ∧
    (∀ a, m.payload.length ≤ a → Memory.read t.out a = Memory.read s.out a) ∧
    t.cons = c ∧ t.consValid = true ∧ t.consK = c
  | .err k x =>
    t.kind = k ∧ t.cause = x ∧ t.cons = 0 ∧ t.consValid = false ∧ t.out = s.out ∧
    (t.hdrOk = true ↔ x = .payload) ∧
    (x = .payload → ∃ h hlen, parseHeader B = .ok (h, hlen) ∧
      t.fin = h.fin ∧ t.rsv1 = h.rsv1 ∧ t.rsv2 = h.rsv2 ∧ t.rsv3 = h.rsv3 ∧ t.opc = h.opCode ∧
      t.msk = h.isMasked ∧ t.plen = h.payloadLength ∧ t.key = h.maskingKey.getD Key.zero ∧ t.hlen.toNat = hlen)

/-- Steps one after another, stopping at the first fault or refusal. -/
def runSteps : Nat → State → Stepped
  | 0, s => .next s
  | k + 1, s =>
    match step s with
    | .next t => runSteps k t
    | .fault r => .fault r
    | .refused r => .refused r

end Sys2Proof.Machine
end

