-- ==== Sys2Proof/Certificates/Slice0/Obligations.lean ====
section
/-! DEFINITION. The statements for the provers. Each is about WSFP as modelled; each docstring names the rules of spec/ it
rests on, and the log entries where the model's own choices enter. -/

namespace Sys2Proof.Machine

/-! ## Shapes the statements share -/

/-- The registers of a transaction of the frame with opcode `op` and operands `f` that began in `s`, once its header has
been read and HLEN written (10_state.md R25 to R27): everything but the result, POS, IDX, HDR_OK and OUT. -/
def headerRead (op : BitVec 4) (f : FrameOps) (s : State) : State :=
  { s with
    ph := .idle, avl := s.window.length,
    fin := f.fin, rsv1 := f.rsv1, rsv2 := f.rsv2, rsv3 := f.rsv3, opc := op, msk := f.key.isSome, l7 := f.len.field,
    extn := 0#4, plen := f.plen, key := f.key.getD Key.zero, kcnt := if f.key.isSome then 4#3 else 0#3,
    hlen := BitVec.ofNat 4 f.hlen }

/-- The frame `i` is carried out from `s` with full effect (10_state.md R32, 43_message_parser.md R221 (a)): a next state
in which the header registers hold the frame's header, KIND is OK, CONS and the pulse carry `hlen + plen`, OUT below PLEN
holds the payload bytes unmasked with the key (42_payload_extractor.md R162, R163), and nothing else has changed: every
address of OUT from PLEN on, the window, the pins, the decoder's ports. -/
def CompletesFrom (i : Instr) (op : BitVec 4) (f : FrameOps) (s : State) : Prop :=
  ∃ t : State, exec i s = .next t ∧
    t = { headerRead op f s with
          pos := f.hlen + f.plen.toNat, idx := f.plen.toNat, hdrOk := true,
          kind := .ok, cause := .none, cons := f.hlen + f.plen.toNat,
          consValid := true, consK := f.hlen + f.plen.toNat, out := t.out } ∧
    (∀ j < f.plen.toNat, Memory.read t.out j =
      (s.window[f.hlen + j]?).map (fun b => match f.key with | some k => b ^^^ k.get j | none => b)) ∧
    (∀ a, f.plen.toNat ≤ a → Memory.read t.out a = Memory.read s.out a) ∧
    (∀ j < f.plen.toNat, (Memory.read t.out j).isSome = true)

/-- The four classification flags of `t` (10_state.md R30). -/
def FlagsAre (t : State) (ctrl hdr ftr frag : Bool) : Prop :=
  t.isCtrl = ctrl ∧ t.isFragHdr = hdr ∧ t.isFragFtr = ftr ∧ t.isFrag = frag

/-- The whole frame stands in the window: header and payload are there (42_payload_extractor.md R161). -/
def WholeFrame (f : FrameOps) (s : State) : Prop := f.hlen + f.plen.toNat ≤ s.avail

end Sys2Proof.Machine

open Sys2Proof Sys2Proof.Machine

/-! ## Encoding -/

/-- DECODE AND ENCODE AGREE, every instruction, every operand: the decoder reads a well-formed instruction back from the
words the encoder gives, whatever bytes follow a header (30_encoding.md sections 1 to 4, R109). -/
def Obligations.DecodeOfEncodeIsInstr : Prop :=
  ∀ i : Instr, i.wf = true →
    match encode i with
    | .frame H => ∀ rest : List Byte, decode (.frame (H ++ rest)) = .instr i
    | .ports w l x => decode (.ports w l x) = .instr i

/-- The other direction: each header and each port setting has one meaning (30_encoding.md R100, R107, R109). -/
def Obligations.EncodeOfDecodeIsPrefix : Prop :=
  (∀ (B : List Byte) (i : Instr), decode (.frame B) = .instr i →
    i.wf = true ∧ ∃ H rest : List Byte, encode i = .frame H ∧ B = H ++ rest) ∧
  (∀ (w : BitVec 2) (l : BitVec 4) (x : BeIn) (i : Instr), decode (.ports w l x) = .instr i → encode i = .ports w l x)

/-- Words written out from the spec's encodings: at least one of each class of opcode of R15 and of each of the six formats,
and the decoder's four port values (30_encoding.md R93, R99, R109). The headers of 95_test_vectors.md T27, T31, T42, T76,
T85, T120 and of T133's first frame stand among them. -/
def Obligations.DecodesWrittenOutWords : Prop :=
  decode (.frame [0x81#8, 0x05#8]) = .instr (.text ⟨true, false, false, false, .short 5#7, none⟩) ∧
  decode (.frame [0x00#8, 0x01#8]) = .instr (.cont ⟨false, false, false, false, .short 1#7, none⟩) ∧
  decode (.frame [0x82#8, 0x83#8, 0xAA#8, 0xBB#8, 0xCC#8, 0xDD#8]) =
    .instr (.bin ⟨true, false, false, false, .short 3#7, some ⟨0xAA#8, 0xBB#8, 0xCC#8, 0xDD#8⟩⟩) ∧
  decode (.frame [0x82#8, 0x7E#8, 0x00#8, 0x7E#8]) = .instr (.bin ⟨true, false, false, false, .ext16 126#16, none⟩) ∧
  decode (.frame [0x8A#8, 0xFE#8, 0x01#8, 0x00#8, 0x37#8, 0xFA#8, 0x21#8, 0x3D#8]) =
    .instr (.pong ⟨true, false, false, false, .ext16 256#16, some ⟨0x37#8, 0xFA#8, 0x21#8, 0x3D#8⟩⟩) ∧
  decode (.frame [0xF2#8, 0x7F#8, 0#8, 0#8, 0#8, 0#8, 0#8, 1#8, 0#8, 0#8]) =
    .instr (.bin ⟨true, true, true, true, .ext64 65536#64, none⟩) ∧
  decode (.frame [0xC7#8, 0xFF#8, 0#8, 0#8, 0#8, 0#8, 0#8, 0#8, 0#8, 3#8, 1#8, 2#8, 3#8, 4#8]) =
    .instr (.rsv7 ⟨true, true, false, false, .ext64 3#64, some ⟨1#8, 2#8, 3#8, 4#8⟩⟩) ∧
  decode (.frame [0x2B#8, 0x00#8]) = .instr (.rsvB ⟨false, false, true, false, .short 0#7, none⟩) ∧
  decode (.frame [0x98#8, 0x7D#8]) = .instr (.close ⟨true, false, false, true, .short 125#7, none⟩) ∧
  decode (.frame [0x89#8, 0x00#8]) = .instr (.ping ⟨true, false, false, false, .short 0#7, none⟩) ∧
  decode (.frame [0x82#8, 0xFF#8, 0#8, 0#8, 0#8, 0#8, 0#8, 0#8, 0#8, 3#8, 1#8, 2#8, 3#8, 4#8]) =
    .instr (.bin ⟨true, false, false, false, .ext64 3#64, some ⟨1#8, 2#8, 3#8, 4#8⟩⟩) ∧
  decode (.frame [0x8A#8, 0x80#8, 1#8, 2#8, 3#8, 4#8]) =
    .instr (.pong ⟨true, false, false, false, .short 0#7, some ⟨1#8, 2#8, 3#8, 4#8⟩⟩) ∧
  decode (.frame [0x8F#8, 0x81#8, 0xFF#8, 0#8, 0#8, 0#8]) =
    .instr (.rsvF ⟨true, false, false, false, .short 1#7, some ⟨0xFF#8, 0#8, 0#8, 0#8⟩⟩) ∧
  decode (.ports 0#2 2#4 BeIn.zero) = .instr (.be16 ⟨2#4, BeIn.zero⟩) ∧
  decode (.ports 1#2 4#4 BeIn.zero) = .instr (.be32 ⟨4#4, BeIn.zero⟩) ∧
  decode (.ports 2#2 8#4 BeIn.zero) = .instr (.be64 ⟨8#4, BeIn.zero⟩) ∧
  decode (.ports 3#2 2#4 BeIn.zero) = .rejected .noWidth

/-- R94: the header length is known from byte 1 alone; byte 0 has no influence on any length: with any other byte 0 the same
bytes spell a frame of the same header length and the same payload length. -/
def Obligations.HeaderLengthFromByteOne : Prop :=
  ∀ (b0 b1 : Byte) (rest : List Byte) (i : Instr), decode (.frame (b0 :: b1 :: rest)) = .instr i →
    ∃ H : List Byte, encode i = .frame H ∧
      H.length = 2 + (if lenOf b1 ≤ 125#7 then 0 else if lenOf b1 = 126#7 then 2 else 8) + (if maskOf b1 then 4 else 0) ∧
      ∀ b0' : Byte, ∃ i' H', decode (.frame (b0' :: b1 :: rest)) = .instr i' ∧ encode i' = .frame H' ∧
        H'.length = H.length ∧
        ∃ op f op' f', i.frame? = some (op, f) ∧ i'.frame? = some (op', f') ∧ f'.plen = f.plen

/-- When a header breaks off, and with which cause, in the order of the header algorithm (41_header_parser.md R150, R144,
R145, R146, R151): HDR2 below two bytes, then EXT, then KEY; and where none of these holds, a frame is read, with the opcode
of byte 0. -/
def Obligations.MissingHeaderBytesVerdict : Prop :=
  ∀ B : List Byte,
    (decode (.frame B) = .rejected .hdr2 ↔ B.length < 2) ∧
    (decode (.frame B) = .rejected .ext ↔ 2 ≤ B.length ∧
      ((lenOf (byteAt B 1) = 126#7 ∧ B.length < 4) ∨ (lenOf (byteAt B 1) = 127#7 ∧ B.length < 10))) ∧
    (decode (.frame B) = .rejected .key ↔ 2 ≤ B.length ∧ maskOf (byteAt B 1) = true ∧
      ((lenOf (byteAt B 1) ≤ 125#7 ∧ B.length < 6) ∨
       (lenOf (byteAt B 1) = 126#7 ∧ 4 ≤ B.length ∧ B.length < 8) ∨
       (lenOf (byteAt B 1) = 127#7 ∧ 10 ≤ B.length ∧ B.length < 14))) ∧
    (2 ≤ B.length → (lenOf (byteAt B 1) = 126#7 → 4 ≤ B.length) → (lenOf (byteAt B 1) = 127#7 → 10 ≤ B.length) →
      (maskOf (byteAt B 1) = true →
        (if lenOf (byteAt B 1) ≤ 125#7 then 6 else if lenOf (byteAt B 1) = 126#7 then 8 else 14) ≤ B.length) →
      ∃ (i : Instr) (f : FrameOps), decode (.frame B) = .instr i ∧
        i.frame? = some ((byteAt B 0).extractLsb' 0 4, f))

/-! ## A step runs the decoded instruction -/

/-- PARSE: from IDLE with `start = 1` the step is `exec` of the frame the window holds, and then the transport's answer to
the `consume` pulse (43_message_parser.md R203, R205; 70_reset_and_hazards.md R278; grain and transport are the model's
form, log 1, 5). -/
def Obligations.StepRunsDecodedFrame : Prop :=
  ∀ (s : State) (i : Instr), ParseAsked s → s.grain = .transaction → decode (.frame s.window) = .instr i →
    step s = onNext (exec i (quiet s)) transport

/-- The decoder unit: from IDLE with `start = 0` the step is `exec` of the operation on the ports (40_be_decoder.md R134;
that a step carries it out is the model's form, log 14). -/
def Obligations.StepRunsDecoderOperation : Prop :=
  ∀ (s : State) (i : Instr), s.ph = .idle → s.start = false → s.rst = false →
    decode (.ports s.beWidth s.beLen s.beIn) = .instr i →
    step s = onNext (exec i (quiet s)) transport

/-- The placed word is the instruction the next step runs: for every state, every table word of every width (log 14). -/
def Obligations.PlacedWordRuns : Prop :=
  ∀ (s : State) (nbits w : Nat) (i : Instr), decodeTableWord nbits w = some i →
    step (s.withFetchWord nbits w) = onNext (exec i (quiet (s.withFetchWord nbits w))) transport

/-- A header that breaks off takes the exception `InsufficientData` (60_exceptions.md R243, R250; 10_state.md R32): KIND
and CAUSE are set, HDR_OK is 0, nothing is consumed, no pulse, OUT, window, pins and ports as before. -/
def Obligations.BrokenHeaderTakesException : Prop :=
  ∀ (s : State) (r : Reject), ParseAsked s → s.grain = .transaction → decode (.frame s.window) = .rejected r →
    ∃ t : State, step s = .next t ∧ t.ph = .idle ∧ t.kind = .insufficientData ∧
      t.cause = (match r with | .hdr2 => Cause.hdr2 | .ext => Cause.ext | .key => Cause.key | .noWidth => Cause.none) ∧
      t.hdrOk = false ∧ t.cons = 0 ∧ t.consValid = false ∧ t.consK = s.consK ∧ t.out = s.out ∧ t.window = s.window ∧
      t.rst = s.rst ∧ t.start = s.start ∧ t.beIn = s.beIn ∧ t.beLen = s.beLen ∧ t.beWidth = s.beWidth ∧ t.grain = s.grain

/-! ## Frames: completion, result and frame -/

/-- `cont` (44_data_frames.md R170, R173): completes on every whole frame, whatever `fin`, reserved bits, length and key;
flags (0, 0, fin, 1). -/
def Obligations.ContCompletes : Prop :=
  ∀ (f : FrameOps) (s : State), s.ph = .idle → WholeFrame f s →
    CompletesFrom (.cont f) 0x0#4 f s ∧ ∀ t, exec (.cont f) s = .next t → FlagsAre t false false f.fin true

/-- `text` and `bin` (44_data_frames.md R171, R172, R173): complete on every whole frame; flags (0, not fin, 0, not fin). -/
def Obligations.TextAndBinComplete : Prop :=
  ∀ (f : FrameOps) (s : State), s.ph = .idle → WholeFrame f s →
    CompletesFrom (.text f) 0x1#4 f s ∧ CompletesFrom (.bin f) 0x2#4 f s ∧
    (∀ t, exec (.text f) s = .next t → FlagsAre t false (!f.fin) false (!f.fin)) ∧
    (∀ t, exec (.bin f) s = .next t → FlagsAre t false (!f.fin) false (!f.fin))

/-- `close`, `ping`, `pong` (45_control_frames.md R175 to R178): complete on every whole frame of at most 125 bytes, with
`fin = 0` too; flags (1, 0, 0, 0). -/
def Obligations.ControlFramesComplete : Prop :=
  ∀ (f : FrameOps) (s : State), s.ph = .idle → WholeFrame f s → f.plen.toNat ≤ 125 →
    CompletesFrom (.close f) 0x8#4 f s ∧ CompletesFrom (.ping f) 0x9#4 f s ∧ CompletesFrom (.pong f) 0xA#4 f s ∧
    (∀ i ∈ [Instr.close f, Instr.ping f, Instr.pong f], ∀ t, exec i s = .next t → FlagsAre t true false false false)

/-- `rsv3` to `rsv7` (46_reserved_frames.md R180 to R185): passed through with `fin = 1`, at any length; all flags 0. -/
def Obligations.ReservedNonControlComplete : Prop :=
  ∀ (f : FrameOps) (s : State), s.ph = .idle → WholeFrame f s → f.fin = true →
    CompletesFrom (.rsv3 f) 0x3#4 f s ∧ CompletesFrom (.rsv4 f) 0x4#4 f s ∧ CompletesFrom (.rsv5 f) 0x5#4 f s ∧
    CompletesFrom (.rsv6 f) 0x6#4 f s ∧ CompletesFrom (.rsv7 f) 0x7#4 f s ∧
    (∀ i ∈ [Instr.rsv3 f, Instr.rsv4 f, Instr.rsv5 f, Instr.rsv6 f, Instr.rsv7 f],
      ∀ t, exec i s = .next t → FlagsAre t false false false false)

/-- `rsvB` to `rsvF` (46_reserved_frames.md R180, R186 to R190): passed through with `fin = 1` and at most 125 bytes; all
flags 0, `isControlFrame` too. -/
def Obligations.ReservedControlComplete : Prop :=
  ∀ (f : FrameOps) (s : State), s.ph = .idle → WholeFrame f s → f.fin = true → f.plen.toNat ≤ 125 →
    CompletesFrom (.rsvB f) 0xB#4 f s ∧ CompletesFrom (.rsvC f) 0xC#4 f s ∧ CompletesFrom (.rsvD f) 0xD#4 f s ∧
    CompletesFrom (.rsvE f) 0xE#4 f s ∧ CompletesFrom (.rsvF f) 0xF#4 f s ∧
    (∀ i ∈ [Instr.rsvB f, Instr.rsvC f, Instr.rsvD f, Instr.rsvE f, Instr.rsvF f],
      ∀ t, exec i s = .next t → FlagsAre t false false false false)

/-! ## Frames: the exceptions -/

/-- The 125-byte cap (30_encoding.md R104, 41_header_parser.md R147): `close`, `ping`, `pong` and `rsvB` to `rsvF` with a
decoded length above 125 take `ProtocolViolation` (CTRL_LEN) whether or not the payload is there and whatever `fin` is;
nothing is consumed, OUT and everything else as the equation says. -/
def Obligations.CapViolationTraps : Prop :=
  ∀ (f : FrameOps) (s : State), s.ph = .idle → 125 < f.plen.toNat →
    ∀ i ∈ [Instr.close f, Instr.ping f, Instr.pong f, Instr.rsvB f, Instr.rsvC f, Instr.rsvD f, Instr.rsvE f, Instr.rsvF f],
      ∃ op, i.frame? = some (op, f) ∧
        exec i s = .next { headerRead op f s with
          pos := f.hlen, idx := 0, hdrOk := false, kind := .protocolViolation, cause := .ctrlLen, cons := 0,
          consValid := false }

/-- A reserved opcode with `fin = 0` (41_header_parser.md R149, 46_reserved_frames.md R180): `ProtocolViolation`
(RSV_NOFIN), for `rsv3` to `rsv7` at any length, for `rsvB` to `rsvF` at a length of at most 125 (above it the cap's
violation is reported instead, R180 (f)). -/
def Obligations.ReservedWithoutFinTraps : Prop :=
  ∀ (f : FrameOps) (s : State) (i : Instr), s.ph = .idle → f.fin = false →
    (i ∈ [Instr.rsv3 f, Instr.rsv4 f, Instr.rsv5 f, Instr.rsv6 f, Instr.rsv7 f] ∨
     (i ∈ [Instr.rsvB f, Instr.rsvC f, Instr.rsvD f, Instr.rsvE f, Instr.rsvF f] ∧ f.plen.toNat ≤ 125)) →
      ∃ op, i.frame? = some (op, f) ∧
        exec i s = .next { headerRead op f s with
          pos := f.hlen, idx := 0, hdrOk := false, kind := .protocolViolation, cause := .rsvNoFin, cons := 0,
          consValid := false }

/-- A payload that is short (42_payload_extractor.md R161, 10_state.md R32): any frame whose header breaks no rule and whose
payload is not all there takes `InsufficientData` (PAYLOAD) with HDR_OK = 1; nothing is consumed and OUT is not written. -/
def Obligations.MissingPayloadTraps : Prop :=
  ∀ (i : Instr) (op : BitVec 4) (f : FrameOps) (s : State), i.frame? = some (op, f) → s.ph = .idle →
    (8 ≤ op.toNat → f.plen.toNat ≤ 125) → (reserved op = true → f.fin = true) → ¬ WholeFrame f s →
      exec i s = .next { headerRead op f s with
        pos := f.hlen, idx := 0, hdrOk := true, kind := .insufficientData, cause := .payload, cons := 0,
        consValid := false }

/-- Data frames are never rejected with `ProtocolViolation` (44_data_frames.md R173), a reserved-non-control frame never for
its length, and a known control frame never for `fin` (46_reserved_frames.md R181, 30_encoding.md R106). -/
def Obligations.WhichFramesViolate : Prop :=
  ∀ (i : Instr) (op : BitVec 4) (f : FrameOps) (s t : State), i.frame? = some (op, f) → s.ph = .idle → exec i s = .next t →
    (t.kind = .protocolViolation ↔
      (8 ≤ op.toNat ∧ 125 < f.plen.toNat) ∨ (reserved op = true ∧ f.fin = false)) ∧
    (t.cause = .ctrlLen ↔ 8 ≤ op.toNat ∧ 125 < f.plen.toNat)

/-- While BUSY = 1 a PARSE is ignored (70_reset_and_hazards.md R277): a frame's `exec` changes nothing, and the level of
`start` has no effect on a step beyond staying what it is: the transaction is neither restarted nor queued. -/
def Obligations.StartIgnoredWhileBusy : Prop :=
  ∀ s : State, s.ph ≠ .idle →
    (∀ (i : Instr) (op : BitVec 4) (f : FrameOps), i.frame? = some (op, f) → exec i s = .next s) ∧
    (∀ b : Bool, step (hostStart b s) = onNext (step s) (hostStart b))

/-! ## The big-endian decoder -/

/-- `be16` (40_be_decoder.md R131, R134; that the operation drives the ports is the model's form, log 14): with two bytes
the value `256 * S[0] + S[1]`, with any other number of bytes `LengthMismatch`; it writes no flag, no register, no memory.
-/
def Obligations.Be16Decodes : Prop :=
  ∀ (o : BeOps) (s : State), ∃ t : State, exec (.be16 o) s = .next t ∧
    t = { s with beWidth := 0#2, beLen := o.len, beIn := o.bytes } ∧
    (t.beErr = true ↔ o.len ≠ 2#4) ∧
    (o.len = 2#4 → t.beVal.toNat = 256 * o.bytes.b0.toNat + o.bytes.b1.toNat)

/-- `be32` (40_be_decoder.md R132, R134; that the operation drives the ports is the model's form, log 14): with four bytes
their big-endian sum, with any other number of bytes `LengthMismatch`; it writes no flag, no register, no memory. -/
def Obligations.Be32Decodes : Prop :=
  ∀ (o : BeOps) (s : State), ∃ t : State, exec (.be32 o) s = .next t ∧
    t = { s with beWidth := 1#2, beLen := o.len, beIn := o.bytes } ∧
    (t.beErr = true ↔ o.len ≠ 4#4) ∧
    (o.len = 4#4 → t.beVal.toNat =
      16777216 * o.bytes.b0.toNat + 65536 * o.bytes.b1.toNat + 256 * o.bytes.b2.toNat + o.bytes.b3.toNat)

/-- `be64` (40_be_decoder.md R133, R134; that the operation drives the ports is the model's form, log 14): with eight bytes
the value of the shift-in loop, which is their big-endian sum, with any other number of bytes `LengthMismatch`; it writes no
flag, no register, no memory. -/
def Obligations.Be64Decodes : Prop :=
  ∀ (o : BeOps) (s : State), ∃ t : State, exec (.be64 o) s = .next t ∧
    t = { s with beWidth := 2#2, beLen := o.len, beIn := o.bytes } ∧
    (t.beErr = true ↔ o.len ≠ 8#4) ∧
    (o.len = 8#4 →
      t.beVal = o.bytes.toList.foldl (fun (v : BitVec 64) (b : Byte) => (v <<< 8) ||| b.setWidth 64) 0#64 ∧
      t.beVal.toNat = o.bytes.b0.toNat * 256 ^ 7 + o.bytes.b1.toNat * 256 ^ 6 + o.bytes.b2.toNat * 256 ^ 5 +
        o.bytes.b3.toNat * 256 ^ 4 + o.bytes.b4.toNat * 256 ^ 3 + o.bytes.b5.toNat * 256 ^ 2 +
        o.bytes.b6.toNat * 256 + o.bytes.b7.toNat)

/-- The port value 3 is no width (40_be_decoder.md R134): `be_err = 1` whatever `be_len` is. -/
def Obligations.WidthThreeIsAnError : Prop :=
  ∀ (len : BitVec 4) (x : BeIn) (s : State),
    (driveDecoder 3#2 len x s).beErr = true ∧ decode (.ports 3#2 len x) = .rejected .noWidth

/-- R130: `be_decode(W, S)` is the big-endian sum when the length matches, and `LengthMismatch` otherwise. -/
def Obligations.BeDecodeIsBigEndianSum : Prop :=
  ∀ (w : BeWidth) (S : List Byte),
    (S.length = w.bytes → ∃ v : BitVec w.bits, beDecode w S = .value v ∧
      v.toNat = ∑ i ∈ Finset.range S.length, (byteAt S i).toNat * 256 ^ (S.length - 1 - i)) ∧
    (S.length ≠ w.bytes → beDecode w S = .lengthMismatch)

/-- Decoding is injective on the sequences of a width's length, and six leading zero bytes do not change the value of two
bytes (40_be_decoder.md R135 (b), (d)). -/
def Obligations.BeDecodeInjective : Prop :=
  (∀ (w : BeWidth) (S T : List Byte), S.length = w.bytes → T.length = w.bytes → beDecode w S = beDecode w T → S = T) ∧
  (∀ a b : Byte, (beDecode .w64 [0#8, 0#8, 0#8, 0#8, 0#8, 0#8, a, b]).zext64 = (beDecode .w16 [a, b]).zext64)

/-- The decoder unit and the parser do not interfere (10_state.md R35, 60_exceptions.md R245): whatever stands on the
unit's ports, a step of the machine does the same and leaves the ports as they are. -/
def Obligations.DecoderAndParserIndependent : Prop :=
  ∀ (s : State) (w : BitVec 2) (l : BitVec 4) (x : BeIn),
    step (driveDecoder w l x s) = onNext (step s) (driveDecoder w l x)

/-! ## Steps of the machine level -/

/-- R205, the start step (the byte-serial grain, log 1, carries it out as a step of its own): AVL takes `avail`, PH takes B0,
every other register is cleared; OUT and the window stay, and no byte of the window is looked at. -/
def Obligations.StartStepClears : Prop :=
  ∀ s : State, ParseAsked s → s.grain = .byteSerial →
    step s = .next { s with
      avl := s.avail, pos := 0, idx := 0, hlen := 0#4, extn := 0#4, kcnt := 0#3,
      fin := false, rsv1 := false, rsv2 := false, rsv3 := false, opc := 0#4, msk := false, l7 := 0#7,
      plen := 0#64, key := ⟨0#8, 0#8, 0#8, 0#8⟩, hdrOk := false, kind := .none, cause := .none, cons := 0, ph := .b0,
      consValid := false }

/-- R206, the B0 step: with fewer than two bytes the exception HDR2 and nothing else; otherwise byte 0 into FIN, RSV1..3
and OPC. -/
def Obligations.BZeroStep : Prop :=
  ∀ s : State, s.ph = .b0 → s.rst = false →
    (s.avl < 2 → step s = .next { s with kind := .insufficientData, cause := .hdr2, ph := .idle, consValid := false }) ∧
    (∀ b, 2 ≤ s.avl → s.window[0]? = some b →
      step s = .next { s with
        fin := b.getLsbD 7, rsv1 := b.getLsbD 6, rsv2 := b.getLsbD 5, rsv3 := b.getLsbD 4, opc := b.extractLsb' 0 4,
        pos := 1, ph := .b1, consValid := false })

/-- R207, the B1 step: MSK, L7, and PLEN, EXTN, PH by the value of `L`; on every byte it goes on. -/
def Obligations.BOneStep : Prop :=
  ∀ (s : State) (b : Byte), s.ph = .b1 → s.rst = false → 2 ≤ s.avl → s.window[1]? = some b →
    step s = .next { s with
      msk := b.getLsbD 7, l7 := b.extractLsb' 0 7, pos := 2, consValid := false,
      plen := if (b.extractLsb' 0 7).toNat ≤ 125 then (b.extractLsb' 0 7).setWidth 64 else 0#64,
      extn := if (b.extractLsb' 0 7).toNat ≤ 125 then 0#4 else if (b.extractLsb' 0 7).toNat = 126 then 2#4 else 8#4,
      ph := if (b.extractLsb' 0 7).toNat ≤ 125 then (if b.getLsbD 7 then .keyp else .chk) else .ext }

/-- The EXT and KEYP steps (43_message_parser.md R208, R209): the byte at POS into the bottom of PLEN, or into `KEY[KCNT]`;
at AVL the exception EXT or KEY. -/
def Obligations.ExtAndKeySteps : Prop :=
  ∀ s : State, s.rst = false →
    (s.ph = .ext → s.avl ≤ s.pos →
      step s = .next { s with kind := .insufficientData, cause := .ext, ph := .idle, consValid := false }) ∧
    (∀ b, s.ph = .ext → s.pos < s.avl → s.window[s.pos]? = some b →
      step s = .next { s with
        plen := (s.plen <<< 8) ||| b.setWidth 64, pos := s.pos + 1, extn := s.extn - 1#4, consValid := false,
        ph := if s.extn = 1#4 then (if s.msk then .keyp else .chk) else .ext }) ∧
    (s.ph = .keyp → s.avl ≤ s.pos →
      step s = .next { s with kind := .insufficientData, cause := .key, ph := .idle, consValid := false }) ∧
    (∀ b, s.ph = .keyp → s.kcnt.toNat ≤ 3 → s.pos < s.avl → s.window[s.pos]? = some b →
      ∃ t : State, step s = .next t ∧
        t = { s with key := t.key, kcnt := s.kcnt + 1#3, pos := s.pos + 1, consValid := false,
                     ph := if s.kcnt = 3#3 then .chk else .keyp } ∧
        ∀ j < 4, t.key.get j = if j = s.kcnt.toNat then b else s.key.get j)

/-- The PAY step (43_message_parser.md R213): one byte read at POS, unmasked with `KEY[IDX mod 4]` when MSK = 1, written at
IDX; every other address of OUT as before; on the last byte, and only then, `finish` (R212). That the window loses its
`cons_k` bytes in that same step is the transport's answer to the pulse (10_state.md R33, 70_reset_and_hazards.md R278) at
the instant the model chooses (log 5). -/
def Obligations.PayStep : Prop :=
  ∀ (s : State) (b : Byte), s.ph = .pay → s.rst = false → s.pos < s.avl → s.window[s.pos]? = some b →
    ∃ t : State, step s = .next t ∧
      Memory.read t.out s.idx = some (if s.msk then b ^^^ s.key.get s.idx else b) ∧
      (∀ a, a ≠ s.idx → Memory.read t.out a = Memory.read s.out a) ∧
      (s.idx + 1 ≠ s.plen.toNat →
        t = { s with out := t.out, idx := s.idx + 1, pos := s.pos + 1, consValid := false }) ∧
      (s.idx + 1 = s.plen.toNat →
        t = { s with out := t.out, idx := s.idx + 1, pos := s.pos + 1, kind := .ok, cause := .none, cons := s.pos + 1,
                     ph := .idle, consValid := true, consK := s.pos + 1, window := s.window.drop (s.pos + 1) })

/-- R214, idle: with `start = 0` nothing changes; the pulse of the step before, which lasts one step (R212), is over. -/
def Obligations.IdleChangesNothing : Prop :=
  ∀ s : State, s.ph = .idle → s.start = false → s.rst = false → step s = .next { s with consValid := false }

/-- R270, reset: whatever PH and `start` are, every register becomes 0 and nothing else changes, no pulse is made; after it
BUSY is 0, STATUS reads 0x00, the flags read (0, 0, 0, 1) and the decoder unit is unaffected. -/
def Obligations.ResetClearsRegisters : Prop :=
  ∀ s : State, s.rst = true →
    ∃ t : State, step s = .next t ∧ t.status = 0x00#8 ∧ t.busy = false ∧ FlagsAre t false false false true ∧
      t.beErr = s.beErr ∧ t.beVal = s.beVal ∧
      t = { State.reset with
            out := s.out, window := s.window, rst := true, start := s.start, consK := s.consK,
            beIn := s.beIn, beLen := s.beLen, beWidth := s.beWidth, grain := s.grain }

/-- Reset abandons a transaction (70_reset_and_hazards.md R272): from any state, busy or not, after a reset step a PARSE of
the same window ends in the verdict the function level gives for that window. -/
def Obligations.ParseAfterResetSeesSameWindow : Prop :=
  ∀ s : State, s.rst = true → s.start = true →
    ∃ t u : State, step s = .next t ∧ t.window = s.window ∧ t.kind = .none ∧ t.consValid = false ∧
      step { t with rst := false, grain := .transaction } = .next u ∧ AgreesWithParse s.window t u

/-! ## Invariants and whole-machine rules -/

/-- THE INVARIANT IS KEPT (43_message_parser.md R216, 60_exceptions.md Table X1, 10_state.md R23 (a), R26, R32, entry U6;
the canonical form of OUT): by every step, at either grain, from every state that satisfies it. -/
def Obligations.StepKeepsInvariant : Prop :=
  ∀ s t : State, Invariant s → step s = .next t → Invariant t

/-- The state after reset satisfies the invariant. -/
def Obligations.ResetSatisfiesInvariant : Prop := Invariant State.reset

/-- No step from a state of the invariant stops (20_memory.md R61, 30_encoding.md R107): no read beyond AVL, no fault, no
refusal. -/
def Obligations.NoStopUnderInvariant : Prop :=
  ∀ s : State, Invariant s → ∃ t : State, step s = .next t

/-- Every memory operation of a step keeps OUT's canonical form, from any state at all (the model's form of memory, log 8). -/
def Obligations.StepKeepsOutCanonical : Prop :=
  ∀ s t : State, Memory.wf s.out → step s = .next t → Memory.wf t.out

/-- An instance is never outgrown (10_state.md R24, 20_memory.md R63, 00_scope.md R9): the spec's constraint `OUT_CAP >= IN_CAP
- 2` holds of Config's instance, and for every instance under it and under the host's duty `avail <= IN_CAP`, a step keeps
AVL and IDX within IN_CAP and OUT below OUT_CAP, and AVL, POS, IDX, CONS fit registers of AVAIL_W bits (the model holds them
unbounded, log 2). -/
def Obligations.InstanceIsNeverOutgrown : Prop :=
  Config.inCap - 2 ≤ Config.outCap ∧
  ∀ (inCap outCap : Nat) (s t : State), inCap - 2 ≤ outCap → Invariant s → FitsInstance inCap outCap s → step s = .next t →
    FitsInstance inCap outCap t ∧
    t.avl < 2 ^ availBits inCap ∧ t.pos < 2 ^ availBits inCap ∧ t.idx < 2 ^ availBits inCap ∧
    t.cons < 2 ^ availBits inCap

/-- The frame advance (43_message_parser.md R203, 20_memory.md R62): from any state, a step moves the window's origin by
exactly `cons_k` bytes when it makes the `consume` pulse, which it makes only as a parse succeeds, and otherwise leaves
the window as it is. That the transport drops them in the very step of the pulse is the model's choice of instant (log 5;
10_state.md R33 and 70_reset_and_hazards.md R278 ask only that it be before the next start). -/
def Obligations.WindowMovesOnlyByConsume : Prop :=
  ∀ s t : State, step s = .next t →
    (t.consValid = true ∧ t.kind = .ok ∧ t.ph = .idle ∧ t.consK = t.cons ∧ t.window = s.window.drop t.cons) ∨
    (t.consValid = false ∧ t.window = s.window)

/-- POS plays the program counter's part (10_state.md R24; 20_memory.md R61, R62): a step of a running transaction either
reads the byte at POS, below AVL, and adds 1 to POS, or is the CHK step or an exception and leaves POS as it is. -/
def Obligations.PosAdvancesByOne : Prop :=
  ∀ s t : State, Invariant s → s.ph ≠ .idle → s.rst = false → step s = .next t →
    (t.pos = s.pos + 1 ∧ s.pos < s.avl ∧ s.ph ≠ .chk) ∨
    (t.pos = s.pos ∧ (s.ph = .chk ∨ (t.ph = .idle ∧ t.kind = .insufficientData)))

/-- OUT is written only in a transaction that has passed every check (10_state.md R34, 20_memory.md R67): a step that writes
OUT is a PAY step or ends with KIND = OK; a PAY step writes one address, IDX; and from a state of the invariant without a
reset a PAY step never ends in an error: it goes on in PAY or ends the parse with KIND = OK. (A reset may abandon the
transaction between two PAY steps, 70_reset_and_hazards.md R272.) -/
def Obligations.OutWrittenOnlyOnSuccess : Prop :=
  ∀ s t : State, step s = .next t →
    (s.ph ≠ .pay → t.kind ≠ .ok → t.out = s.out) ∧
    (s.ph = .pay → ∀ a, a ≠ s.idx → Memory.read t.out a = Memory.read s.out a) ∧
    (s.ph = .pay → Invariant s → s.rst = false →
      (t.ph = .pay ∧ t.kind = .none ∧ t.cause = .none) ∨ (t.ph = .idle ∧ t.kind = .ok ∧ t.cause = .none))

/-- The legal values of STATUS (10_state.md R29, R31, R32): in a state of the invariant the byte reads one of these ten. -/
def Obligations.StatusIsLegal : Prop :=
  ∀ s : State, Invariant s →
    s.status ∈ [0x00#8, 0x06#8, 0x18#8, 0x28#8, 0x38#8, 0x4A#8, 0x5C#8, 0x6C#8, 0x01#8, 0x03#8]

/-- R31: the STATUS byte's bits. -/
def Obligations.StatusBits : Prop :=
  ∀ s : State,
    s.status.getLsbD 0 = s.busy ∧ s.status.getLsbD 1 = s.hdrOk ∧
    s.status.extractLsb' 2 2 = s.kind.code ∧ s.status.extractLsb' 4 3 = s.cause.code ∧ s.status.getLsbD 7 = false

/-- The classes of the sixteen opcodes (00_scope.md R15): `reserved`, `ctrl_range`, `known_ctrl` and `opclass`. -/
def Obligations.OpcodeClasses : Prop :=
  ∀ op : BitVec 4,
    (reserved op = true ↔ (3 ≤ op.toNat ∧ op.toNat ≤ 7) ∨ (11 ≤ op.toNat ∧ op.toNat ≤ 15)) ∧
    (ctrlRange op = true ↔ 8 ≤ op.toNat) ∧
    (knownCtrl op = true ↔ op.toNat = 8 ∨ op.toNat = 9 ∨ op.toNat = 10) ∧
    (opclass op = .reservedNonControl ↔ 3 ≤ op.toNat ∧ op.toNat ≤ 7) ∧
    (opclass op = .reservedControl ↔ 11 ≤ op.toNat) ∧
    opclass 0x0#4 = .continuation ∧ opclass 0x1#4 = .text ∧ opclass 0x2#4 = .binary ∧ opclass 0x8#4 = .close ∧
    opclass 0x9#4 = .ping ∧ opclass 0xA#4 = .pong

/-- The four classification properties as total functions of `fin` and the opcode (10_state.md R22), `isControlFrame` false for
0xB to 0xF, and the simplification of `isFragment` that R30 derives from them. -/
def Obligations.ClassificationOfEveryOpcode : Prop :=
  ∀ (fin : Bool) (op : BitVec 4),
    (isControlFrame op = true ↔ op = 8#4 ∨ op = 9#4 ∨ op = 10#4) ∧
    (isFragmentHeader fin op = true ↔ fin = false ∧ (op = 1#4 ∨ op = 2#4)) ∧
    (isFragmentFooter fin op = true ↔ fin = true ∧ op = 0#4) ∧
    (isFragment fin op = true ↔
      isFragmentHeader fin op = true ∨ isFragmentFooter fin op = true ∨ (op = 0#4 ∧ fin = false)) ∧
    (isFragment fin op = true ↔ op = 0#4 ∨ isFragmentHeader fin op = true) ∧
    (11#4 ≤ op → isControlFrame op = false)

/-! ## The two levels agree -/

/-- R221 for the transaction grain (log 1): from any state in IDLE with `start = 1`, the step ends in what `parse` gives for the
window. -/
def Obligations.TransactionAgreesWithParse : Prop :=
  ∀ s : State, ParseAsked s → s.grain = .transaction →
    ∃ t : State, step s = .next t ∧ AgreesWithParse s.window s t

/-- R221 and R215 for the byte-serial grain: after the number of steps R215 gives, the byte-serial machine is in the very
state the transaction grain reaches in one step, every register of a failed transaction included (log 1, 15). The count is
that of this one realisation (70_reset_and_hazards.md R280); no other statement rests on it. -/
def Obligations.SerialAgreesWithTransaction : Prop :=
  ∀ s : State, ParseAsked s → s.grain = .byteSerial →
    ∃ t : State, step { s with grain := .transaction } = .next t ∧
      runSteps (transactionSteps s.window) s = .next { t with grain := .byteSerial }

/-- Every transaction ends (43_message_parser.md R215): from any busy state of the invariant, without a reset, IDLE is
reached within `AVL + 16` steps, no step of which stops. -/
def Obligations.EveryTransactionEnds : Prop :=
  ∀ s : State, Invariant s → s.ph ≠ .idle → s.rst = false →
    ∃ (k : Nat) (t : State), k ≤ s.avl + 16 ∧ runSteps k s = .next t ∧ t.ph = .idle ∧ t.kind ≠ .none

/-- The result of a transaction is a function of the window alone (10_state.md R36, 43_message_parser.md R202, R221): two
states in IDLE that agree on the window, whatever their registers, OUT and decoder ports, end with every register, pulse
and window equal, and where the parse succeeds with the same pulse count and the same payload in OUT. -/
def Obligations.ResultDependsOnWindowOnly : Prop :=
  ∀ s s' t t' : State, ParseAsked s → ParseAsked s' → s.grain = .transaction → s'.grain = .transaction →
    s.window = s'.window → step s = .next t → step s' = .next t' →
    t' = { t with out := t'.out, consK := t'.consK, beIn := s'.beIn, beLen := s'.beLen, beWidth := s'.beWidth } ∧
    (t.kind = .ok → t'.consK = t.consK ∧ ∀ a < t.plen.toNat, Memory.read t'.out a = Memory.read t.out a)

/-- What the host reads after a transaction (10_state.md R21, R32): exactly the Message `parse` gives, or no Message; and a
Frame Header exactly when the header stage succeeded. -/
def Obligations.HostReadsTheMessage : Prop :=
  ∀ s t : State, ParseAsked s → s.grain = .transaction → step s = .next t →
    (∀ m c, parse s.window = .ok (m, c) → t.message? = some m) ∧
    (∀ k x, parse s.window = .err k x → t.message? = none) ∧
    (∀ h hlen, parseHeader s.window = .ok (h, hlen) → t.header? = some (h, hlen)) ∧
    (∀ k x, parseHeader s.window = .err k x → t.header? = none)

/-- The return from `InsufficientData` (60_exceptions.md R251, R243): the window is as it was; after the host appends
bytes, a new PARSE gives what `parse` gives for the longer window. -/
def Obligations.RetryAfterMoreBytes : Prop :=
  ∀ (s t : State) (more : List Byte), ParseAsked s → s.grain = .transaction → step s = .next t →
    t.kind = .insufficientData →
    ∃ u v : State, hostAppend more t = .next u ∧ step u = .next v ∧ AgreesWithParse (s.window ++ more) u v

/-! ## The function level -/

/-- Growth of the buffer (43_message_parser.md R217 (a), (b)): appended bytes change neither an `Ok` nor a
`ProtocolViolation`. -/
def Obligations.GrowthKeepsVerdict : Prop :=
  ∀ (B more : List Byte),
    (∀ r, parse B = .ok r → parse (B ++ more) = .ok r) ∧
    (∀ x, parse B = .err .protocolViolation x → parse (B ++ more) = .err .protocolViolation x)

/-- R217 (d): every proper prefix of a frame that parses gives `InsufficientData`. -/
def Obligations.ProperPrefixIsInsufficient : Prop :=
  ∀ (B : List Byte) (m : Message) (c : Nat), parse B = .ok (m, c) →
    ∀ k < c, ∃ x, parse (B.take k) = .err .insufficientData x

/-- What a Message satisfies (10_state.md R20, R21, R23 (a); 41_header_parser.md R148, R149): the payload has the declared
length, the count is header plus payload and within the buffer, a key is there exactly when the frame is masked, an opcode
of 8 or more declares at most 125 bytes, and a reserved opcode has `fin = 1`. -/
def Obligations.MessageIsWellFormed : Prop :=
  ∀ (B : List Byte) (m : Message) (c : Nat), parse B = .ok (m, c) →
    m.payload.length = m.header.payloadLength.toNat ∧ c ≤ B.length ∧
    (∃ hlen ∈ [2, 4, 6, 8, 10, 14], c = hlen + m.payload.length) ∧
    (m.header.maskingKey.isSome = true ↔ m.header.isMasked = true) ∧
    (8#4 ≤ m.header.opCode → m.header.payloadLength ≤ 125#64) ∧
    (reserved m.header.opCode = true → m.header.fin = true)

/-- The transform is its own inverse, preserves length, is the identity with a zero key, and two keys compose to their XOR
(42_payload_extractor.md R165, which marks the last as its own inference). -/
def Obligations.XorkeyInvolution : Prop :=
  ∀ (S : List Byte) (k l : Key),
    xorkey (xorkey S k) k = S ∧ (xorkey S k).length = S.length ∧ xorkey S Key.zero = S ∧
    xorkey (xorkey S k) l = xorkey S ⟨k.k0 ^^^ l.k0, k.k1 ^^^ l.k1, k.k2 ^^^ l.k2, k.k3 ^^^ l.k3⟩

/-- Locality (42_payload_extractor.md R162, R166): output byte `i` is input byte `i` XOR the key byte `i mod 4`, and nothing
else; four bytes on, the same key byte is used again. -/
def Obligations.UnmaskIsLocal : Prop :=
  ∀ (S : List Byte) (k : Key) (i : Nat),
    (xorkey S k)[i]? = (S[i]?).map (fun b => b ^^^ (k.toList.getD (i % 4) 0#8))

/-- Priority (43_message_parser.md R201, 60_exceptions.md R249): every error of the header stage is reported in preference
to a missing payload, and a payload error only follows a header that is complete and breaks no rule. -/
def Obligations.HeaderErrorsComeFirst : Prop :=
  ∀ (B : List Byte),
    (∀ k x, parseHeader B = .err k x → parse B = .err k x) ∧
    (∀ k, parse B = .err k .payload → k = .insufficientData ∧
      ∃ h hlen, parseHeader B = .ok (h, hlen) ∧ hlen ≤ B.length ∧ B.length - hlen < h.payloadLength.toNat) ∧
    (∀ k, parse B = .err k .rsvNoFin → ∃ i op f, decode (.frame B) = .instr i ∧ i.frame? = some (op, f) ∧
      ¬ (8 ≤ op.toNat ∧ 125 < f.plen.toNat) ∧ reserved op = true ∧ f.fin = false)

/-- A frame larger than the window can present is never parsed (00_scope.md R10, 70_reset_and_hazards.md R276): whatever
IN_CAP is, under the host's duty `avail <= IN_CAP` a frame that breaks no rule and whose header plus payload exceed IN_CAP
ends in `InsufficientData` with cause PAYLOAD on every attempt, its true length in PLEN. -/
def Obligations.FrameBeyondCapacityNeverParses : Prop :=
  ∀ (inCap : Nat) (s : State) (i : Instr) (op : BitVec 4) (f : FrameOps), ParseAsked s → s.grain = .transaction →
    s.avail ≤ inCap → decode (.frame s.window) = .instr i → i.frame? = some (op, f) →
    inCap < f.hlen + f.plen.toNat → (8 ≤ op.toNat → f.plen.toNat ≤ 125) → (reserved op = true → f.fin = true) →
    ∃ t : State, step s = .next t ∧ t.kind = .insufficientData ∧ t.cause = .payload ∧ t.hdrOk = true ∧
      t.plen = f.plen ∧ t.window = s.window

/-! ## The CHK step -/

/-- The CHK step (43_message_parser.md R210, with the endings R211 and R212): HLEN takes the low four bits of POS, and then
one of five endings, in this order: CTRL_LEN for an opcode of 8 or more with PLEN above 125; RSV_NOFIN for a reserved opcode
with FIN = 0; and with HDR_OK = 1 the exception PAYLOAD where fewer than PLEN bytes are left, `finish(POS)` on PLEN = 0,
and otherwise PAY with IDX = 0. Nothing else changes. `POS <= AVL` is the premise R210 takes from R216; that the window loses
its bytes in the step of the pulse is the instant log 5 chooses. -/
def Obligations.ChkStep : Prop :=
  ∀ s c : State, s.ph = .chk → s.rst = false → s.pos ≤ s.avl →
    c = { s with hlen := BitVec.ofNat 4 s.pos, consValid := false } →
    (8 ≤ s.opc.toNat → 125 < s.plen.toNat →
      step s = .next { c with kind := .protocolViolation, cause := .ctrlLen, ph := .idle }) ∧
    (¬ (8 ≤ s.opc.toNat ∧ 125 < s.plen.toNat) → reserved s.opc = true → s.fin = false →
      step s = .next { c with kind := .protocolViolation, cause := .rsvNoFin, ph := .idle }) ∧
    (¬ (8 ≤ s.opc.toNat ∧ 125 < s.plen.toNat) → ¬ (reserved s.opc = true ∧ s.fin = false) →
      (s.avl < s.pos + s.plen.toNat →
        step s = .next { c with hdrOk := true, kind := .insufficientData, cause := .payload, ph := .idle }) ∧
      (s.plen.toNat = 0 →
        step s = .next { c with hdrOk := true, kind := .ok, cause := .none, cons := s.pos, ph := .idle,
                                consValid := true, consK := s.pos, window := s.window.drop s.pos }) ∧
      (0 < s.plen.toNat → s.pos + s.plen.toNat ≤ s.avl →
        step s = .next { c with hdrOk := true, idx := 0, ph := .pay }))
end

