-- ==== Sys2Proof/Laws/Bytes.lean ====
section
/-! SUPPORT. Byte sequences, unmasking and big-endian values: one lemma per shared function. -/

namespace Sys2Proof

@[simp] theorem beValue_nil : beValue [] = 0 := rfl

theorem foldl_be (bs : List Byte) (v : Nat) :
    bs.foldl (fun v b => 256 * v + b.toNat) v = v * 256 ^ bs.length + beValue bs := by
  induction bs generalizing v with
  | nil => simp
  | cons b bs ih =>
    unfold beValue
    simp only [List.foldl_cons, List.length_cons, ih]
    ring

theorem beValue_cons (b : Byte) (bs : List Byte) :
    beValue (b :: bs) = b.toNat * 256 ^ bs.length + beValue bs := by
  have h := foldl_be bs (256 * 0 + b.toNat)
  unfold beValue
  simpa [beValue] using h

/-- The shift-in form (40_be_decoder.md R135 (c)). -/
theorem beValue_append (bs : List Byte) (b : Byte) : beValue (bs ++ [b]) = 256 * beValue bs + b.toNat := by
  unfold beValue
  simp

/-- The range (40_be_decoder.md R135 (a)). -/
theorem beValue_lt (bs : List Byte) : beValue bs < 256 ^ bs.length := by
  induction bs with
  | nil => simp
  | cons b bs ih =>
    rw [beValue_cons, List.length_cons, pow_succ]
    have := b.isLt
    nlinarith [Nat.two_pow_pos bs.length, Nat.pow_pos (n := bs.length) (show 0 < 256 by norm_num)]

@[simp] theorem extBytes_le (L : BitVec 7) : extBytes L ≤ 8 := by unfold extBytes; split <;> [omega; (split <;> omega)]

/-- `ext` is 0, 2 or 8, by the value of `L` (30_encoding.md R94). -/
theorem extBytes_cases (L : BitVec 7) :
    (L ≤ 125#7 ∧ extBytes L = 0) ∨ (L = 126#7 ∧ extBytes L = 2) ∨ (L = 127#7 ∧ extBytes L = 8) := by
  revert L; decide

theorem LenForm.bytes_length (l : LenForm) : l.bytes.length = l.ext := by cases l <;> rfl

@[simp] theorem Key.toList_length (k : Key) : k.toList.length = 4 := rfl

/-- The encoded header is as long as R148 says. -/
theorem FrameOps.header_length (op : BitVec 4) (f : FrameOps) : (f.header op).length = f.hlen := by
  unfold FrameOps.header FrameOps.hlen FrameOps.masked
  cases hk : f.key <;> simp [LenForm.bytes_length] <;> omega

/-- The six header lengths (R148). -/
theorem FrameOps.hlen_mem (f : FrameOps) : f.hlen ∈ [2, 4, 6, 8, 10, 14] := by
  unfold FrameOps.hlen
  cases f.len <;> cases f.masked <;> simp [LenForm.ext]

theorem sliceOf_length (B : List Byte) (a b : Nat) : (sliceOf B a b).length = min b B.length - a := by
  simp [sliceOf]

theorem byteAt_getElem? {B : List Byte} {i : Nat} (h : i < B.length) : B[i]? = some (byteAt B i) := by
  simp [byteAt, h]

theorem byteAt_append_left {B E : List Byte} {i : Nat} (h : i < B.length) : byteAt (B ++ E) i = byteAt B i := by
  simp [byteAt, List.getElem?_append_left h]

/-- A slice grows at its upper end by one byte. -/
theorem sliceOf_succ {B : List Byte} {a b : Nat} (hab : a ≤ b) (h : b < B.length) :
    sliceOf B a (b + 1) = sliceOf B a b ++ [byteAt B b] := by
  unfold sliceOf
  have e : B.take (b + 1) = B.take b ++ [byteAt B b] := by
    rw [List.take_succ_eq_append_getElem h]
    simp [byteAt, h]
  rw [e, List.drop_append_of_le_length (by simp; omega)]

namespace Machine

@[simp] theorem xorkeyFrom_length (k : Key) (i : Nat) (S : List Byte) : (xorkeyFrom k i S).length = S.length := by
  induction S generalizing i with
  | nil => rfl
  | cons b S ih => simp [xorkeyFrom, ih]

/-- Byte `j` of the transform (42_payload_extractor.md R162, R166). -/
theorem xorkeyFrom_getElem? (k : Key) (i j : Nat) (S : List Byte) :
    (xorkeyFrom k i S)[j]? = (S[j]?).map (fun b => b ^^^ k.get (i + j)) := by
  induction S generalizing i j with
  | nil => simp [xorkeyFrom]
  | cons b S ih =>
    cases j with
    | zero => simp [xorkeyFrom]
    | succ j =>
      simp only [xorkeyFrom, List.getElem?_cons_succ, ih]
      congr 2
      funext b
      congr 2
      omega

@[simp] theorem unmask_length (msk : Bool) (k : Key) (S : List Byte) : (unmask msk k S).length = S.length := by
  cases msk <;> simp [unmask, xorkey]

theorem unmask_getElem? (msk : Bool) (k : Key) (S : List Byte) (j : Nat) :
    (unmask msk k S)[j]? = (S[j]?).map (unmaskByte msk k j) := by
  cases msk
  · have : unmaskByte false k j = id := rfl
    simp [unmask, this]
  · have : unmaskByte true k j = fun b => b ^^^ k.get j := rfl
    simp [unmask, xorkey, xorkeyFrom_getElem?, this]

end Machine
end Sys2Proof
end

