-- ==== Sys2Proof/Laws/Encoding.lean ====
section
/-! SUPPORT. Encoder and decoder: the fields of the two fixed bytes, the length forms, the sixteen frames seen as one
opcode with operands. -/

namespace Sys2Proof

/-! ## The sixteen frames as opcode and operands -/

@[simp] theorem frameOf_frame? (op : BitVec 4) (f : FrameOps) : (frameOf op f).frame? = some (op, f) := by
  have h : ∀ o : Fin 16, (frameOf (BitVec.ofFin o) f).frame? = some (BitVec.ofFin o, f) := by
    intro o
    fin_cases o <;> rfl
  exact h op.toFin

/-- An instruction is determined by its opcode and operands. -/
theorem frame?_eq_some {i : Instr} {op : BitVec 4} {f : FrameOps} : i.frame? = some (op, f) ↔ i = frameOf op f := by
  constructor
  · intro h
    cases i <;> simp only [Instr.frame?, Option.some.injEq, Prod.mk.injEq, reduceCtorEq] at h <;>
      obtain ⟨rfl, rfl⟩ := h <;> rfl
  · rintro rfl
    exact frameOf_frame? op f

theorem encode_of_frame? {i : Instr} {op : BitVec 4} {f : FrameOps} (h : i.frame? = some (op, f)) :
    encode i = .frame (f.header op) := by
  cases i <;> simp only [Instr.frame?, Option.some.injEq, Prod.mk.injEq, reduceCtorEq] at h <;>
    obtain ⟨rfl, rfl⟩ := h <;> rfl

theorem wf_of_frame? {i : Instr} {op : BitVec 4} {f : FrameOps} (h : i.frame? = some (op, f)) : i.wf = f.wf := by
  cases i <;> simp only [Instr.frame?, Option.some.injEq, Prod.mk.injEq, reduceCtorEq] at h <;>
    obtain ⟨rfl, rfl⟩ := h <;> rfl

/-- Every frame's meaning is the shared transaction with its opcode. -/
theorem Machine.exec_of_frame? {i : Instr} {op : BitVec 4} {f : FrameOps} (h : i.frame? = some (op, f))
    (s : Machine.State) : Machine.exec i s = Machine.parseFrame op f s := by
  cases i <;> simp only [Instr.frame?, Option.some.injEq, Prod.mk.injEq, reduceCtorEq] at h <;>
    obtain ⟨rfl, rfl⟩ := h <;> rfl

/-! ## The two fixed bytes -/

theorem byte0_fields (op : BitVec 4) (f : FrameOps) :
    finOf (f.byte0 op) = f.fin ∧ rsv1Of (f.byte0 op) = f.rsv1 ∧ rsv2Of (f.byte0 op) = f.rsv2 ∧
      rsv3Of (f.byte0 op) = f.rsv3 ∧ opcodeOf (f.byte0 op) = op := by
  obtain ⟨fin, r1, r2, r3, len, key⟩ := f
  have : ∀ (a b c d : Bool) (o : BitVec 4),
      finOf (BitVec.ofBool a ++ BitVec.ofBool b ++ BitVec.ofBool c ++ BitVec.ofBool d ++ o) = a ∧
      rsv1Of (BitVec.ofBool a ++ BitVec.ofBool b ++ BitVec.ofBool c ++ BitVec.ofBool d ++ o) = b ∧
      rsv2Of (BitVec.ofBool a ++ BitVec.ofBool b ++ BitVec.ofBool c ++ BitVec.ofBool d ++ o) = c ∧
      rsv3Of (BitVec.ofBool a ++ BitVec.ofBool b ++ BitVec.ofBool c ++ BitVec.ofBool d ++ o) = d ∧
      opcodeOf (BitVec.ofBool a ++ BitVec.ofBool b ++ BitVec.ofBool c ++ BitVec.ofBool d ++ o) = o := by decide
  exact this fin r1 r2 r3 op

theorem byte1_fields (f : FrameOps) : maskOf f.byte1 = f.masked ∧ lenOf f.byte1 = f.len.field := by
  have : ∀ (m : Bool) (L : BitVec 7), maskOf (BitVec.ofBool m ++ L) = m ∧ lenOf (BitVec.ofBool m ++ L) = L := by decide
  exact this f.masked f.len.field

/-- The bytes that a two-byte word spells are put back by the encoder's two bytes. -/
theorem byte0_ofFields (b : Byte) (len : LenForm) (key : Option Key) :
    FrameOps.byte0 (opcodeOf b) ⟨finOf b, rsv1Of b, rsv2Of b, rsv3Of b, len, key⟩ = b := by
  have : ∀ b : Byte, (BitVec.ofBool (finOf b) ++ BitVec.ofBool (rsv1Of b) ++ BitVec.ofBool (rsv2Of b) ++
      BitVec.ofBool (rsv3Of b) ++ opcodeOf b : BitVec 8) = b := by decide
  exact this b

theorem byte1_ofFields (b : Byte) : (BitVec.ofBool (maskOf b) ++ lenOf b : BitVec 8) = b := by
  revert b; decide

/-! ## The length forms -/

theorem LenForm.ext_field {l : LenForm} (h : l.wf = true) : extBytes l.field = l.ext := by
  cases l with
  | short n =>
    have hn : n ≤ 125#7 := by simpa [LenForm.wf] using h
    rcases extBytes_cases n with h1 | h1 | h1
    · exact h1.2
    · rw [h1.1] at hn; exact absurd hn (by decide)
    · rw [h1.1] at hn; exact absurd hn (by decide)
  | ext16 v => rfl
  | ext64 v => rfl

theorem LenForm.ofBytes_bytes {l : LenForm} (h : l.wf = true) : LenForm.ofBytes l.field l.bytes = l := by
  cases l with
  | short n =>
    have hn : n ≤ 125#7 := by simpa [LenForm.wf] using h
    have h1 : n ≠ 126#7 := by rintro rfl; exact absurd hn (by decide)
    have h2 : n ≠ 127#7 := by rintro rfl; exact absurd hn (by decide)
    simp [LenForm.ofBytes, LenForm.field, h1, h2]
  | ext16 v =>
    simp only [LenForm.ofBytes, LenForm.field, LenForm.bytes, if_true, LenForm.ext16.injEq]
    apply BitVec.eq_of_toNat_eq
    have := v.isLt
    simp [beValue, Nat.shiftRight_eq_div_pow]
    omega
  | ext64 v =>
    have h1 : (127#7 : BitVec 7) ≠ 126#7 := by decide
    simp only [LenForm.ofBytes, LenForm.field, LenForm.bytes, h1, if_false, if_true, LenForm.ext64.injEq]
    apply BitVec.eq_of_toNat_eq
    have := v.isLt
    simp [beValue, Nat.shiftRight_eq_div_pow]
    omega

/-- Two and eight bytes are put back by the form they spell. -/
theorem LenForm.bytes_ofBytes (L : BitVec 7) (e : List Byte) (h : e.length = extBytes L) :
    (LenForm.ofBytes L e).bytes = e ∧ (LenForm.ofBytes L e).field = L ∧ (LenForm.ofBytes L e).wf = true := by
  rcases extBytes_cases L with ⟨hL, hx⟩ | ⟨hL, hx⟩ | ⟨hL, hx⟩
  · have h1 : L ≠ 126#7 := by rintro rfl; exact absurd hL (by decide)
    have h2 : L ≠ 127#7 := by rintro rfl; exact absurd hL (by decide)
    rw [hx] at h
    have he : e = [] := List.length_eq_zero_iff.1 h
    simp [LenForm.ofBytes, h1, h2, LenForm.bytes, LenForm.field, LenForm.wf, he, hL]
  · rw [hx] at h
    subst hL
    match e, h with
    | [a, b], _ =>
      have ha := a.isLt
      have hb := b.isLt
      refine ⟨?_, rfl, rfl⟩
      simp only [LenForm.ofBytes, if_true, LenForm.bytes, List.cons.injEq, and_true]
      refine ⟨?_, ?_⟩ <;> apply BitVec.eq_of_toNat_eq <;>
        simp [beValue, Nat.shiftRight_eq_div_pow] <;> omega
  · rw [hx] at h
    subst hL
    have h1 : (127#7 : BitVec 7) ≠ 126#7 := by decide
    match e, h with
    | [a, b, c, d, p, q, r, t], _ =>
      have ha := a.isLt
      have hb := b.isLt
      have hc := c.isLt
      have hd := d.isLt
      have hp := p.isLt
      have hq := q.isLt
      have hr := r.isLt
      have ht := t.isLt
      refine ⟨?_, by simp [LenForm.ofBytes, h1, LenForm.field], by simp [LenForm.ofBytes, h1, LenForm.wf]⟩
      simp only [LenForm.ofBytes, h1, if_false, if_true, LenForm.bytes, List.cons.injEq, and_true]
      refine ⟨?_, ?_, ?_, ?_, ?_, ?_, ?_, ?_⟩ <;> apply BitVec.eq_of_toNat_eq <;>
        simp [beValue, Nat.shiftRight_eq_div_pow] <;> omega

end Sys2Proof
end

