-- ==== Sys2Proof/Laws/State.lean ====
section
/-! SUPPORT. One lemma per field per update of State: what each named operation leaves in each field, true by rfl. -/

namespace Sys2Proof.Machine

/-! ## startStep -/

@[simp] theorem startStep_ph (s : State) : (startStep s).ph = .b0 := rfl
@[simp] theorem startStep_avl (s : State) : (startStep s).avl = s.window.length := rfl
@[simp] theorem startStep_pos (s : State) : (startStep s).pos = 0 := rfl
@[simp] theorem startStep_fin (s : State) : (startStep s).fin = false := rfl
@[simp] theorem startStep_rsv1 (s : State) : (startStep s).rsv1 = false := rfl
@[simp] theorem startStep_rsv2 (s : State) : (startStep s).rsv2 = false := rfl
@[simp] theorem startStep_rsv3 (s : State) : (startStep s).rsv3 = false := rfl
@[simp] theorem startStep_opc (s : State) : (startStep s).opc = 0#4 := rfl
@[simp] theorem startStep_msk (s : State) : (startStep s).msk = false := rfl
@[simp] theorem startStep_l7 (s : State) : (startStep s).l7 = 0#7 := rfl
@[simp] theorem startStep_extn (s : State) : (startStep s).extn = 0#4 := rfl
@[simp] theorem startStep_plen (s : State) : (startStep s).plen = 0#64 := rfl
@[simp] theorem startStep_key (s : State) : (startStep s).key = Key.zero := rfl
@[simp] theorem startStep_kcnt (s : State) : (startStep s).kcnt = 0#3 := rfl
@[simp] theorem startStep_hlen (s : State) : (startStep s).hlen = 0#4 := rfl
@[simp] theorem startStep_idx (s : State) : (startStep s).idx = 0 := rfl
@[simp] theorem startStep_hdrOk (s : State) : (startStep s).hdrOk = false := rfl
@[simp] theorem startStep_kind (s : State) : (startStep s).kind = .none := rfl
@[simp] theorem startStep_cause (s : State) : (startStep s).cause = .none := rfl
@[simp] theorem startStep_cons (s : State) : (startStep s).cons = 0 := rfl
@[simp] theorem startStep_out (s : State) : (startStep s).out = s.out := rfl
@[simp] theorem startStep_consValid (s : State) : (startStep s).consValid = false := rfl
@[simp] theorem startStep_consK (s : State) : (startStep s).consK = s.consK := rfl
@[simp] theorem startStep_rst (s : State) : (startStep s).rst = s.rst := rfl
@[simp] theorem startStep_start (s : State) : (startStep s).start = s.start := rfl
@[simp] theorem startStep_window (s : State) : (startStep s).window = s.window := rfl
@[simp] theorem startStep_beIn (s : State) : (startStep s).beIn = s.beIn := rfl
@[simp] theorem startStep_beLen (s : State) : (startStep s).beLen = s.beLen := rfl
@[simp] theorem startStep_beWidth (s : State) : (startStep s).beWidth = s.beWidth := rfl
@[simp] theorem startStep_grain (s : State) : (startStep s).grain = s.grain := rfl

/-! ## resetStep -/

@[simp] theorem resetStep_ph (s : State) : (resetStep s).ph = .idle := rfl
@[simp] theorem resetStep_avl (s : State) : (resetStep s).avl = 0 := rfl
@[simp] theorem resetStep_pos (s : State) : (resetStep s).pos = 0 := rfl
@[simp] theorem resetStep_fin (s : State) : (resetStep s).fin = false := rfl
@[simp] theorem resetStep_rsv1 (s : State) : (resetStep s).rsv1 = false := rfl
@[simp] theorem resetStep_rsv2 (s : State) : (resetStep s).rsv2 = false := rfl
@[simp] theorem resetStep_rsv3 (s : State) : (resetStep s).rsv3 = false := rfl
@[simp] theorem resetStep_opc (s : State) : (resetStep s).opc = 0#4 := rfl
@[simp] theorem resetStep_msk (s : State) : (resetStep s).msk = false := rfl
@[simp] theorem resetStep_l7 (s : State) : (resetStep s).l7 = 0#7 := rfl
@[simp] theorem resetStep_extn (s : State) : (resetStep s).extn = 0#4 := rfl
@[simp] theorem resetStep_plen (s : State) : (resetStep s).plen = 0#64 := rfl
@[simp] theorem resetStep_key (s : State) : (resetStep s).key = Key.zero := rfl
@[simp] theorem resetStep_kcnt (s : State) : (resetStep s).kcnt = 0#3 := rfl
@[simp] theorem resetStep_hlen (s : State) : (resetStep s).hlen = 0#4 := rfl
@[simp] theorem resetStep_idx (s : State) : (resetStep s).idx = 0 := rfl
@[simp] theorem resetStep_hdrOk (s : State) : (resetStep s).hdrOk = false := rfl
@[simp] theorem resetStep_kind (s : State) : (resetStep s).kind = .none := rfl
@[simp] theorem resetStep_cause (s : State) : (resetStep s).cause = .none := rfl
@[simp] theorem resetStep_cons (s : State) : (resetStep s).cons = 0 := rfl
@[simp] theorem resetStep_out (s : State) : (resetStep s).out = s.out := rfl
@[simp] theorem resetStep_consValid (s : State) : (resetStep s).consValid = false := rfl
@[simp] theorem resetStep_consK (s : State) : (resetStep s).consK = s.consK := rfl
@[simp] theorem resetStep_rst (s : State) : (resetStep s).rst = s.rst := rfl
@[simp] theorem resetStep_start (s : State) : (resetStep s).start = s.start := rfl
@[simp] theorem resetStep_window (s : State) : (resetStep s).window = s.window := rfl
@[simp] theorem resetStep_beIn (s : State) : (resetStep s).beIn = s.beIn := rfl
@[simp] theorem resetStep_beLen (s : State) : (resetStep s).beLen = s.beLen := rfl
@[simp] theorem resetStep_beWidth (s : State) : (resetStep s).beWidth = s.beWidth := rfl
@[simp] theorem resetStep_grain (s : State) : (resetStep s).grain = s.grain := rfl

/-! ## fail -/

@[simp] theorem fail_ph (k : Kind) (c : Cause) (s : State) : (fail k c s).ph = .idle := rfl
@[simp] theorem fail_avl (k : Kind) (c : Cause) (s : State) : (fail k c s).avl = s.avl := rfl
@[simp] theorem fail_pos (k : Kind) (c : Cause) (s : State) : (fail k c s).pos = s.pos := rfl
@[simp] theorem fail_fin (k : Kind) (c : Cause) (s : State) : (fail k c s).fin = s.fin := rfl
@[simp] theorem fail_rsv1 (k : Kind) (c : Cause) (s : State) : (fail k c s).rsv1 = s.rsv1 := rfl
@[simp] theorem fail_rsv2 (k : Kind) (c : Cause) (s : State) : (fail k c s).rsv2 = s.rsv2 := rfl
@[simp] theorem fail_rsv3 (k : Kind) (c : Cause) (s : State) : (fail k c s).rsv3 = s.rsv3 := rfl
@[simp] theorem fail_opc (k : Kind) (c : Cause) (s : State) : (fail k c s).opc = s.opc := rfl
@[simp] theorem fail_msk (k : Kind) (c : Cause) (s : State) : (fail k c s).msk = s.msk := rfl
@[simp] theorem fail_l7 (k : Kind) (c : Cause) (s : State) : (fail k c s).l7 = s.l7 := rfl
@[simp] theorem fail_extn (k : Kind) (c : Cause) (s : State) : (fail k c s).extn = s.extn := rfl
@[simp] theorem fail_plen (k : Kind) (c : Cause) (s : State) : (fail k c s).plen = s.plen := rfl
@[simp] theorem fail_key (k : Kind) (c : Cause) (s : State) : (fail k c s).key = s.key := rfl
@[simp] theorem fail_kcnt (k : Kind) (c : Cause) (s : State) : (fail k c s).kcnt = s.kcnt := rfl
@[simp] theorem fail_hlen (k : Kind) (c : Cause) (s : State) : (fail k c s).hlen = s.hlen := rfl
@[simp] theorem fail_idx (k : Kind) (c : Cause) (s : State) : (fail k c s).idx = s.idx := rfl
@[simp] theorem fail_hdrOk (k : Kind) (c : Cause) (s : State) : (fail k c s).hdrOk = s.hdrOk := rfl
@[simp] theorem fail_kind (k : Kind) (c : Cause) (s : State) : (fail k c s).kind = k := rfl
@[simp] theorem fail_cause (k : Kind) (c : Cause) (s : State) : (fail k c s).cause = c := rfl
@[simp] theorem fail_cons (k : Kind) (c : Cause) (s : State) : (fail k c s).cons = s.cons := rfl
@[simp] theorem fail_out (k : Kind) (c : Cause) (s : State) : (fail k c s).out = s.out := rfl
@[simp] theorem fail_consValid (k : Kind) (c : Cause) (s : State) : (fail k c s).consValid = s.consValid := rfl
@[simp] theorem fail_consK (k : Kind) (c : Cause) (s : State) : (fail k c s).consK = s.consK := rfl
@[simp] theorem fail_rst (k : Kind) (c : Cause) (s : State) : (fail k c s).rst = s.rst := rfl
@[simp] theorem fail_start (k : Kind) (c : Cause) (s : State) : (fail k c s).start = s.start := rfl
@[simp] theorem fail_window (k : Kind) (c : Cause) (s : State) : (fail k c s).window = s.window := rfl
@[simp] theorem fail_beIn (k : Kind) (c : Cause) (s : State) : (fail k c s).beIn = s.beIn := rfl
@[simp] theorem fail_beLen (k : Kind) (c : Cause) (s : State) : (fail k c s).beLen = s.beLen := rfl
@[simp] theorem fail_beWidth (k : Kind) (c : Cause) (s : State) : (fail k c s).beWidth = s.beWidth := rfl
@[simp] theorem fail_grain (k : Kind) (c : Cause) (s : State) : (fail k c s).grain = s.grain := rfl

/-! ## finish -/

@[simp] theorem finish_ph (n : Nat) (s : State) : (finish n s).ph = .idle := rfl
@[simp] theorem finish_avl (n : Nat) (s : State) : (finish n s).avl = s.avl := rfl
@[simp] theorem finish_pos (n : Nat) (s : State) : (finish n s).pos = s.pos := rfl
@[simp] theorem finish_fin (n : Nat) (s : State) : (finish n s).fin = s.fin := rfl
@[simp] theorem finish_rsv1 (n : Nat) (s : State) : (finish n s).rsv1 = s.rsv1 := rfl
@[simp] theorem finish_rsv2 (n : Nat) (s : State) : (finish n s).rsv2 = s.rsv2 := rfl
@[simp] theorem finish_rsv3 (n : Nat) (s : State) : (finish n s).rsv3 = s.rsv3 := rfl
@[simp] theorem finish_opc (n : Nat) (s : State) : (finish n s).opc = s.opc := rfl
@[simp] theorem finish_msk (n : Nat) (s : State) : (finish n s).msk = s.msk := rfl
@[simp] theorem finish_l7 (n : Nat) (s : State) : (finish n s).l7 = s.l7 := rfl
@[simp] theorem finish_extn (n : Nat) (s : State) : (finish n s).extn = s.extn := rfl
@[simp] theorem finish_plen (n : Nat) (s : State) : (finish n s).plen = s.plen := rfl
@[simp] theorem finish_key (n : Nat) (s : State) : (finish n s).key = s.key := rfl
@[simp] theorem finish_kcnt (n : Nat) (s : State) : (finish n s).kcnt = s.kcnt := rfl
@[simp] theorem finish_hlen (n : Nat) (s : State) : (finish n s).hlen = s.hlen := rfl
@[simp] theorem finish_idx (n : Nat) (s : State) : (finish n s).idx = s.idx := rfl
@[simp] theorem finish_hdrOk (n : Nat) (s : State) : (finish n s).hdrOk = s.hdrOk := rfl
@[simp] theorem finish_kind (n : Nat) (s : State) : (finish n s).kind = .ok := rfl
@[simp] theorem finish_cause (n : Nat) (s : State) : (finish n s).cause = .none := rfl
@[simp] theorem finish_cons (n : Nat) (s : State) : (finish n s).cons = n := rfl
@[simp] theorem finish_out (n : Nat) (s : State) : (finish n s).out = s.out := rfl
@[simp] theorem finish_consValid (n : Nat) (s : State) : (finish n s).consValid = true := rfl
@[simp] theorem finish_consK (n : Nat) (s : State) : (finish n s).consK = n := rfl
@[simp] theorem finish_rst (n : Nat) (s : State) : (finish n s).rst = s.rst := rfl
@[simp] theorem finish_start (n : Nat) (s : State) : (finish n s).start = s.start := rfl
@[simp] theorem finish_window (n : Nat) (s : State) : (finish n s).window = s.window := rfl
@[simp] theorem finish_beIn (n : Nat) (s : State) : (finish n s).beIn = s.beIn := rfl
@[simp] theorem finish_beLen (n : Nat) (s : State) : (finish n s).beLen = s.beLen := rfl
@[simp] theorem finish_beWidth (n : Nat) (s : State) : (finish n s).beWidth = s.beWidth := rfl
@[simp] theorem finish_grain (n : Nat) (s : State) : (finish n s).grain = s.grain := rfl

/-! ## quiet -/

@[simp] theorem quiet_ph (s : State) : (quiet s).ph = s.ph := rfl
@[simp] theorem quiet_avl (s : State) : (quiet s).avl = s.avl := rfl
@[simp] theorem quiet_pos (s : State) : (quiet s).pos = s.pos := rfl
@[simp] theorem quiet_fin (s : State) : (quiet s).fin = s.fin := rfl
@[simp] theorem quiet_rsv1 (s : State) : (quiet s).rsv1 = s.rsv1 := rfl
@[simp] theorem quiet_rsv2 (s : State) : (quiet s).rsv2 = s.rsv2 := rfl
@[simp] theorem quiet_rsv3 (s : State) : (quiet s).rsv3 = s.rsv3 := rfl
@[simp] theorem quiet_opc (s : State) : (quiet s).opc = s.opc := rfl
@[simp] theorem quiet_msk (s : State) : (quiet s).msk = s.msk := rfl
@[simp] theorem quiet_l7 (s : State) : (quiet s).l7 = s.l7 := rfl
@[simp] theorem quiet_extn (s : State) : (quiet s).extn = s.extn := rfl
@[simp] theorem quiet_plen (s : State) : (quiet s).plen = s.plen := rfl
@[simp] theorem quiet_key (s : State) : (quiet s).key = s.key := rfl
@[simp] theorem quiet_kcnt (s : State) : (quiet s).kcnt = s.kcnt := rfl
@[simp] theorem quiet_hlen (s : State) : (quiet s).hlen = s.hlen := rfl
@[simp] theorem quiet_idx (s : State) : (quiet s).idx = s.idx := rfl
@[simp] theorem quiet_hdrOk (s : State) : (quiet s).hdrOk = s.hdrOk := rfl
@[simp] theorem quiet_kind (s : State) : (quiet s).kind = s.kind := rfl
@[simp] theorem quiet_cause (s : State) : (quiet s).cause = s.cause := rfl
@[simp] theorem quiet_cons (s : State) : (quiet s).cons = s.cons := rfl
@[simp] theorem quiet_out (s : State) : (quiet s).out = s.out := rfl
@[simp] theorem quiet_consValid (s : State) : (quiet s).consValid = false := rfl
@[simp] theorem quiet_consK (s : State) : (quiet s).consK = s.consK := rfl
@[simp] theorem quiet_rst (s : State) : (quiet s).rst = s.rst := rfl
@[simp] theorem quiet_start (s : State) : (quiet s).start = s.start := rfl
@[simp] theorem quiet_window (s : State) : (quiet s).window = s.window := rfl
@[simp] theorem quiet_beIn (s : State) : (quiet s).beIn = s.beIn := rfl
@[simp] theorem quiet_beLen (s : State) : (quiet s).beLen = s.beLen := rfl
@[simp] theorem quiet_beWidth (s : State) : (quiet s).beWidth = s.beWidth := rfl
@[simp] theorem quiet_grain (s : State) : (quiet s).grain = s.grain := rfl

/-! ## loadHeader -/

@[simp] theorem loadHeader_ph (op : BitVec 4) (f : FrameOps) (s : State) : (loadHeader op f s).ph = .chk := rfl
@[simp] theorem loadHeader_avl (op : BitVec 4) (f : FrameOps) (s : State) : (loadHeader op f s).avl = s.avl := rfl
@[simp] theorem loadHeader_pos (op : BitVec 4) (f : FrameOps) (s : State) : (loadHeader op f s).pos = f.hlen := rfl
@[simp] theorem loadHeader_fin (op : BitVec 4) (f : FrameOps) (s : State) : (loadHeader op f s).fin = f.fin := rfl
@[simp] theorem loadHeader_rsv1 (op : BitVec 4) (f : FrameOps) (s : State) : (loadHeader op f s).rsv1 = f.rsv1 := rfl
@[simp] theorem loadHeader_rsv2 (op : BitVec 4) (f : FrameOps) (s : State) : (loadHeader op f s).rsv2 = f.rsv2 := rfl
@[simp] theorem loadHeader_rsv3 (op : BitVec 4) (f : FrameOps) (s : State) : (loadHeader op f s).rsv3 = f.rsv3 := rfl
@[simp] theorem loadHeader_opc (op : BitVec 4) (f : FrameOps) (s : State) : (loadHeader op f s).opc = op := rfl
@[simp] theorem loadHeader_msk (op : BitVec 4) (f : FrameOps) (s : State) : (loadHeader op f s).msk = f.masked := rfl
@[simp] theorem loadHeader_l7 (op : BitVec 4) (f : FrameOps) (s : State) : (loadHeader op f s).l7 = f.len.field := rfl
@[simp] theorem loadHeader_extn (op : BitVec 4) (f : FrameOps) (s : State) : (loadHeader op f s).extn = 0#4 := rfl
@[simp] theorem loadHeader_plen (op : BitVec 4) (f : FrameOps) (s : State) : (loadHeader op f s).plen = f.plen := rfl
@[simp] theorem loadHeader_key (op : BitVec 4) (f : FrameOps) (s : State) : (loadHeader op f s).key = f.key.getD Key.zero := rfl
@[simp] theorem loadHeader_kcnt (op : BitVec 4) (f : FrameOps) (s : State) : (loadHeader op f s).kcnt = if f.masked then 4#3 else 0#3 := rfl
@[simp] theorem loadHeader_hlen (op : BitVec 4) (f : FrameOps) (s : State) : (loadHeader op f s).hlen = s.hlen := rfl
@[simp] theorem loadHeader_idx (op : BitVec 4) (f : FrameOps) (s : State) : (loadHeader op f s).idx = s.idx := rfl
@[simp] theorem loadHeader_hdrOk (op : BitVec 4) (f : FrameOps) (s : State) : (loadHeader op f s).hdrOk = s.hdrOk := rfl
@[simp] theorem loadHeader_kind (op : BitVec 4) (f : FrameOps) (s : State) : (loadHeader op f s).kind = s.kind := rfl
@[simp] theorem loadHeader_cause (op : BitVec 4) (f : FrameOps) (s : State) : (loadHeader op f s).cause = s.cause := rfl
@[simp] theorem loadHeader_cons (op : BitVec 4) (f : FrameOps) (s : State) : (loadHeader op f s).cons = s.cons := rfl
@[simp] theorem loadHeader_out (op : BitVec 4) (f : FrameOps) (s : State) : (loadHeader op f s).out = s.out := rfl
@[simp] theorem loadHeader_consValid (op : BitVec 4) (f : FrameOps) (s : State) : (loadHeader op f s).consValid = s.consValid := rfl
@[simp] theorem loadHeader_consK (op : BitVec 4) (f : FrameOps) (s : State) : (loadHeader op f s).consK = s.consK := rfl
@[simp] theorem loadHeader_rst (op : BitVec 4) (f : FrameOps) (s : State) : (loadHeader op f s).rst = s.rst := rfl
@[simp] theorem loadHeader_start (op : BitVec 4) (f : FrameOps) (s : State) : (loadHeader op f s).start = s.start := rfl
@[simp] theorem loadHeader_window (op : BitVec 4) (f : FrameOps) (s : State) : (loadHeader op f s).window = s.window := rfl
@[simp] theorem loadHeader_beIn (op : BitVec 4) (f : FrameOps) (s : State) : (loadHeader op f s).beIn = s.beIn := rfl
@[simp] theorem loadHeader_beLen (op : BitVec 4) (f : FrameOps) (s : State) : (loadHeader op f s).beLen = s.beLen := rfl
@[simp] theorem loadHeader_beWidth (op : BitVec 4) (f : FrameOps) (s : State) : (loadHeader op f s).beWidth = s.beWidth := rfl
@[simp] theorem loadHeader_grain (op : BitVec 4) (f : FrameOps) (s : State) : (loadHeader op f s).grain = s.grain := rfl

/-! ## loadByte0 -/

@[simp] theorem loadByte0_ph (b : Byte) (s : State) : (loadByte0 b s).ph = .b1 := rfl
@[simp] theorem loadByte0_avl (b : Byte) (s : State) : (loadByte0 b s).avl = s.avl := rfl
@[simp] theorem loadByte0_pos (b : Byte) (s : State) : (loadByte0 b s).pos = 1 := rfl
@[simp] theorem loadByte0_fin (b : Byte) (s : State) : (loadByte0 b s).fin = finOf b := rfl
@[simp] theorem loadByte0_rsv1 (b : Byte) (s : State) : (loadByte0 b s).rsv1 = rsv1Of b := rfl
@[simp] theorem loadByte0_rsv2 (b : Byte) (s : State) : (loadByte0 b s).rsv2 = rsv2Of b := rfl
@[simp] theorem loadByte0_rsv3 (b : Byte) (s : State) : (loadByte0 b s).rsv3 = rsv3Of b := rfl
@[simp] theorem loadByte0_opc (b : Byte) (s : State) : (loadByte0 b s).opc = opcodeOf b := rfl
@[simp] theorem loadByte0_msk (b : Byte) (s : State) : (loadByte0 b s).msk = s.msk := rfl
@[simp] theorem loadByte0_l7 (b : Byte) (s : State) : (loadByte0 b s).l7 = s.l7 := rfl
@[simp] theorem loadByte0_extn (b : Byte) (s : State) : (loadByte0 b s).extn = s.extn := rfl
@[simp] theorem loadByte0_plen (b : Byte) (s : State) : (loadByte0 b s).plen = s.plen := rfl
@[simp] theorem loadByte0_key (b : Byte) (s : State) : (loadByte0 b s).key = s.key := rfl
@[simp] theorem loadByte0_kcnt (b : Byte) (s : State) : (loadByte0 b s).kcnt = s.kcnt := rfl
@[simp] theorem loadByte0_hlen (b : Byte) (s : State) : (loadByte0 b s).hlen = s.hlen := rfl
@[simp] theorem loadByte0_idx (b : Byte) (s : State) : (loadByte0 b s).idx = s.idx := rfl
@[simp] theorem loadByte0_hdrOk (b : Byte) (s : State) : (loadByte0 b s).hdrOk = s.hdrOk := rfl
@[simp] theorem loadByte0_kind (b : Byte) (s : State) : (loadByte0 b s).kind = s.kind := rfl
@[simp] theorem loadByte0_cause (b : Byte) (s : State) : (loadByte0 b s).cause = s.cause := rfl
@[simp] theorem loadByte0_cons (b : Byte) (s : State) : (loadByte0 b s).cons = s.cons := rfl
@[simp] theorem loadByte0_out (b : Byte) (s : State) : (loadByte0 b s).out = s.out := rfl
@[simp] theorem loadByte0_consValid (b : Byte) (s : State) : (loadByte0 b s).consValid = s.consValid := rfl
@[simp] theorem loadByte0_consK (b : Byte) (s : State) : (loadByte0 b s).consK = s.consK := rfl
@[simp] theorem loadByte0_rst (b : Byte) (s : State) : (loadByte0 b s).rst = s.rst := rfl
@[simp] theorem loadByte0_start (b : Byte) (s : State) : (loadByte0 b s).start = s.start := rfl
@[simp] theorem loadByte0_window (b : Byte) (s : State) : (loadByte0 b s).window = s.window := rfl
@[simp] theorem loadByte0_beIn (b : Byte) (s : State) : (loadByte0 b s).beIn = s.beIn := rfl
@[simp] theorem loadByte0_beLen (b : Byte) (s : State) : (loadByte0 b s).beLen = s.beLen := rfl
@[simp] theorem loadByte0_beWidth (b : Byte) (s : State) : (loadByte0 b s).beWidth = s.beWidth := rfl
@[simp] theorem loadByte0_grain (b : Byte) (s : State) : (loadByte0 b s).grain = s.grain := rfl

/-! ## loadByte1 -/

@[simp] theorem loadByte1_ph (b : Byte) (s : State) : (loadByte1 b s).ph = if lenOf b ≤ 125#7 then (if maskOf b then .keyp else .chk) else .ext := rfl
@[simp] theorem loadByte1_avl (b : Byte) (s : State) : (loadByte1 b s).avl = s.avl := rfl
@[simp] theorem loadByte1_pos (b : Byte) (s : State) : (loadByte1 b s).pos = 2 := rfl
@[simp] theorem loadByte1_fin (b : Byte) (s : State) : (loadByte1 b s).fin = s.fin := rfl
@[simp] theorem loadByte1_rsv1 (b : Byte) (s : State) : (loadByte1 b s).rsv1 = s.rsv1 := rfl
@[simp] theorem loadByte1_rsv2 (b : Byte) (s : State) : (loadByte1 b s).rsv2 = s.rsv2 := rfl
@[simp] theorem loadByte1_rsv3 (b : Byte) (s : State) : (loadByte1 b s).rsv3 = s.rsv3 := rfl
@[simp] theorem loadByte1_opc (b : Byte) (s : State) : (loadByte1 b s).opc = s.opc := rfl
@[simp] theorem loadByte1_msk (b : Byte) (s : State) : (loadByte1 b s).msk = maskOf b := rfl
@[simp] theorem loadByte1_l7 (b : Byte) (s : State) : (loadByte1 b s).l7 = lenOf b := rfl
@[simp] theorem loadByte1_extn (b : Byte) (s : State) : (loadByte1 b s).extn = BitVec.ofNat 4 (extBytes (lenOf b)) := rfl
@[simp] theorem loadByte1_plen (b : Byte) (s : State) : (loadByte1 b s).plen = if lenOf b ≤ 125#7 then (lenOf b).setWidth 64 else 0#64 := rfl
@[simp] theorem loadByte1_key (b : Byte) (s : State) : (loadByte1 b s).key = s.key := rfl
@[simp] theorem loadByte1_kcnt (b : Byte) (s : State) : (loadByte1 b s).kcnt = s.kcnt := rfl
@[simp] theorem loadByte1_hlen (b : Byte) (s : State) : (loadByte1 b s).hlen = s.hlen := rfl
@[simp] theorem loadByte1_idx (b : Byte) (s : State) : (loadByte1 b s).idx = s.idx := rfl
@[simp] theorem loadByte1_hdrOk (b : Byte) (s : State) : (loadByte1 b s).hdrOk = s.hdrOk := rfl
@[simp] theorem loadByte1_kind (b : Byte) (s : State) : (loadByte1 b s).kind = s.kind := rfl
@[simp] theorem loadByte1_cause (b : Byte) (s : State) : (loadByte1 b s).cause = s.cause := rfl
@[simp] theorem loadByte1_cons (b : Byte) (s : State) : (loadByte1 b s).cons = s.cons := rfl
@[simp] theorem loadByte1_out (b : Byte) (s : State) : (loadByte1 b s).out = s.out := rfl
@[simp] theorem loadByte1_consValid (b : Byte) (s : State) : (loadByte1 b s).consValid = s.consValid := rfl
@[simp] theorem loadByte1_consK (b : Byte) (s : State) : (loadByte1 b s).consK = s.consK := rfl
@[simp] theorem loadByte1_rst (b : Byte) (s : State) : (loadByte1 b s).rst = s.rst := rfl
@[simp] theorem loadByte1_start (b : Byte) (s : State) : (loadByte1 b s).start = s.start := rfl
@[simp] theorem loadByte1_window (b : Byte) (s : State) : (loadByte1 b s).window = s.window := rfl
@[simp] theorem loadByte1_beIn (b : Byte) (s : State) : (loadByte1 b s).beIn = s.beIn := rfl
@[simp] theorem loadByte1_beLen (b : Byte) (s : State) : (loadByte1 b s).beLen = s.beLen := rfl
@[simp] theorem loadByte1_beWidth (b : Byte) (s : State) : (loadByte1 b s).beWidth = s.beWidth := rfl
@[simp] theorem loadByte1_grain (b : Byte) (s : State) : (loadByte1 b s).grain = s.grain := rfl

/-! ## driveDecoder -/

@[simp] theorem driveDecoder_ph (w : BitVec 2) (l : BitVec 4) (x : BeIn) (s : State) : (driveDecoder w l x s).ph = s.ph := rfl
@[simp] theorem driveDecoder_avl (w : BitVec 2) (l : BitVec 4) (x : BeIn) (s : State) : (driveDecoder w l x s).avl = s.avl := rfl
@[simp] theorem driveDecoder_pos (w : BitVec 2) (l : BitVec 4) (x : BeIn) (s : State) : (driveDecoder w l x s).pos = s.pos := rfl
@[simp] theorem driveDecoder_fin (w : BitVec 2) (l : BitVec 4) (x : BeIn) (s : State) : (driveDecoder w l x s).fin = s.fin := rfl
@[simp] theorem driveDecoder_rsv1 (w : BitVec 2) (l : BitVec 4) (x : BeIn) (s : State) : (driveDecoder w l x s).rsv1 = s.rsv1 := rfl
@[simp] theorem driveDecoder_rsv2 (w : BitVec 2) (l : BitVec 4) (x : BeIn) (s : State) : (driveDecoder w l x s).rsv2 = s.rsv2 := rfl
@[simp] theorem driveDecoder_rsv3 (w : BitVec 2) (l : BitVec 4) (x : BeIn) (s : State) : (driveDecoder w l x s).rsv3 = s.rsv3 := rfl
@[simp] theorem driveDecoder_opc (w : BitVec 2) (l : BitVec 4) (x : BeIn) (s : State) : (driveDecoder w l x s).opc = s.opc := rfl
@[simp] theorem driveDecoder_msk (w : BitVec 2) (l : BitVec 4) (x : BeIn) (s : State) : (driveDecoder w l x s).msk = s.msk := rfl
@[simp] theorem driveDecoder_l7 (w : BitVec 2) (l : BitVec 4) (x : BeIn) (s : State) : (driveDecoder w l x s).l7 = s.l7 := rfl
@[simp] theorem driveDecoder_extn (w : BitVec 2) (l : BitVec 4) (x : BeIn) (s : State) : (driveDecoder w l x s).extn = s.extn := rfl
@[simp] theorem driveDecoder_plen (w : BitVec 2) (l : BitVec 4) (x : BeIn) (s : State) : (driveDecoder w l x s).plen = s.plen := rfl
@[simp] theorem driveDecoder_key (w : BitVec 2) (l : BitVec 4) (x : BeIn) (s : State) : (driveDecoder w l x s).key = s.key := rfl
@[simp] theorem driveDecoder_kcnt (w : BitVec 2) (l : BitVec 4) (x : BeIn) (s : State) : (driveDecoder w l x s).kcnt = s.kcnt := rfl
@[simp] theorem driveDecoder_hlen (w : BitVec 2) (l : BitVec 4) (x : BeIn) (s : State) : (driveDecoder w l x s).hlen = s.hlen := rfl
@[simp] theorem driveDecoder_idx (w : BitVec 2) (l : BitVec 4) (x : BeIn) (s : State) : (driveDecoder w l x s).idx = s.idx := rfl
@[simp] theorem driveDecoder_hdrOk (w : BitVec 2) (l : BitVec 4) (x : BeIn) (s : State) : (driveDecoder w l x s).hdrOk = s.hdrOk := rfl
@[simp] theorem driveDecoder_kind (w : BitVec 2) (l : BitVec 4) (x : BeIn) (s : State) : (driveDecoder w l x s).kind = s.kind := rfl
@[simp] theorem driveDecoder_cause (w : BitVec 2) (l : BitVec 4) (x : BeIn) (s : State) : (driveDecoder w l x s).cause = s.cause := rfl
@[simp] theorem driveDecoder_cons (w : BitVec 2) (l : BitVec 4) (x : BeIn) (s : State) : (driveDecoder w l x s).cons = s.cons := rfl
@[simp] theorem driveDecoder_out (w : BitVec 2) (l : BitVec 4) (x : BeIn) (s : State) : (driveDecoder w l x s).out = s.out := rfl
@[simp] theorem driveDecoder_consValid (w : BitVec 2) (l : BitVec 4) (x : BeIn) (s : State) : (driveDecoder w l x s).consValid = s.consValid := rfl
@[simp] theorem driveDecoder_consK (w : BitVec 2) (l : BitVec 4) (x : BeIn) (s : State) : (driveDecoder w l x s).consK = s.consK := rfl
@[simp] theorem driveDecoder_rst (w : BitVec 2) (l : BitVec 4) (x : BeIn) (s : State) : (driveDecoder w l x s).rst = s.rst := rfl
@[simp] theorem driveDecoder_start (w : BitVec 2) (l : BitVec 4) (x : BeIn) (s : State) : (driveDecoder w l x s).start = s.start := rfl
@[simp] theorem driveDecoder_window (w : BitVec 2) (l : BitVec 4) (x : BeIn) (s : State) : (driveDecoder w l x s).window = s.window := rfl
@[simp] theorem driveDecoder_beIn (w : BitVec 2) (l : BitVec 4) (x : BeIn) (s : State) : (driveDecoder w l x s).beIn = x := rfl
@[simp] theorem driveDecoder_beLen (w : BitVec 2) (l : BitVec 4) (x : BeIn) (s : State) : (driveDecoder w l x s).beLen = l := rfl
@[simp] theorem driveDecoder_beWidth (w : BitVec 2) (l : BitVec 4) (x : BeIn) (s : State) : (driveDecoder w l x s).beWidth = w := rfl
@[simp] theorem driveDecoder_grain (w : BitVec 2) (l : BitVec 4) (x : BeIn) (s : State) : (driveDecoder w l x s).grain = s.grain := rfl

/-! ## hostStart -/

@[simp] theorem hostStart_ph (b : Bool) (s : State) : (hostStart b s).ph = s.ph := rfl
@[simp] theorem hostStart_avl (b : Bool) (s : State) : (hostStart b s).avl = s.avl := rfl
@[simp] theorem hostStart_pos (b : Bool) (s : State) : (hostStart b s).pos = s.pos := rfl
@[simp] theorem hostStart_fin (b : Bool) (s : State) : (hostStart b s).fin = s.fin := rfl
@[simp] theorem hostStart_rsv1 (b : Bool) (s : State) : (hostStart b s).rsv1 = s.rsv1 := rfl
@[simp] theorem hostStart_rsv2 (b : Bool) (s : State) : (hostStart b s).rsv2 = s.rsv2 := rfl
@[simp] theorem hostStart_rsv3 (b : Bool) (s : State) : (hostStart b s).rsv3 = s.rsv3 := rfl
@[simp] theorem hostStart_opc (b : Bool) (s : State) : (hostStart b s).opc = s.opc := rfl
@[simp] theorem hostStart_msk (b : Bool) (s : State) : (hostStart b s).msk = s.msk := rfl
@[simp] theorem hostStart_l7 (b : Bool) (s : State) : (hostStart b s).l7 = s.l7 := rfl
@[simp] theorem hostStart_extn (b : Bool) (s : State) : (hostStart b s).extn = s.extn := rfl
@[simp] theorem hostStart_plen (b : Bool) (s : State) : (hostStart b s).plen = s.plen := rfl
@[simp] theorem hostStart_key (b : Bool) (s : State) : (hostStart b s).key = s.key := rfl
@[simp] theorem hostStart_kcnt (b : Bool) (s : State) : (hostStart b s).kcnt = s.kcnt := rfl
@[simp] theorem hostStart_hlen (b : Bool) (s : State) : (hostStart b s).hlen = s.hlen := rfl
@[simp] theorem hostStart_idx (b : Bool) (s : State) : (hostStart b s).idx = s.idx := rfl
@[simp] theorem hostStart_hdrOk (b : Bool) (s : State) : (hostStart b s).hdrOk = s.hdrOk := rfl
@[simp] theorem hostStart_kind (b : Bool) (s : State) : (hostStart b s).kind = s.kind := rfl
@[simp] theorem hostStart_cause (b : Bool) (s : State) : (hostStart b s).cause = s.cause := rfl
@[simp] theorem hostStart_cons (b : Bool) (s : State) : (hostStart b s).cons = s.cons := rfl
@[simp] theorem hostStart_out (b : Bool) (s : State) : (hostStart b s).out = s.out := rfl
@[simp] theorem hostStart_consValid (b : Bool) (s : State) : (hostStart b s).consValid = s.consValid := rfl
@[simp] theorem hostStart_consK (b : Bool) (s : State) : (hostStart b s).consK = s.consK := rfl
@[simp] theorem hostStart_rst (b : Bool) (s : State) : (hostStart b s).rst = s.rst := rfl
@[simp] theorem hostStart_start (b : Bool) (s : State) : (hostStart b s).start = b := rfl
@[simp] theorem hostStart_window (b : Bool) (s : State) : (hostStart b s).window = s.window := rfl
@[simp] theorem hostStart_beIn (b : Bool) (s : State) : (hostStart b s).beIn = s.beIn := rfl
@[simp] theorem hostStart_beLen (b : Bool) (s : State) : (hostStart b s).beLen = s.beLen := rfl
@[simp] theorem hostStart_beWidth (b : Bool) (s : State) : (hostStart b s).beWidth = s.beWidth := rfl
@[simp] theorem hostStart_grain (b : Bool) (s : State) : (hostStart b s).grain = s.grain := rfl

/-! ## hostReset -/

@[simp] theorem hostReset_ph (b : Bool) (s : State) : (hostReset b s).ph = s.ph := rfl
@[simp] theorem hostReset_avl (b : Bool) (s : State) : (hostReset b s).avl = s.avl := rfl
@[simp] theorem hostReset_pos (b : Bool) (s : State) : (hostReset b s).pos = s.pos := rfl
@[simp] theorem hostReset_fin (b : Bool) (s : State) : (hostReset b s).fin = s.fin := rfl
@[simp] theorem hostReset_rsv1 (b : Bool) (s : State) : (hostReset b s).rsv1 = s.rsv1 := rfl
@[simp] theorem hostReset_rsv2 (b : Bool) (s : State) : (hostReset b s).rsv2 = s.rsv2 := rfl
@[simp] theorem hostReset_rsv3 (b : Bool) (s : State) : (hostReset b s).rsv3 = s.rsv3 := rfl
@[simp] theorem hostReset_opc (b : Bool) (s : State) : (hostReset b s).opc = s.opc := rfl
@[simp] theorem hostReset_msk (b : Bool) (s : State) : (hostReset b s).msk = s.msk := rfl
@[simp] theorem hostReset_l7 (b : Bool) (s : State) : (hostReset b s).l7 = s.l7 := rfl
@[simp] theorem hostReset_extn (b : Bool) (s : State) : (hostReset b s).extn = s.extn := rfl
@[simp] theorem hostReset_plen (b : Bool) (s : State) : (hostReset b s).plen = s.plen := rfl
@[simp] theorem hostReset_key (b : Bool) (s : State) : (hostReset b s).key = s.key := rfl
@[simp] theorem hostReset_kcnt (b : Bool) (s : State) : (hostReset b s).kcnt = s.kcnt := rfl
@[simp] theorem hostReset_hlen (b : Bool) (s : State) : (hostReset b s).hlen = s.hlen := rfl
@[simp] theorem hostReset_idx (b : Bool) (s : State) : (hostReset b s).idx = s.idx := rfl
@[simp] theorem hostReset_hdrOk (b : Bool) (s : State) : (hostReset b s).hdrOk = s.hdrOk := rfl
@[simp] theorem hostReset_kind (b : Bool) (s : State) : (hostReset b s).kind = s.kind := rfl
@[simp] theorem hostReset_cause (b : Bool) (s : State) : (hostReset b s).cause = s.cause := rfl
@[simp] theorem hostReset_cons (b : Bool) (s : State) : (hostReset b s).cons = s.cons := rfl
@[simp] theorem hostReset_out (b : Bool) (s : State) : (hostReset b s).out = s.out := rfl
@[simp] theorem hostReset_consValid (b : Bool) (s : State) : (hostReset b s).consValid = s.consValid := rfl
@[simp] theorem hostReset_consK (b : Bool) (s : State) : (hostReset b s).consK = s.consK := rfl
@[simp] theorem hostReset_rst (b : Bool) (s : State) : (hostReset b s).rst = b := rfl
@[simp] theorem hostReset_start (b : Bool) (s : State) : (hostReset b s).start = s.start := rfl
@[simp] theorem hostReset_window (b : Bool) (s : State) : (hostReset b s).window = s.window := rfl
@[simp] theorem hostReset_beIn (b : Bool) (s : State) : (hostReset b s).beIn = s.beIn := rfl
@[simp] theorem hostReset_beLen (b : Bool) (s : State) : (hostReset b s).beLen = s.beLen := rfl
@[simp] theorem hostReset_beWidth (b : Bool) (s : State) : (hostReset b s).beWidth = s.beWidth := rfl
@[simp] theorem hostReset_grain (b : Bool) (s : State) : (hostReset b s).grain = s.grain := rfl

/-! ## transport: only the window can change -/

@[simp] theorem transport_ph (s : State) : (transport s).ph = s.ph := by unfold transport; split <;> rfl
@[simp] theorem transport_avl (s : State) : (transport s).avl = s.avl := by unfold transport; split <;> rfl
@[simp] theorem transport_pos (s : State) : (transport s).pos = s.pos := by unfold transport; split <;> rfl
@[simp] theorem transport_fin (s : State) : (transport s).fin = s.fin := by unfold transport; split <;> rfl
@[simp] theorem transport_rsv1 (s : State) : (transport s).rsv1 = s.rsv1 := by unfold transport; split <;> rfl
@[simp] theorem transport_rsv2 (s : State) : (transport s).rsv2 = s.rsv2 := by unfold transport; split <;> rfl
@[simp] theorem transport_rsv3 (s : State) : (transport s).rsv3 = s.rsv3 := by unfold transport; split <;> rfl
@[simp] theorem transport_opc (s : State) : (transport s).opc = s.opc := by unfold transport; split <;> rfl
@[simp] theorem transport_msk (s : State) : (transport s).msk = s.msk := by unfold transport; split <;> rfl
@[simp] theorem transport_l7 (s : State) : (transport s).l7 = s.l7 := by unfold transport; split <;> rfl
@[simp] theorem transport_extn (s : State) : (transport s).extn = s.extn := by unfold transport; split <;> rfl
@[simp] theorem transport_plen (s : State) : (transport s).plen = s.plen := by unfold transport; split <;> rfl
@[simp] theorem transport_key (s : State) : (transport s).key = s.key := by unfold transport; split <;> rfl
@[simp] theorem transport_kcnt (s : State) : (transport s).kcnt = s.kcnt := by unfold transport; split <;> rfl
@[simp] theorem transport_hlen (s : State) : (transport s).hlen = s.hlen := by unfold transport; split <;> rfl
@[simp] theorem transport_idx (s : State) : (transport s).idx = s.idx := by unfold transport; split <;> rfl
@[simp] theorem transport_hdrOk (s : State) : (transport s).hdrOk = s.hdrOk := by unfold transport; split <;> rfl
@[simp] theorem transport_kind (s : State) : (transport s).kind = s.kind := by unfold transport; split <;> rfl
@[simp] theorem transport_cause (s : State) : (transport s).cause = s.cause := by unfold transport; split <;> rfl
@[simp] theorem transport_cons (s : State) : (transport s).cons = s.cons := by unfold transport; split <;> rfl
@[simp] theorem transport_out (s : State) : (transport s).out = s.out := by unfold transport; split <;> rfl
@[simp] theorem transport_consValid (s : State) : (transport s).consValid = s.consValid := by unfold transport; split <;> rfl
@[simp] theorem transport_consK (s : State) : (transport s).consK = s.consK := by unfold transport; split <;> rfl
@[simp] theorem transport_rst (s : State) : (transport s).rst = s.rst := by unfold transport; split <;> rfl
@[simp] theorem transport_start (s : State) : (transport s).start = s.start := by unfold transport; split <;> rfl
@[simp] theorem transport_beIn (s : State) : (transport s).beIn = s.beIn := by unfold transport; split <;> rfl
@[simp] theorem transport_beLen (s : State) : (transport s).beLen = s.beLen := by unfold transport; split <;> rfl
@[simp] theorem transport_beWidth (s : State) : (transport s).beWidth = s.beWidth := by unfold transport; split <;> rfl
@[simp] theorem transport_grain (s : State) : (transport s).grain = s.grain := by unfold transport; split <;> rfl

theorem transport_window (s : State) :
    (transport s).window = if s.consValid then s.window.drop s.consK else s.window := by unfold transport; split <;> rfl

end Sys2Proof.Machine
end

