-- ==== Sys2Proof/Laws/Step.lean ====
section
/-! SUPPORT. What each shared operation of a step can do, said once: reading the window, the phases, CHK, a whole frame, and
the step itself. Provers cite these instead of unfolding the operations. -/

namespace Sys2Proof.Machine

/-! ## Outcomes -/

@[simp] theorem onNext_next (s : State) (g : State → State) : onNext (.next s) g = .next (g s) := rfl

theorem onNext_eq_next {o : Stepped} {g : State → State} {t : State} :
    onNext o g = .next t ↔ ∃ s, o = .next s ∧ g s = t := by
  cases o <;> simp [onNext]

theorem onNext_onNext (o : Stepped) (g h : State → State) : onNext (onNext o g) h = onNext o (fun s => h (g s)) := by
  cases o <;> rfl

/-! ## Reading the window -/

theorem readWindow_of {a : Nat} {s : State} {b : Byte} (k : Byte → Stepped) (h : a < s.avl) (hb : s.window[a]? = some b) :
    readWindow a s k = k b := by
  simp [readWindow, h, hb]

/-- A read that goes on was below AVL and found its byte. -/
theorem readWindow_eq_next {a : Nat} {s t : State} {k : Byte → Stepped} (h : readWindow a s k = .next t) :
    a < s.avl ∧ ∃ b, s.window[a]? = some b ∧ k b = .next t := by
  unfold readWindow at h
  split at h
  · rename_i ha
    split at h
    · rename_i b hb
      exact ⟨ha, b, hb, h⟩
    · cases h
  · cases h

/-! ## CHK and the payload -/

/-- The five ways CHK ends (43_message_parser.md R210). -/
theorem chkStep_cases (s : State) :
    ((ctrlRange s.opc = true ∧ 125#64 < s.plen) ∧
      chkStep s = fail .protocolViolation .ctrlLen { s with hlen := BitVec.ofNat 4 s.pos }) ∨
    (¬ (ctrlRange s.opc = true ∧ 125#64 < s.plen) ∧ (reserved s.opc = true ∧ s.fin = false) ∧
      chkStep s = fail .protocolViolation .rsvNoFin { s with hlen := BitVec.ofNat 4 s.pos }) ∨
    (¬ (ctrlRange s.opc = true ∧ 125#64 < s.plen) ∧ ¬ (reserved s.opc = true ∧ s.fin = false) ∧
      s.avl < s.pos + s.plen.toNat ∧
      chkStep s = fail .insufficientData .payload { s with hlen := BitVec.ofNat 4 s.pos, hdrOk := true }) ∨
    (¬ (ctrlRange s.opc = true ∧ 125#64 < s.plen) ∧ ¬ (reserved s.opc = true ∧ s.fin = false) ∧
      s.pos + s.plen.toNat ≤ s.avl ∧ s.plen = 0#64 ∧
      chkStep s = finish s.pos { s with hlen := BitVec.ofNat 4 s.pos, hdrOk := true }) ∨
    (¬ (ctrlRange s.opc = true ∧ 125#64 < s.plen) ∧ ¬ (reserved s.opc = true ∧ s.fin = false) ∧
      s.pos + s.plen.toNat ≤ s.avl ∧ s.plen ≠ 0#64 ∧
      chkStep s = { s with hlen := BitVec.ofNat 4 s.pos, hdrOk := true, idx := 0, ph := .pay }) := by
  unfold chkStep
  by_cases h1 : ctrlRange s.opc = true ∧ 125#64 < s.plen
  · exact .inl ⟨h1, if_pos h1⟩
  by_cases h2 : reserved s.opc = true ∧ s.fin = false
  · exact .inr (.inl ⟨h1, h2, (if_neg h1).trans (if_pos h2)⟩)
  by_cases h3 : s.avl < s.pos ∨ s.avl - s.pos < s.plen.toNat
  · exact .inr (.inr (.inl ⟨h1, h2, by omega, (if_neg h1).trans ((if_neg h2).trans (if_pos h3))⟩))
  by_cases h4 : s.plen = 0#64
  · exact .inr (.inr (.inr (.inl
      ⟨h1, h2, by omega, h4, (if_neg h1).trans ((if_neg h2).trans ((if_neg h3).trans (if_pos h4)))⟩)))
  · exact .inr (.inr (.inr (.inr
      ⟨h1, h2, by omega, h4, (if_neg h1).trans ((if_neg h2).trans ((if_neg h3).trans (if_neg h4)))⟩)))

/-- The ends of a transaction from CHK on: a violation, a missing payload, or the payload in OUT and `finish`. -/
theorem chkAndPay_cases (s : State) :
    ((ctrlRange s.opc = true ∧ 125#64 < s.plen) ∧
      chkAndPay s = fail .protocolViolation .ctrlLen { s with hlen := BitVec.ofNat 4 s.pos }) ∨
    (¬ (ctrlRange s.opc = true ∧ 125#64 < s.plen) ∧ (reserved s.opc = true ∧ s.fin = false) ∧
      chkAndPay s = fail .protocolViolation .rsvNoFin { s with hlen := BitVec.ofNat 4 s.pos }) ∨
    (¬ (ctrlRange s.opc = true ∧ 125#64 < s.plen) ∧ ¬ (reserved s.opc = true ∧ s.fin = false) ∧
      s.avl < s.pos + s.plen.toNat ∧
      chkAndPay s = fail .insufficientData .payload { s with hlen := BitVec.ofNat 4 s.pos, hdrOk := true }) ∨
    (¬ (ctrlRange s.opc = true ∧ 125#64 < s.plen) ∧ ¬ (reserved s.opc = true ∧ s.fin = false) ∧
      s.pos + s.plen.toNat ≤ s.avl ∧
      ∃ x : Nat, (s.plen ≠ 0#64 ∨ s.idx = 0 → x = s.plen.toNat) ∧
      chkAndPay s = finish (s.pos + s.plen.toNat)
        { s with hlen := BitVec.ofNat 4 s.pos, hdrOk := true, idx := x, pos := s.pos + s.plen.toNat,
                 out := Memory.writeBytes s.out 0 (payloadOf s) }) := by
  rcases chkStep_cases s with h | h | h | h | h
  · left; refine ⟨h.1, ?_⟩
    unfold chkAndPay; rw [h.2]; simp
  · right; left; refine ⟨h.1, h.2.1, ?_⟩
    unfold chkAndPay; rw [h.2.2]; simp
  · right; right; left; refine ⟨h.1, h.2.1, h.2.2.1, ?_⟩
    unfold chkAndPay; rw [h.2.2.2]; simp
  · right; right; right
    refine ⟨h.1, h.2.1, h.2.2.1, s.idx, ?_, ?_⟩
    · intro hx
      rcases hx with hx | hx
      · exact absurd h.2.2.2.1 hx
      · simp [hx, h.2.2.2.1]
    · have hp : payloadOf s = [] := by
        have : unmask s.msk s.key ([] : List Byte) = [] := by cases s.msk <;> rfl
        simp [payloadOf, h.2.2.2.1, this]
      unfold chkAndPay; rw [h.2.2.2.2]
      simp [hp, h.2.2.2.1, finish]
  · right; right; right
    refine ⟨h.1, h.2.1, h.2.2.1, s.plen.toNat, fun _ => rfl, ?_⟩
    unfold chkAndPay; rw [h.2.2.2.2]
    simp [payAll, payloadOf]
    rfl

/-! ## Frames -/

theorem parseFrame_idle {s : State} (op : BitVec 4) (f : FrameOps) (h : s.ph = .idle) :
    parseFrame op f s = .next (chkAndPay (loadHeader op f (startStep s))) := by simp [parseFrame, h]

theorem parseFrame_busy {s : State} (op : BitVec 4) (f : FrameOps) (h : s.ph ≠ .idle) :
    parseFrame op f s = .next s := by simp [parseFrame, h]

/-- The decoder operations in one form. -/
theorem exec_decoder {i : Instr} (h : i.frame? = none) (s : State) :
    ∃ w l x, encode i = .ports w l x ∧ exec i s = .next (driveDecoder w l x s) := by
  cases i <;> simp [Instr.frame?] at h <;> exact ⟨_, _, _, rfl, rfl⟩

/-- The decoder reads only frames from the window. -/
theorem decodeFrame_eq_instr {B : List Byte} {i : Instr} (h : decode (.frame B) = .instr i) :
    i = frameOf (opcodeOf (byteAt B 0)) (frameOpsOf B) ∧ (frameOpsOf B).hlen ≤ B.length ∧ 2 ≤ B.length := by
  have h' : decodeFrame B = .instr i := h
  unfold decodeFrame at h'
  split at h'
  · cases h'
  · split at h'
    · cases h'
    · split at h'
      · cases h'
      · rename_i h1 h2 h3
        refine ⟨(Decoded.instr.inj h').symm, ?_, by omega⟩
        have hx : (frameOpsOf B).len.ext = extBytes (lenOf (byteAt B 1)) := by
          unfold frameOpsOf
          rcases extBytes_cases (lenOf (byteAt B 1)) with ⟨hL, he⟩ | ⟨hL, he⟩ | ⟨hL, he⟩
          · have n1 : lenOf (byteAt B 1) ≠ 126#7 := fun e => by rw [e] at hL; exact absurd hL (by decide)
            have n2 : lenOf (byteAt B 1) ≠ 127#7 := fun e => by rw [e] at hL; exact absurd hL (by decide)
            simp [LenForm.ofBytes, n1, n2, he, LenForm.ext]
          · simp [LenForm.ofBytes, hL, LenForm.ext]
            decide
          · simp [LenForm.ofBytes, hL, LenForm.ext]
            decide
        have hm : (frameOpsOf B).masked = maskOf (byteAt B 1) := by
          unfold FrameOps.masked frameOpsOf
          cases maskOf (byteAt B 1) <;> rfl
        unfold FrameOps.hlen
        rw [hx, hm]
        cases hb : maskOf (byteAt B 1)
        · simp; omega
        · simp [hb] at h3
          simp; omega

theorem idleStep_eq (s : State) : idleStep s = .next s := by
  unfold idleStep
  cases hd : decode (.ports s.beWidth s.beLen s.beIn) with
  | rejected r => rfl
  | instr i =>
    have h' : decodePorts s.beWidth s.beLen s.beIn = .instr i := hd
    unfold decodePorts at h'
    have key : ∀ w : BitVec 2, s.beWidth.toNat = w.toNat → driveDecoder w s.beLen s.beIn s = s := by
      intro w hw
      have : s.beWidth = w := BitVec.eq_of_toNat_eq hw
      rw [← this]
      rfl
    split at h' <;> (try cases h') <;> rename_i hw <;>
      first
        | exact congrArg _ (key 0#2 hw)
        | exact congrArg _ (key 1#2 hw)
        | exact congrArg _ (key 2#2 hw)

/-! ## The step -/

theorem step_eq (s : State) : step s = onNext (wsfpStep (quiet s)) transport := rfl

theorem wsfpStep_reset {s : State} (h : s.rst = true) : wsfpStep s = .next (resetStep s) := by simp [wsfpStep, h]

theorem wsfpStep_start {s : State} (h : ParseAsked s) : wsfpStep s = startAtGrain s := by
  obtain ⟨h1, h2, h3⟩ := h
  simp [wsfpStep, h1, h2, h3]

theorem wsfpStep_idle {s : State} (h1 : s.ph = .idle) (h2 : s.start = false) (h3 : s.rst = false) :
    wsfpStep s = .next s := by
  simp [wsfpStep, h1, h2, h3, idleStep_eq]

theorem wsfpStep_busy {s : State} (h1 : s.ph ≠ .idle) (h3 : s.rst = false) : wsfpStep s = serialStep s := by
  unfold wsfpStep
  rw [h3]
  cases hp : s.ph <;> simp_all

/-- Everything WSFP's own step can be: reset, idle, a start step, a whole transaction whose header breaks off, a whole frame,
or a phase of a running transaction. -/
theorem wsfpStep_cases (s : State) :
    (s.rst = true ∧ wsfpStep s = .next (resetStep s)) ∨
    (s.rst = false ∧ s.ph = .idle ∧ s.start = false ∧ wsfpStep s = .next s) ∨
    (ParseAsked s ∧ s.grain = .byteSerial ∧ wsfpStep s = .next (startStep s)) ∨
    (ParseAsked s ∧ s.grain = .transaction ∧ ∃ r, decode (.frame s.window) = .rejected r ∧
      wsfpStep s = .next (failHeader r s)) ∨
    (ParseAsked s ∧ s.grain = .transaction ∧ ∃ op f,
      decode (.frame s.window) = .instr (frameOf op f) ∧ f.hlen ≤ s.window.length ∧
      wsfpStep s = .next (chkAndPay (loadHeader op f (startStep s)))) ∨
    (s.rst = false ∧ s.ph ≠ .idle ∧ wsfpStep s = serialStep s) := by
  by_cases hr : s.rst = true
  · left; exact ⟨hr, wsfpStep_reset hr⟩
  have hr' : s.rst = false := by simpa using hr
  right
  by_cases hp : s.ph = .idle
  · by_cases hs : s.start = true
    · have hk : ParseAsked s := ⟨hp, hs, hr'⟩
      right
      cases hg : s.grain with
      | byteSerial =>
        left
        refine ⟨hk, rfl, ?_⟩
        rw [wsfpStep_start hk, startAtGrain, hg]
      | transaction =>
        right
        have e : wsfpStep s = parseStep s := by rw [wsfpStep_start hk, startAtGrain, hg]
        cases hd : decode (.frame s.window) with
        | rejected r =>
          left
          refine ⟨hk, rfl, r, rfl, ?_⟩
          rw [e, parseStep, hd]
        | instr i =>
          right; left
          obtain ⟨hi, hl, -⟩ := decodeFrame_eq_instr hd
          refine ⟨hk, rfl, _, _, by rw [hi], hl, ?_⟩
          rw [e, parseStep, hd]
          simp only
          rw [exec_of_frame? (frame?_eq_some.2 hi), parseFrame_idle _ _ hp]
    · left
      have hs' : s.start = false := by simpa using hs
      exact ⟨hr', hp, hs', wsfpStep_idle hp hs' hr'⟩
  · right; right; right; right
    exact ⟨hr', hp, wsfpStep_busy hp hr'⟩

/-- What a header-short transaction leaves, whichever cause (10_state.md R32): nothing but registers. -/
theorem failHeader_frame (r : Reject) (s : State) (h : r ≠ .noWidth) :
    (failHeader r s).ph = .idle ∧ (failHeader r s).kind = .insufficientData ∧ (failHeader r s).hdrOk = false ∧
    (failHeader r s).cons = 0 ∧ (failHeader r s).consValid = false ∧ (failHeader r s).consK = s.consK ∧
    (failHeader r s).out = s.out ∧ (failHeader r s).window = s.window ∧ (failHeader r s).rst = s.rst ∧
    (failHeader r s).start = s.start ∧ (failHeader r s).beIn = s.beIn ∧ (failHeader r s).beLen = s.beLen ∧
    (failHeader r s).beWidth = s.beWidth ∧ (failHeader r s).grain = s.grain ∧ (failHeader r s).idx = 0 ∧
    (failHeader r s).avl = s.window.length := by
  cases r <;> simp [failHeader] at h ⊢

/-- A frame in the window is never rejected for a decoder width. -/
theorem decodeFrame_ne_noWidth (B : List Byte) : decode (.frame B) ≠ .rejected .noWidth := by
  intro h
  have h' : decodeFrame B = .rejected .noWidth := h
  unfold decodeFrame at h'
  split at h'
  · cases h'
  · split at h'
    · cases h'
    · split at h' <;> cases h'

end Sys2Proof.Machine
end

