-- ==== Sys2Proof/Laws/Parser.lean ====
section
/-! SUPPORT. The function level and the instruction decoder: what `parse_header` and `parse` (41_header_parser.md R140,
43_message_parser.md R200) give, said in terms of the frame the decoder reads from the same bytes. -/

namespace Sys2Proof.Machine

theorem frameOpsOf_masked (B : List Byte) : (frameOpsOf B).masked = maskOf (byteAt B 1) := by
  unfold FrameOps.masked frameOpsOf
  cases maskOf (byteAt B 1) <;> rfl

theorem lt_125_iff (x : BitVec 64) : 125#64 < x ↔ 125 < x.toNat := by
  rw [BitVec.lt_def]; simp

theorem ctrlRange_iff (op : BitVec 4) : ctrlRange op = true ↔ 8 ≤ op.toNat := by revert op; decide

/-- The three verdicts on a header that breaks off, by the number of bytes there (R150, R144 to R146). -/
theorem decode_rejected_iff (B : List Byte) :
    (decode (.frame B) = .rejected .hdr2 ↔ B.length < 2) ∧
    (decode (.frame B) = .rejected .ext ↔ 2 ≤ B.length ∧ B.length < 2 + extBytes (lenOf (byteAt B 1))) ∧
    (decode (.frame B) = .rejected .key ↔ 2 ≤ B.length ∧ 2 + extBytes (lenOf (byteAt B 1)) ≤ B.length ∧ maskOf (byteAt B 1) = true ∧ B.length < 6 + extBytes (lenOf (byteAt B 1))) := by
  show (decodeFrame B = _ ↔ _) ∧ (decodeFrame B = _ ↔ _) ∧ (decodeFrame B = _ ↔ _)
  unfold decodeFrame
  by_cases h1 : B.length < 2
  · rw [if_pos h1]; simp [h1]; try omega
  · rw [if_neg h1]
    by_cases h2 : B.length < 2 + extBytes (lenOf (byteAt B 1))
    · rw [if_pos h2]; simp [h1, h2]; omega
    · rw [if_neg h2]
      by_cases h3 : maskOf (byteAt B 1) = true ∧ B.length < 2 + extBytes (lenOf (byteAt B 1)) + 4
      · rw [if_pos h3]; simp [h1, h2, h3.1]; omega
      · rw [if_neg h3]; simp [h1, h2]; intro a b c; by_contra; exact h3 ⟨c, by omega⟩

/-- The form of a header whose length bytes are there has the announced number of them (R94). -/
theorem frameOpsOf_ext {B : List Byte} (h : 2 + extBytes (lenOf (byteAt B 1)) ≤ B.length) :
    (frameOpsOf B).len.ext = extBytes (lenOf (byteAt B 1)) ∧ (frameOpsOf B).len.field = lenOf (byteAt B 1) := by
  have hl := LenForm.bytes_ofBytes (lenOf (byteAt B 1)) (sliceOf B 2 (2 + extBytes (lenOf (byteAt B 1))))
    (by rw [sliceOf_length]; omega)
  refine ⟨?_, hl.2.1⟩
  rw [← LenForm.bytes_length]
  show (LenForm.ofBytes _ _).bytes.length = _
  rw [hl.1, sliceOf_length]
  omega

/-- `hlen` of a header whose length bytes are there (R148). -/
theorem frameOpsOf_hlen {B : List Byte} (h : 2 + extBytes (lenOf (byteAt B 1)) ≤ B.length) :
    (frameOpsOf B).hlen = 2 + extBytes (lenOf (byteAt B 1)) + if maskOf (byteAt B 1) then 4 else 0 := by
  unfold FrameOps.hlen
  rw [(frameOpsOf_ext h).1, frameOpsOf_masked]

/-- Only the first four bytes are a key. -/
theorem keyOfList_sliceOf (B : List Byte) (a : Nat) : Key.ofList (sliceOf B a (a + 4)) = Key.ofList (B.drop a) := by
  unfold sliceOf
  rw [List.drop_take]
  simp only [Nat.add_sub_cancel_left]
  generalize B.drop a = l
  match l with
  | [] => rfl
  | [_] => rfl
  | [_, _] => rfl
  | [_, _, _] => rfl
  | _ :: _ :: _ :: _ :: _ => rfl

/-- The Frame Header of a frame with opcode `op` and operands `f` (10_state.md R20). -/
def headerOf (op : BitVec 4) (f : FrameOps) : FrameHeader :=
  ⟨f.fin, f.rsv1, f.rsv2, f.rsv3, op, f.masked, f.plen, f.key⟩

/-- A header that breaks off is `InsufficientData` with the decoder's cause (R150, R144 to R146). -/
theorem parseHeader_of_rejected {B : List Byte} {r : Reject} (h : decode (.frame B) = .rejected r) :
    parseHeader B = .err .insufficientData (match r with | .hdr2 => .hdr2 | .ext => .ext | .key => .key | .noWidth => .none) := by
  obtain ⟨m1, m2, m3⟩ := decode_rejected_iff B
  have n1 : ¬ (126#7 ≤ 125#7) := by decide
  have n2 : ¬ (127#7 ≤ 125#7) := by decide
  have n3 : ¬ (127#7 = 126#7) := by decide
  cases r with
  | noWidth => exact absurd h (decodeFrame_ne_noWidth _)
  | hdr2 =>
    have := m1.1 h
    unfold parseHeader
    simp [this]
  | ext =>
    obtain ⟨a, b⟩ := m2.1 h
    unfold parseHeader
    rcases extBytes_cases (lenOf (byteAt B 1)) with ⟨hL, hx⟩ | ⟨hL, hx⟩ | ⟨hL, hx⟩ <;> rw [hx] at b
    · omega
    · rw [if_neg (by omega), if_pos ⟨hL, b⟩]
    · rw [if_neg (by omega), if_neg (by rintro ⟨c, -⟩; rw [hL] at c; exact n3 c), if_pos ⟨hL, b⟩]
  | key =>
    obtain ⟨a, c, d, b⟩ := m3.1 h
    unfold parseHeader
    rcases extBytes_cases (lenOf (byteAt B 1)) with ⟨hL, hx⟩ | ⟨hL, hx⟩ | ⟨hL, hx⟩ <;> rw [hx] at b c
    · rw [if_neg (by omega), if_neg (by rintro ⟨e, -⟩; rw [e] at hL; exact n1 hL),
        if_neg (by rintro ⟨e, -⟩; rw [e] at hL; exact n2 hL), if_pos ⟨d, by simp [hL]; omega⟩]
    · rw [if_neg (by omega), if_neg (by omega), if_neg (by rintro ⟨e, -⟩; rw [hL] at e; exact n3 e.symm),
        if_pos ⟨d, by simp [hL, n1]; omega⟩]
    · rw [if_neg (by omega), if_neg (by rintro ⟨e, -⟩; rw [hL] at e; exact n3 e), if_neg (by omega),
        if_pos ⟨d, by simp [hL, n2, n3]; omega⟩]

/-- A header that is there ends in a violation or in the Frame Header and its length (R147 to R149). -/
theorem parseHeader_of_instr {B : List Byte} {i : Instr} {op : BitVec 4} {f : FrameOps} (h : decode (.frame B) = .instr i) (hi : i.frame? = some (op, f)) :
    parseHeader B = if 8 ≤ op.toNat ∧ 125 < f.plen.toNat then .err .protocolViolation .ctrlLen
     else if reserved op = true ∧ f.fin = false then .err .protocolViolation .rsvNoFin
     else .ok (headerOf op f, f.hlen) := by
  obtain ⟨e, hl, h2⟩ := decodeFrame_eq_instr h
  rw [e, frameOf_frame?] at hi
  simp at hi
  obtain ⟨rfl, rfl⟩ := hi
  obtain ⟨m1, m2, m3⟩ := decode_rejected_iff B
  have c1 : ¬ (B.length < 2) := by omega
  have c2 : ¬ (B.length < 2 + extBytes (lenOf (byteAt B 1))) := by
    intro hh; have := m2.2 ⟨h2, hh⟩; rw [h] at this; cases this
  have c3 : ¬ (maskOf (byteAt B 1) = true ∧ B.length < 6 + extBytes (lenOf (byteAt B 1))) := by
    rintro ⟨a, b⟩; have := m3.2 ⟨h2, by omega, a, b⟩; rw [h] at this; cases this
  have hext : (if lenOf (byteAt B 1) ≤ 125#7 then 0 else if lenOf (byteAt B 1) = 126#7 then 2 else 8) = extBytes (lenOf (byteAt B 1)) := by
    generalize lenOf (byteAt B 1) = x; revert x; decide
  have hpl : (if lenOf (byteAt B 1) ≤ 125#7 then (lenOf (byteAt B 1)).setWidth 64
    else if lenOf (byteAt B 1) = 126#7 then (beDecode .w16 (sliceOf B 2 4)).zext64
    else (beDecode .w64 (sliceOf B 2 10)).zext64) = (frameOpsOf B).plen := by
    show _ = (LenForm.ofBytes (lenOf (byteAt B 1)) (sliceOf B 2 (2 + extBytes (lenOf (byteAt B 1))))).value
    rcases extBytes_cases (lenOf (byteAt B 1)) with ⟨a, b⟩ | ⟨a, b⟩ | ⟨a, b⟩
    · have n1 : lenOf (byteAt B 1) ≠ 126#7 := fun e => by rw [e] at a; exact absurd a (by decide)
      have n2 : lenOf (byteAt B 1) ≠ 127#7 := fun e => by rw [e] at a; exact absurd a (by decide)
      simp [LenForm.ofBytes, LenForm.value, a, n1, n2]
    · rw [b] at c2
      have : (sliceOf B 2 4).length = BeWidth.w16.bytes := by rw [sliceOf_length]; simp only [BeWidth.bytes]; omega
      have n : ¬ (126#7 ≤ 125#7) := by decide
      rw [b]
      simp only [a, n, if_false, if_true, LenForm.ofBytes, LenForm.value, beDecode, if_pos this]
      rfl
    · rw [b] at c2
      have : (sliceOf B 2 10).length = BeWidth.w64.bytes := by rw [sliceOf_length]; simp only [BeWidth.bytes]; omega
      have n : ¬ (127#7 ≤ 125#7) := by decide
      have n' : ¬ (127#7 = 126#7) := by decide
      rw [b]
      simp only [a, n, n', if_false, if_true, LenForm.ofBytes, LenForm.value, beDecode, if_pos this]
      exact BitVec.setWidth_eq _
  have hhl := frameOpsOf_hlen (show 2 + extBytes (lenOf (byteAt B 1)) ≤ B.length by omega)
  have hk : (if maskOf (byteAt B 1) then
      some (Key.ofList (sliceOf B (2 + extBytes (lenOf (byteAt B 1))) (2 + extBytes (lenOf (byteAt B 1)) + 4))) else none) =
      (frameOpsOf B).key := by
    rw [keyOfList_sliceOf]
    rfl
  unfold parseHeader
  simp only [hext, hpl, hk]
  rw [if_neg c1, if_neg (by rintro ⟨a, b⟩; rw [a] at c2; exact c2 b), if_neg (by rintro ⟨a, b⟩; rw [a] at c2; exact c2 b), if_neg (by rintro ⟨a, b⟩; exact c3 ⟨a, by omega⟩)]
  have e1 : (8#4 ≤ opcodeOf (byteAt B 0) ∧ 125#64 < (frameOpsOf B).plen) ↔ (8 ≤ (opcodeOf (byteAt B 0)).toNat ∧ 125 < (frameOpsOf B).plen.toNat) := by
    rw [lt_125_iff, BitVec.le_def]; rfl
  have e2 : finOf (byteAt B 0) = (frameOpsOf B).fin := rfl
  simp only [e1, e2]
  have e3 : (headerOf (opcodeOf (byteAt B 0)) (frameOpsOf B)) = ⟨finOf (byteAt B 0), rsv1Of (byteAt B 0), rsv2Of (byteAt B 0), rsv3Of (byteAt B 0), opcodeOf (byteAt B 0), maskOf (byteAt B 1), (frameOpsOf B).plen, (frameOpsOf B).key⟩ := by
    unfold headerOf; rw [frameOpsOf_masked]; rfl
  rw [e3, hhl]
  rfl

/-- `parse` of a buffer that starts with a whole header (R200, R201). -/
theorem parse_of_instr {B : List Byte} {i : Instr} {op : BitVec 4} {f : FrameOps} (h : decode (.frame B) = .instr i) (hi : i.frame? = some (op, f)) :
    parse B = if 8 ≤ op.toNat ∧ 125 < f.plen.toNat then .err .protocolViolation .ctrlLen
     else if reserved op = true ∧ f.fin = false then .err .protocolViolation .rsvNoFin
     else if B.length < f.hlen + f.plen.toNat then .err .insufficientData .payload
     else .ok (⟨headerOf op f, unmask f.masked (f.key.getD Key.zero) ((B.drop f.hlen).take f.plen.toNat)⟩, f.hlen + f.plen.toNat) := by
  unfold parse
  rw [parseHeader_of_instr h hi]
  split
  · rename_i heq; split at heq <;> (try split at heq) <;> simp_all
  · rename_i hd hl heq
    split at heq
    · cases heq
    · split at heq
      · cases heq
      · rename_i n1 n2
        simp at heq
        obtain ⟨rfl, rfl⟩ := heq
        rw [if_neg n1, if_neg n2]
        unfold extractPayload
        show (match (if B.length < f.hlen ∨ B.length - f.hlen < f.plen.toNat then _ else _ : Parsed (List Byte)) with | .err k c => _ | .ok p => _) = _
        by_cases hc : B.length < f.hlen + f.plen.toNat
        · rw [if_pos hc, if_pos (by omega)]
        · rw [if_neg hc, if_neg (by omega)]
          have : sliceOf B f.hlen (f.hlen + f.plen.toNat) = (B.drop f.hlen).take f.plen.toNat := by
            unfold sliceOf; rw [List.drop_take]; congr 1; omega
          simp only []
          show Parsed.ok (Message.mk (headerOf op f) (match f.key with | some k => xorkey (sliceOf B f.hlen (f.hlen + f.plen.toNat)) k | none => sliceOf B f.hlen (f.hlen + f.plen.toNat)), f.hlen + f.plen.toNat) = _
          rw [this]
          unfold unmask FrameOps.masked
          cases f.key <;> rfl

/-- `parse` of a header that breaks off. -/
theorem parse_of_rejected {B : List Byte} {r : Reject} (h : decode (.frame B) = .rejected r) :
    parse B = .err .insufficientData (match r with | .hdr2 => .hdr2 | .ext => .ext | .key => .key | .noWidth => .none) := by
  unfold parse; rw [parseHeader_of_rejected h]

end Sys2Proof.Machine
end

