-- ==== Sys2Proof/Laws/PerInstr.lean ====
section
/-! SUPPORT. The family EncodedLength, one lemma per constructor of Instr: the encoder gives a frame a header of the length
R148 computes, one of the six of 30_encoding.md R93, and never rejects or shortens it; a decoder operation is three port
values. -/

namespace Sys2Proof.Laws.EncodedLength

/-- The encoded header of a frame is `hlen` bytes long, a length that is 2, 4, 6, 8, 10 or 14; the port value of a decoder
operation is a width (not 3). -/
def Statement (i : Instr) : Prop :=
  match encode i with
  | .frame B => ∃ op f, i.frame? = some (op, f) ∧ B.length = f.hlen ∧ B.length ∈ [2, 4, 6, 8, 10, 14]
  | .ports w _ _ => i.frame? = none ∧ w ≠ 3#2

theorem of_frame? {i : Instr} {op : BitVec 4} {f : FrameOps} (h : i.frame? = some (op, f)) : Statement i := by
  unfold Statement
  rw [encode_of_frame? h]
  refine ⟨op, f, h, f.header_length op, ?_⟩
  rw [f.header_length op]
  exact f.hlen_mem

theorem cont (f : FrameOps) : Statement (.cont f) := of_frame? rfl
theorem text (f : FrameOps) : Statement (.text f) := of_frame? rfl
theorem bin (f : FrameOps) : Statement (.bin f) := of_frame? rfl
theorem rsv3 (f : FrameOps) : Statement (.rsv3 f) := of_frame? rfl
theorem rsv4 (f : FrameOps) : Statement (.rsv4 f) := of_frame? rfl
theorem rsv5 (f : FrameOps) : Statement (.rsv5 f) := of_frame? rfl
theorem rsv6 (f : FrameOps) : Statement (.rsv6 f) := of_frame? rfl
theorem rsv7 (f : FrameOps) : Statement (.rsv7 f) := of_frame? rfl
theorem close (f : FrameOps) : Statement (.close f) := of_frame? rfl
theorem ping (f : FrameOps) : Statement (.ping f) := of_frame? rfl
theorem pong (f : FrameOps) : Statement (.pong f) := of_frame? rfl
theorem rsvB (f : FrameOps) : Statement (.rsvB f) := of_frame? rfl
theorem rsvC (f : FrameOps) : Statement (.rsvC f) := of_frame? rfl
theorem rsvD (f : FrameOps) : Statement (.rsvD f) := of_frame? rfl
theorem rsvE (f : FrameOps) : Statement (.rsvE f) := of_frame? rfl
theorem rsvF (f : FrameOps) : Statement (.rsvF f) := of_frame? rfl
theorem be16 (o : BeOps) : Statement (.be16 o) := ⟨rfl, by decide⟩
theorem be32 (o : BeOps) : Statement (.be32 o) := ⟨rfl, by decide⟩
theorem be64 (o : BeOps) : Statement (.be64 o) := ⟨rfl, by decide⟩

end Sys2Proof.Laws.EncodedLength
end

