-- ==== Sys2Proof/Laws/Serial.lean ====
section
/-! SUPPORT. Runs of the byte-serial machine: one lemma per phase step and one per phase (43_message_parser.md R208, R209,
R213), from which R221 follows phase by phase. -/

namespace Sys2Proof.Machine

/-- PLEN after the bytes `bs` have been shifted in (R208). -/
def shiftIn (v : BitVec 64) (bs : List Byte) : BitVec 64 :=
  bs.foldl (fun (v : BitVec 64) (b : Byte) => (v <<< 8) ||| b.setWidth 64) v

theorem shiftIn_one (v : BitVec 64) (b : Byte) (h : v.toNat < 2^56) : ((v <<< 8) ||| b.setWidth 64).toNat = 256 * v.toNat + b.toNat := by
  have : (v <<< 8) ||| b.setWidth 64 = (v <<< 8) + b.setWidth 64 := by
    rw [BitVec.add_eq_or_of_and_eq_zero]
    ext i hi
    simp
    intro h1 h2 
    exact BitVec.getLsbD_of_ge _ _ (by omega)
  rw [this]
  have := b.isLt
  simp [Nat.shiftLeft_eq]
  omega

/-- Shifting in at most eight bytes loses no bit (R208; 40_be_decoder.md R135 (c)). -/
theorem shiftIn_toNat (bs : List Byte) (v : BitVec 64) (n : Nat) (h : v.toNat < 256 ^ n) (hn : n + bs.length ≤ 8) :
   (bs.foldl (fun (v : BitVec 64) (b : Byte) => (v <<< 8) ||| b.setWidth 64) v).toNat = bs.foldl (fun v b => 256 * v + b.toNat) v.toNat := by
  induction bs generalizing v n with
  | nil => rfl
  | cons b bs ih =>
    simp only [List.foldl_cons]
    have hlt : v.toNat < 2 ^ 56 := lt_of_lt_of_le h (by
      have : n ≤ 7 := by simp at hn; omega
      calc 256 ^ n ≤ 256 ^ 7 := Nat.pow_le_pow_right (by norm_num) this
        _ = 2^56 := by norm_num)
    have e := shiftIn_one v b hlt
    rw [ih _ (n+1) (by rw [e, pow_succ]; have := b.isLt; omega) (by simp at hn; omega), e]

/-- Runs compose. -/
theorem runSteps_add {a b : Nat} {s t : State} (h : runSteps a s = .next t) : runSteps (a + b) s = runSteps b t := by
  induction a generalizing s with
  | zero => simp [runSteps] at h; subst h; simp
  | succ a ih =>
    rw [show a + 1 + b = (a + b) + 1 by omega]
    rw [runSteps] at h ⊢
    cases hs : step s with
    | next u => rw [hs] at h; simp only; exact ih h
    | fault r => rw [hs] at h; cases h
    | refused r => rw [hs] at h; cases h

theorem runSteps_one {s t : State} (h : step s = .next t) : runSteps 1 s = .next t := by
  unfold runSteps; rw [h]; rfl

theorem runSteps_snoc {a : Nat} {s t u : State} (h : runSteps a s = .next t) (h' : step t = .next u) : runSteps (a + 1) s = .next u := by
  rw [runSteps_add h, runSteps_one h']

/-- A transaction is running, no reset, no pulse. -/
def Going (s : State) : Prop := s.ph ≠ .idle ∧ s.rst = false ∧ s.consValid = false

/-- A step of a running transaction. -/
theorem step_busy {s : State} (h1 : s.ph ≠ .idle) (h3 : s.rst = false) : step s = onNext (serialStep (quiet s)) transport := by
  rw [step_eq, wsfpStep_busy (by exact h1) (by exact h3)]

/-- A step of a running transaction that makes no pulse. -/
theorem step_going {s t : State} (h : Going s) (ht : serialStep s = .next t) (hc : t.consValid = false) : step s = .next t := by
  have hq : quiet s = s := by unfold quiet; rw [← h.2.2]
  rw [step_busy h.1 h.2.1, hq, ht]
  show Host.Outcome.next (transport t) = _
  unfold transport; rw [hc]; rfl

theorem shiftIn_snoc (v : BitVec 64) (bs : List Byte) (b : Byte) : shiftIn v (bs ++ [b]) = (shiftIn v bs <<< 8) ||| b.setWidth 64 := by
  unfold shiftIn; simp

/-- EXT with a byte there (R208). -/
theorem serialStep_ext {s : State} {b : Byte} (hp : s.ph = .ext) (ha : s.pos < s.avl) (hw : s.window[s.pos]? = some b) :
  serialStep s = .next { s with
      plen := (s.plen <<< 8) ||| b.setWidth 64,
      pos := s.pos + 1,
      extn := s.extn - 1#4,
      ph := if s.extn - 1#4 = 0#4 then (if s.msk then .keyp else .chk) else .ext } := by
  have e : serialStep s = extStep s := by unfold serialStep; rw [hp]
  rw [e]
  unfold extStep
  rw [if_neg (by omega), readWindow_of _ ha hw]

/-- KEYP with a byte there (R209). -/
theorem serialStep_keyp {s : State} {b : Byte} (hp : s.ph = .keyp) (ha : s.pos < s.avl) (hk : s.kcnt.toNat ≤ 3) (hw : s.window[s.pos]? = some b) :
  serialStep s = .next { s with
        key := s.key.set s.kcnt.toNat b,
        kcnt := s.kcnt + 1#3,
        pos := s.pos + 1,
        ph := if s.kcnt + 1#3 = 4#3 then .chk else .keyp } := by
  have e : serialStep s = keypStep s := by unfold serialStep; rw [hp]
  rw [e]
  unfold keypStep
  rw [if_neg (by omega), if_pos hk, readWindow_of _ ha hw]

/-- PAY (R213). -/
theorem serialStep_pay {s : State} {b : Byte} (hp : s.ph = .pay) (ha : s.pos < s.avl) (hw : s.window[s.pos]? = some b) :
  serialStep s = .next (if s.idx + 1 = s.plen.toNat then finish (s.pos + 1) { s with
      out := Memory.write s.out s.idx (unmaskByte s.msk s.key s.idx b),
      idx := s.idx + 1,
      pos := s.pos + 1 } else { s with
      out := Memory.write s.out s.idx (unmaskByte s.msk s.key s.idx b),
      idx := s.idx + 1,
      pos := s.pos + 1 }) := by
  have e : serialStep s = payStep s := by unfold serialStep; rw [hp]
  rw [e]
  unfold payStep
  rw [readWindow_of _ ha hw]

/-- After the last EXT step PLEN is the big-endian value of the bytes (R208). -/
theorem shiftIn_ofNat (bs : List Byte) (h : bs.length ≤ 8) : shiftIn 0#64 bs = BitVec.ofNat 64 (beValue bs) := by
  apply BitVec.eq_of_toNat_eq
  unfold shiftIn
  rw [shiftIn_toNat bs 0#64 0 (by simp) (by omega)]
  have := beValue_lt bs
  have h8 : 256 ^ bs.length ≤ 256 ^ 8 := Nat.pow_le_pow_right (by norm_num) h
  refine Eq.trans (?_ : _ = beValue bs) ?_
  · rfl
  · rw [BitVec.toNat_ofNat, Nat.mod_eq_of_lt (by omega)]

/-- `m` EXT steps, the last byte not among them. -/
theorem runSteps_ext {s : State} (h : Going s) (hp : s.ph = .ext) (hw : s.window.length = s.avl) (m : Nat) (hm : m < s.extn.toNat) (ha : s.pos + m ≤ s.avl) :
   runSteps m s = .next { s with plen := shiftIn s.plen (sliceOf s.window s.pos (s.pos + m)), pos := s.pos + m, extn := s.extn - BitVec.ofNat 4 m } := by
  induction m with
  | zero =>
    simp [runSteps, sliceOf, shiftIn]
  | succ m ih =>
    refine runSteps_snoc (ih (by omega) (by omega)) ?_
    have hx : s.pos + m < s.window.length := by omega
    have hxa : s.pos + m < s.avl := by omega
    apply step_going
    · exact h
    · refine Eq.trans (serialStep_ext (b := byteAt s.window (s.pos + m)) (by exact hp) hxa (byteAt_getElem? hx)) ?_
      congr 1
      have e1 : s.extn - BitVec.ofNat 4 m - 1#4 = s.extn - BitVec.ofNat 4 (m + 1) := by
        rw [BitVec.sub_sub]; congr 1
        apply BitVec.eq_of_toNat_eq
        simp
      have e2 : ¬ (s.extn - BitVec.ofNat 4 (m + 1) = 0#4) := by
        intro e
        have : s.extn = BitVec.ofNat 4 (m+1) := by
          have := congrArg (· + BitVec.ofNat 4 (m+1)) e
          simpa using this
        rw [this] at hm
        simp at hm
        have := Nat.mod_le (m+1) 16
        omega
      have e3 : sliceOf s.window s.pos (s.pos + (m + 1)) = sliceOf s.window s.pos (s.pos + m) ++ [byteAt s.window (s.pos + m)] := sliceOf_succ (Nat.le_add_right _ _) hx
      simp only [e1, e2, if_false, e3, shiftIn_snoc, ← hp]
      rfl
    · exact h.2.2

/-- The EXT phase with all its bytes there. -/
theorem runSteps_ext_done {s : State} (h : Going s) (hp : s.ph = .ext) (hw : s.window.length = s.avl) (n : Nat) (hn : s.extn.toNat = n) (h0 : 0 < n) (ha : s.pos + n ≤ s.avl) :
   runSteps n s = .next { s with plen := shiftIn s.plen (sliceOf s.window s.pos (s.pos + n)), pos := s.pos + n, extn := 0#4, ph := if s.msk then .keyp else .chk } := by
  obtain ⟨m, rfl⟩ : ∃ m, n = m + 1 := ⟨n - 1, by omega⟩
  refine runSteps_snoc (runSteps_ext h hp hw m (by omega) (by omega)) ?_
  have hx : s.pos + m < s.window.length := by omega
  have hxa : s.pos + m < s.avl := by omega
  apply step_going
  · exact h
  · refine Eq.trans (serialStep_ext (b := byteAt s.window (s.pos + m)) (by exact hp) hxa (byteAt_getElem? hx)) ?_
    congr 1
    have hlt := s.extn.isLt
    have e1 : s.extn - BitVec.ofNat 4 m - 1#4 = 0#4 := by
      apply BitVec.eq_of_toNat_eq
      rw [BitVec.sub_sub]
      have : (BitVec.ofNat 4 m + 1#4) = s.extn := by
        apply BitVec.eq_of_toNat_eq
        simp; omega
      rw [this]; simp
    have e3 : sliceOf s.window s.pos (s.pos + (m + 1)) = sliceOf s.window s.pos (s.pos + m) ++ [byteAt s.window (s.pos + m)] := sliceOf_succ (Nat.le_add_right _ _) hx
    simp only [e1, if_true, e3, shiftIn_snoc]
    rfl
  · exact h.2.2

/-- The EXT phase with bytes missing. -/
theorem runSteps_ext_short {s : State} (h : Going s) (hp : s.ph = .ext) (hw : s.window.length = s.avl) (hpos : s.pos ≤ s.avl) (ha : s.avl < s.pos + s.extn.toNat) :
   runSteps (s.avl - s.pos + 1) s = .next (fail .insufficientData .ext { s with plen := shiftIn s.plen (sliceOf s.window s.pos s.avl), pos := s.avl, extn := s.extn - BitVec.ofNat 4 (s.avl - s.pos) }) := by
  have e : s.pos + (s.avl - s.pos) = s.avl := by omega
  refine runSteps_snoc (runSteps_ext h hp hw (s.avl - s.pos) (by omega) (by omega)) ?_
  rw [e]
  apply step_going
  · exact h
  · unfold serialStep; simp only [hp]
    unfold extStep
    rw [if_pos (by simp)]
  · exact h.2.2

theorem runSteps_keyp {s : State} (h : Going s) (hp : s.ph = .keyp) (hw : s.window.length = s.avl) (hk : s.kcnt = 0#3) (hz : s.key = Key.zero) (m : Nat) (hm : m < 4) (ha : s.pos + m ≤ s.avl) :
   runSteps m s = .next { s with key := Key.ofList (sliceOf s.window s.pos (s.pos + m)), kcnt := BitVec.ofNat 3 m, pos := s.pos + m } := by
  induction m with
  | zero =>
    have : sliceOf s.window s.pos (s.pos + 0) = [] := by simp [sliceOf]
    rw [this]
    have e : Key.ofList [] = s.key := by rw [hz]; rfl
    rw [e]
    have : BitVec.ofNat 3 0 = s.kcnt := hk.symm
    rw [this]; rfl
  | succ m ih =>
    refine runSteps_snoc (ih (by omega) (by omega)) ?_
    have hx : s.pos + m < s.window.length := by omega
    have hxa : s.pos + m < s.avl := by omega
    apply step_going
    · exact h
    · refine Eq.trans (serialStep_keyp (b := byteAt s.window (s.pos + m)) (by exact hp) hxa (by simp; omega) (byteAt_getElem? hx)) ?_
      congr 1
      have e3 : sliceOf s.window s.pos (s.pos + (m + 1)) = sliceOf s.window s.pos (s.pos + m) ++ [byteAt s.window (s.pos + m)] := sliceOf_succ (Nat.le_add_right _ _) hx
      have hl : (sliceOf s.window s.pos (s.pos + m)).length = m := by rw [sliceOf_length]; omega
      have e4 : (Key.ofList (sliceOf s.window s.pos (s.pos + m))).set (BitVec.ofNat 3 m).toNat (byteAt s.window (s.pos + m)) = Key.ofList (sliceOf s.window s.pos (s.pos + (m + 1))) := by
        rw [e3]
        generalize byteAt s.window (s.pos + m) = b
        generalize hlist : sliceOf s.window s.pos (s.pos + m) = l at hl
        have : m < 3 := by omega
        match l, hl with
        | [], hl => subst hl; rfl
        | [a], hl => simp at hl; subst hl; rfl
        | [a, c], hl => simp at hl; subst hl; rfl
        | a :: c :: d :: l, hl => simp at hl; omega
      have e5 : BitVec.ofNat 3 m + 1#3 = BitVec.ofNat 3 (m + 1) := by
        apply BitVec.eq_of_toNat_eq; simp
      have e6 : ¬ (BitVec.ofNat 3 (m + 1) = 4#3) := by
        intro e; have := congrArg BitVec.toNat e; simp at this; omega
      simp only [e4, e5, e6, if_false, ← hp]
      rfl
    · exact h.2.2

/-- The KEYP phase with all four bytes there. -/
theorem runSteps_keyp_done {s : State} (h : Going s) (hp : s.ph = .keyp) (hw : s.window.length = s.avl) (hk : s.kcnt = 0#3) (hz : s.key = Key.zero) (ha : s.pos + 4 ≤ s.avl) :
   runSteps 4 s = .next { s with key := Key.ofList (sliceOf s.window s.pos (s.pos + 4)), kcnt := 4#3, pos := s.pos + 4, ph := .chk } := by
  refine runSteps_snoc (runSteps_keyp h hp hw hk hz 3 (by omega) (by omega)) ?_
  have hx : s.pos + 3 < s.window.length := by omega
  have hxa : s.pos + 3 < s.avl := by omega
  apply step_going
  · exact h
  · refine Eq.trans (serialStep_keyp (b := byteAt s.window (s.pos + 3)) (by exact hp) hxa (by simp) (byteAt_getElem? hx)) ?_
    congr 1
    have e3 : sliceOf s.window s.pos (s.pos + 4) = sliceOf s.window s.pos (s.pos + 3) ++ [byteAt s.window (s.pos + 3)] := sliceOf_succ (Nat.le_add_right _ _) hx
    have hl : (sliceOf s.window s.pos (s.pos + 3)).length = 3 := by rw [sliceOf_length]; omega
    have e4 : (Key.ofList (sliceOf s.window s.pos (s.pos + 3))).set (BitVec.ofNat 3 3).toNat (byteAt s.window (s.pos + 3)) = Key.ofList (sliceOf s.window s.pos (s.pos + 4)) := by
      rw [e3]
      generalize byteAt s.window (s.pos + 3) = b
      generalize hlist : sliceOf s.window s.pos (s.pos + 3) = l at hl
      match l, hl with
      | [a, c, d], hl => rfl
    simp only [e4]
    rfl
  · exact h.2.2

/-- The KEYP phase with bytes missing. -/
theorem runSteps_keyp_short {s : State} (h : Going s) (hp : s.ph = .keyp) (hw : s.window.length = s.avl) (hk : s.kcnt = 0#3) (hz : s.key = Key.zero) (hpos : s.pos ≤ s.avl) (ha : s.avl < s.pos + 4) :
   runSteps (s.avl - s.pos + 1) s = .next (fail .insufficientData .key { s with key := Key.ofList (sliceOf s.window s.pos s.avl), kcnt := BitVec.ofNat 3 (s.avl - s.pos), pos := s.avl }) := by
  have e : s.pos + (s.avl - s.pos) = s.avl := by omega
  refine runSteps_snoc (runSteps_keyp h hp hw hk hz (s.avl - s.pos) (by omega) (by omega)) ?_
  rw [e]
  apply step_going
  · exact h
  · unfold serialStep; simp only [hp]
    unfold keypStep
    rw [if_pos (by simp)]
  · exact h.2.2

/-- One more payload byte in OUT. -/
theorem writeBytes_snoc_unmask (s : State) {m : Nat} (hx : s.pos + m < s.window.length) :
    Memory.write (Memory.writeBytes s.out 0 (unmask s.msk s.key ((s.window.drop s.pos).take m))) m
        (unmaskByte s.msk s.key m (byteAt s.window (s.pos + m))) =
      Memory.writeBytes s.out 0 (unmask s.msk s.key ((s.window.drop s.pos).take (m + 1))) := by
  have hl : ((s.window.drop s.pos).take m).length = m := by simp; omega
  have e : unmask s.msk s.key ((s.window.drop s.pos).take (m + 1)) =
      unmask s.msk s.key ((s.window.drop s.pos).take m) ++ [unmaskByte s.msk s.key m (byteAt s.window (s.pos + m))] := by
    apply List.ext_getElem?
    intro j
    rw [unmask_getElem?, List.getElem?_take]
    by_cases hj : j < m
    · rw [List.getElem?_append_left (by simp; omega), unmask_getElem?, List.getElem?_take, if_pos hj, if_pos (by omega)]
    · rw [List.getElem?_append_right (by simp only [unmask_length, hl]; omega)]
      simp only [unmask_length, hl]
      by_cases hj' : j = m
      · subst hj'
        rw [if_pos (by omega), List.getElem?_drop, byteAt_getElem? hx]
        simp
      · rw [if_neg (by omega)]
        have : j - m ≠ 0 := by omega
        simp [this]
  rw [e, Memory.writeBytes_append]
  congr 1
  simp
  omega

/-- `m` PAY steps, the last byte not among them. -/
theorem runSteps_pay {s : State} (h : Going s) (hp : s.ph = .pay) (m : Nat) (hi : s.idx = 0) (hm : m < s.plen.toNat) (ha : s.pos + m ≤ s.avl) (hw : s.window.length = s.avl):
   runSteps m s = .next { s with out := Memory.writeBytes s.out 0 (unmask s.msk s.key ((s.window.drop s.pos).take m)), idx := m, pos := s.pos + m } := by
  induction m with
  | zero =>
    have : unmask s.msk s.key ([] : List Byte) = [] := by cases s.msk <;> rfl
    simp only [runSteps, List.take_zero, this, Memory.writeBytes_nil, Nat.add_zero]
    rw [← hi]
  | succ m ih =>
    refine runSteps_snoc (ih (by omega) (by omega)) ?_
    have hx : s.pos + m < s.window.length := by omega
    have hxa : s.pos + m < s.avl := by omega
    apply step_going
    · exact h
    · refine Eq.trans (serialStep_pay (b := byteAt s.window (s.pos + m)) (by exact hp) hxa (byteAt_getElem? hx)) ?_
      simp only [Host.Outcome.next.injEq]
      rw [if_neg (by omega)]
      have e := writeBytes_snoc_unmask s hx
      simp only [e]
      rfl
    · exact h.2.2

/-- The whole PAY phase is `payAll`. -/
theorem runSteps_pay_done {s : State} (h : Going s) (hp : s.ph = .pay) (hi : s.idx = 0) (h0 : 0 < s.plen.toNat) (ha : s.pos + s.plen.toNat ≤ s.avl) (hw : s.window.length = s.avl):
   runSteps s.plen.toNat s = .next (transport (payAll s)) := by
  obtain ⟨m, hm⟩ : ∃ m, s.plen.toNat = m + 1 := ⟨s.plen.toNat - 1, by omega⟩
  rw [hm]
  refine runSteps_snoc (runSteps_pay h hp m hi (by omega) (by omega) hw) ?_
  have hx : s.pos + m < s.window.length := by omega
  have hxa : s.pos + m < s.avl := by omega
  have hq : ∀ x : State, x.consValid = false → quiet x = x := by intro x hx; unfold quiet; rw [← hx]
  rw [step_busy (by exact h.1) (by exact h.2.1), hq _ (by exact h.2.2)]
  refine Eq.trans (congrArg (fun o => onNext o transport) (serialStep_pay (b := byteAt s.window (s.pos + m)) (by exact hp) hxa (byteAt_getElem? hx))) ?_
  simp only []
  rw [if_pos hm.symm, onNext_next]
  congr 2
  unfold payAll payloadOf
  rw [hm]
  have e := writeBytes_snoc_unmask s hx
  rw [e]
  rfl

end Sys2Proof.Machine
end

