-- ==== Sys2Proof/Tests/Slice0.lean ====
section
/-! SUPPORT. The model's own tests and the witnesses of the statements' hypotheses. Expected values come from
spec/95_test_vectors.md (the row is named) or are worked out by hand from the encoding tables of 30_encoding.md. -/

namespace Sys2Proof.Tests

open Sys2Proof.Machine

/-! ## Helpers -/

/-- The machine in IDLE with the bytes `B` in the window and `start = 1`. -/
def facing (B : List Byte) : State := { State.reset with window := B, start := true }

/-- The same, one window byte a step. -/
def facingSerial (B : List Byte) : State := { facing B with grain := .byteSerial }

/-- A step answered a next state of which `p` holds. -/
def ends (o : Stepped) (p : State → Bool) : Bool :=
  match o with
  | .next t => p t
  | _ => false

theorem ends_next {o : Stepped} {p : State → Bool} (h : ends o p = true) : ∃ t, o = .next t ∧ p t = true := by
  cases o with
  | next t => exact ⟨t, rfl, h⟩
  | fault r => cases h
  | refused r => cases h

/-- KIND, CAUSE, OPC, PLEN and CONS at the end, and the bytes of OUT from 0 on. -/
def verdict (k : Kind) (c : Cause) (op : BitVec 4) (plen : BitVec 64) (cons : Nat) (out : List Byte) (t : State) : Bool :=
  decide (t.ph = .idle) && decide (t.kind = k) && decide (t.cause = c) && decide (t.opc = op) && decide (t.plen = plen) &&
    decide (t.cons = cons) && decide (t.out.map Prod.snd = out)

/-- The four classification flags. -/
def flags (t : State) : Bool × Bool × Bool × Bool := (t.isCtrl, t.isFragHdr, t.isFragFtr, t.isFrag)

/-- A frame without key or reserved bits. -/
def plain (fin : Bool) (l : LenForm) : FrameOps := ⟨fin, false, false, false, l, none⟩

/-- The key of the source's example S5. -/
def key37 : Key := ⟨0x37#8, 0xFA#8, 0x21#8, 0x3D#8⟩

def hello : List Byte := [0x48#8, 0x65#8, 0x6C#8, 0x6C#8, 0x6F#8]
def maskedHello : List Byte := [0x7F#8, 0x9F#8, 0x4D#8, 0x51#8, 0x58#8]

/-! ## WellFormed: an ill-formed term for its one check -/

theorem test_wf_refuses_126 : (Instr.text (plain true (.short 126#7))).wf = false := by decide
theorem test_wf_refuses_127 : (Instr.close (plain true (.short 127#7))).wf = false := by decide
theorem test_wf_takes_125 : (Instr.rsvF (plain true (.short 125#7))).wf = true := by decide
theorem test_wf_takes_nonminimal :
    (Instr.bin (plain true (.ext16 5#16))).wf = true ∧ (Instr.bin (plain true (.ext64 0#64))).wf = true := by decide
theorem test_wf_decoder : (Instr.be16 ⟨15#4, BeIn.zero⟩).wf = true := by decide

/-! ## Decode: words written out from the encoding tables -/

/-- Table E3: byte 0 = `1 000 oooo`, byte 1 = 0: the data frames and the reserved-non-control ones. -/
theorem test_decode_low_opcodes :
    decodeTableWord 16 0b1000000000000000 = some (.cont (plain true (.short 0#7))) ∧
    decodeTableWord 16 0b1000000100000000 = some (.text (plain true (.short 0#7))) ∧
    decodeTableWord 16 0b1000001000000000 = some (.bin (plain true (.short 0#7))) ∧
    decodeTableWord 16 0b1000001100000000 = some (.rsv3 (plain true (.short 0#7))) ∧
    decodeTableWord 16 0b1000010000000000 = some (.rsv4 (plain true (.short 0#7))) ∧
    decodeTableWord 16 0b1000010100000000 = some (.rsv5 (plain true (.short 0#7))) ∧
    decodeTableWord 16 0b1000011000000000 = some (.rsv6 (plain true (.short 0#7))) ∧
    decodeTableWord 16 0b1000011100000000 = some (.rsv7 (plain true (.short 0#7))) := by decide

/-- Table E3: the control frames and the reserved-control ones. -/
theorem test_decode_high_opcodes :
    decodeTableWord 16 0b1000100000000000 = some (.close (plain true (.short 0#7))) ∧
    decodeTableWord 16 0b1000100100000000 = some (.ping (plain true (.short 0#7))) ∧
    decodeTableWord 16 0b1000101000000000 = some (.pong (plain true (.short 0#7))) ∧
    decodeTableWord 16 0b1000101100000000 = some (.rsvB (plain true (.short 0#7))) ∧
    decodeTableWord 16 0b1000110000000000 = some (.rsvC (plain true (.short 0#7))) ∧
    decodeTableWord 16 0b1000110100000000 = some (.rsvD (plain true (.short 0#7))) ∧
    decodeTableWord 16 0b1000111000000000 = some (.rsvE (plain true (.short 0#7))) ∧
    decodeTableWord 16 0b1000111100000000 = some (.rsvF (plain true (.short 0#7))) := by decide

/-- R109: the decoder operations are the port values 0, 1, 2; 3 is no width. -/
theorem test_decode_ports :
    decodeTableWord 2 0b00 = some (.be16 ⟨0#4, BeIn.zero⟩) ∧ decodeTableWord 8 0b01 = some (.be32 ⟨0#4, BeIn.zero⟩) ∧
    decodeTableWord 8 0b10 = some (.be64 ⟨0#4, BeIn.zero⟩) ∧ decodeTableWord 8 0b11 = none := by decide

/-- Table E1, every field of the two bytes at once: `0 101 1001`, `1 1111111` is a `ping` with fin = 0, rsv1 and rsv3 set,
masked, in the 64-bit form. -/
theorem test_decode_fields :
    decodeTableWord 16 0b0101100111111111 =
      some (.ping ⟨false, true, false, true, .ext64 0#64, some ⟨0#8, 0#8, 0#8, 0#8⟩⟩) := by decide

/-- F16M of Table M1: `82 FE 01 00 37 FA 21 3D` (T29). -/
theorem test_decode_f16m :
    decode (.frame [0x82#8, 0xFE#8, 0x01#8, 0x00#8, 0x37#8, 0xFA#8, 0x21#8, 0x3D#8]) =
      .instr (.bin ⟨true, false, false, false, .ext16 256#16, some key37⟩) := by decide

/-- T118, T68, T49: what is missing is reported, no opcode is refused. -/
theorem test_decode_rejects :
    decode (.frame [0x03#8]) = .rejected .hdr2 ∧ decode (.frame [0xFF#8, 0xFF#8]) = .rejected .ext ∧
    decode (.frame [0x8A#8, 0xFE#8, 0x01#8, 0x00#8, 0x01#8, 0x02#8]) = .rejected .key := by decide

/-- The encoder writes the bytes of T31. -/
theorem test_encode_t31 :
    encode (.bin ⟨true, false, false, false, .ext64 3#64, some ⟨1#8, 2#8, 3#8, 4#8⟩⟩) =
      .frame [0x82#8, 0xFF#8, 0#8, 0#8, 0#8, 0#8, 0#8, 0#8, 0#8, 3#8, 1#8, 2#8, 3#8, 4#8] := by decide

/-! ## One step: the frames -/

/-- S7: a fragment footer. -/
theorem test_cont_footer :
    ends (step (facing [0x80#8, 0x02#8, 0x6C#8, 0x6F#8]))
      (fun t => verdict .ok .none 0x0#4 2#64 4 [0x6C#8, 0x6F#8] t && flags t == (false, false, true, true)) = true := by
  decide

/-- T45: a middle fragment. -/
theorem test_cont_middle :
    ends (step (facing [0x00#8, 0x01#8, 0xFF#8]))
      (fun t => verdict .ok .none 0x0#4 1#64 3 [0xFF#8] t && flags t == (false, false, false, true)) = true := by decide

/-- S5: masked "Hello"; the window is empty afterwards. -/
theorem test_text_masked :
    ends (step (facing ([0x81#8, 0x85#8, 0x37#8, 0xFA#8, 0x21#8, 0x3D#8] ++ maskedHello)))
      (fun t => verdict .ok .none 0x1#4 5#64 11 hello t && t.hlen == 6#4 && t.key == key37 && t.status == 0x06#8 &&
        t.window == [] && t.consValid) = true := by decide

/-- T129: 7 of 9 bytes consumed, the next frame at offset 0. -/
theorem test_text_leaves_next :
    ends (step (facing ([0x81#8, 0x05#8] ++ hello ++ [0x81#8, 0x05#8])))
      (fun t => verdict .ok .none 0x1#4 5#64 7 hello t && t.window == [0x81#8, 0x05#8]) = true := by decide

/-- T31: F64M with a non-minimal length. -/
theorem test_bin_f64m :
    ends (step (facing [0x82#8, 0xFF#8, 0#8, 0#8, 0#8, 0#8, 0#8, 0#8, 0#8, 3#8, 1#8, 2#8, 3#8, 4#8, 0x11#8, 0x22#8, 0x33#8]))
      (fun t => verdict .ok .none 0x2#4 3#64 17 [0x10#8, 0x20#8, 0x30#8] t && t.hlen == 14#4) = true := by decide

/-- T66: `plen = 2^64 - 1` passes the header stage. -/
theorem test_bin_largest :
    ends (step (facing (0x82#8 :: 0x7F#8 :: List.replicate 8 0xFF#8)))
      (fun t => verdict .insufficientData .payload 0x2#4 0xFFFFFFFFFFFFFFFF#64 0 [] t && t.hdrOk) = true := by decide

/-- T89, T90. -/
theorem test_rsv3 :
    ends (step (facing [0x83#8, 0x01#8, 0x41#8])) (verdict .ok .none 0x3#4 1#64 3 [0x41#8]) = true ∧
    ends (step (facing [0x03#8, 0x01#8, 0x41#8])) (verdict .protocolViolation .rsvNoFin 0x3#4 1#64 0 []) = true := by decide

/-- T93, T94. -/
theorem test_rsv4 :
    ends (step (facing [0x84#8, 0x00#8])) (verdict .ok .none 0x4#4 0#64 2 []) = true ∧
    ends (step (facing [0x04#8, 0x00#8])) (verdict .protocolViolation .rsvNoFin 0x4#4 0#64 0 []) = true := by decide

/-- T95; and `85 7E 01 00` (T112 without its payload): no cap below 0x8. -/
theorem test_rsv5 :
    ends (step (facing [0x85#8, 0x00#8])) (verdict .ok .none 0x5#4 0#64 2 []) = true ∧
    ends (step (facing [0x85#8, 0x7E#8, 0x01#8, 0x00#8])) (verdict .insufficientData .payload 0x5#4 256#64 0 []) = true := by
  decide

/-- T97, T98. -/
theorem test_rsv6 :
    ends (step (facing [0x86#8, 0x00#8])) (verdict .ok .none 0x6#4 0#64 2 []) = true ∧
    ends (step (facing [0x06#8, 0x00#8])) (verdict .protocolViolation .rsvNoFin 0x6#4 0#64 0 []) = true := by decide

/-- T99, T100. -/
theorem test_rsv7 :
    ends (step (facing [0x87#8, 0x00#8])) (verdict .ok .none 0x7#4 0#64 2 []) = true ∧
    ends (step (facing [0x07#8, 0x00#8])) (verdict .protocolViolation .rsvNoFin 0x7#4 0#64 0 []) = true := by decide

/-- T80. -/
theorem test_close :
    ends (step (facing [0x88#8, 0x02#8, 0x03#8, 0xE8#8]))
      (fun t => verdict .ok .none 0x8#4 2#64 4 [0x03#8, 0xE8#8] t && flags t == (true, false, false, false)) = true := by decide

/-- T78: close with fin = 0 declaring 256. -/
theorem test_close_cap :
    ends (step (facing [0x08#8, 0x7E#8, 0x01#8, 0x00#8])) (verdict .protocolViolation .ctrlLen 0x8#4 256#64 0 []) = true := by
  decide

/-- T86 (S8). -/
theorem test_ping :
    ends (step (facing ([0x89#8, 0x05#8] ++ hello))) (verdict .ok .none 0x9#4 5#64 7 hello) = true := by decide

/-- T72 at 126; `89 7E 00 7D` (T71 without its payload) at 125. -/
theorem test_ping_cap :
    ends (step (facing [0x89#8, 0x7E#8, 0x00#8, 0x7E#8])) (verdict .protocolViolation .ctrlLen 0x9#4 126#64 0 []) = true ∧
    ends (step (facing [0x89#8, 0x7E#8, 0x00#8, 0x7D#8])) (verdict .insufficientData .payload 0x9#4 125#64 0 []) = true := by
  decide

/-- T87 (S9). -/
theorem test_pong :
    ends (step (facing ([0x8A#8, 0x85#8, 0x37#8, 0xFA#8, 0x21#8, 0x3D#8] ++ maskedHello)))
      (verdict .ok .none 0xA#4 5#64 11 hello) = true := by decide

/-- T84: fin = 0 is passed through. -/
theorem test_pong_nofin :
    ends (step (facing [0x0A#8, 0x01#8, 0x55#8]))
      (fun t => verdict .ok .none 0xA#4 1#64 3 [0x55#8] t && !t.fin) = true := by decide

/-- T101, T115: both violations apply, CTRL_LEN is reported. -/
theorem test_rsvB :
    ends (step (facing [0x8B#8, 0x00#8])) (verdict .ok .none 0xB#4 0#64 2 []) = true ∧
    ends (step (facing [0x0B#8, 0x7E#8, 0x01#8, 0x00#8])) (verdict .protocolViolation .ctrlLen 0xB#4 256#64 0 []) = true := by
  decide

/-- T116, T104. -/
theorem test_rsvC :
    ends (step (facing [0x8C#8, 0x01#8, 0x5A#8])) (verdict .ok .none 0xC#4 1#64 3 [0x5A#8]) = true ∧
    ends (step (facing [0x0C#8, 0x00#8])) (verdict .protocolViolation .rsvNoFin 0xC#4 0#64 0 []) = true := by decide

/-- T105, T106. -/
theorem test_rsvD :
    ends (step (facing [0x8D#8, 0x00#8])) (verdict .ok .none 0xD#4 0#64 2 []) = true ∧
    ends (step (facing [0x0D#8, 0x00#8])) (verdict .protocolViolation .rsvNoFin 0xD#4 0#64 0 []) = true := by decide

/-- T107, T117. -/
theorem test_rsvE :
    ends (step (facing [0x8E#8, 0x00#8])) (verdict .ok .none 0xE#4 0#64 2 []) = true ∧
    ends (step (facing [0x7E#8, 0x00#8])) (verdict .protocolViolation .rsvNoFin 0xE#4 0#64 0 []) = true := by decide

/-- T120, T119. -/
theorem test_rsvF :
    ends (step (facing [0x8F#8, 0x81#8, 0xFF#8, 0#8, 0#8, 0#8, 0#8])) (verdict .ok .none 0xF#4 1#64 7 [0xFF#8]) = true ∧
    ends (step (facing (List.replicate 10 0xFF#8 ++ [1#8, 2#8, 3#8, 4#8])))
      (verdict .protocolViolation .ctrlLen 0xF#4 0xFFFFFFFFFFFFFFFF#64 0 []) = true := by decide

/-! ## One step: headers that break off, and the byte-serial steps -/

/-- T47, T54, T57. -/
theorem test_broken_headers :
    ends (step (facing [])) (fun t => t.kind == .insufficientData && t.cause == .hdr2) = true ∧
    ends (step (facing (0x81#8 :: 0x7F#8 :: List.replicate 7 0#8)))
      (fun t => t.kind == .insufficientData && t.cause == .ext && !t.hdrOk) = true ∧
    ends (step (facing [0x81#8, 0x85#8, 0x37#8, 0xFA#8, 0x21#8])) (fun t => t.cause == .key && t.status == 0x38#8) = true := by
  decide

/-- Trace V9b, step 5: the second EXT step. -/
def v9b4 : State :=
  { facingSerial [0x82#8, 0x7E#8, 0x00#8, 0x05#8, 0x01#8, 0x02#8, 0x03#8, 0x04#8, 0x05#8] with
    ph := .ext, avl := 9, pos := 3, fin := true, opc := 0x2#4, l7 := 126#7, extn := 1#4 }

theorem test_serial_ext :
    ends (step v9b4) (fun t => t.ph == .chk && t.pos == 4 && t.extn == 0#4 && t.plen == 5#64) = true := by decide

/-- Trace V9d, step 5: the EXT step that fails leaves EXTN = 1, PLEN = 1, POS = 3. -/
def v9d4 : State :=
  { facingSerial [0x81#8, 0x7E#8, 0x01#8] with
    ph := .ext, avl := 3, pos := 3, fin := true, opc := 0x1#4, l7 := 126#7, extn := 1#4, plen := 1#64 }

theorem test_serial_ext_fails :
    ends (step v9d4)
      (fun t => t.ph == .idle && t.cause == .ext && t.pos == 3 && t.extn == 1#4 && t.plen == 1#64 && t.cons == 0) = true := by
  decide

/-- Trace V9a, after step 6: three key bytes read. -/
def v9a6 : State :=
  { facingSerial ([0x81#8, 0x85#8, 0x37#8, 0xFA#8, 0x21#8, 0x3D#8] ++ maskedHello) with
    ph := .keyp, avl := 11, pos := 5, fin := true, opc := 0x1#4, msk := true, l7 := 5#7, plen := 5#64,
    key := ⟨0x37#8, 0xFA#8, 0x21#8, 0#8⟩, kcnt := 3#3 }

theorem test_serial_keyp : ends (step v9a6) (fun t => t.ph == .chk && t.key == key37 && t.kcnt == 4#3 && t.pos == 6) = true := by
  decide

/-- Trace V9a, after step 12: one payload byte to go. -/
def v9a12 : State :=
  { v9a6 with
    ph := .pay, pos := 10, key := key37, kcnt := 4#3, hlen := 6#4, idx := 4, hdrOk := true,
    out := [(0, 0x48#8), (1, 0x65#8), (2, 0x6C#8), (3, 0x6C#8)] }

theorem test_serial_last_pay :
    ends (step v9a12)
      (fun t => verdict .ok .none 0x1#4 5#64 11 hello t && t.consValid && t.consK == 11 && t.status == 0x06#8) = true := by
  decide

/-! ## The decoder, memory, reset -/

/-- T1, T7, T19. -/
theorem test_be16 :
    ends (exec (.be16 ⟨2#4, ⟨1#8, 0#8, 0#8, 0#8, 0#8, 0#8, 0#8, 0#8⟩⟩) State.reset) (fun t => t.beVal == 256#64 && !t.beErr) =
      true ∧
    ends (exec (.be16 ⟨4#4, ⟨1#8, 2#8, 3#8, 4#8, 0#8, 0#8, 0#8, 0#8⟩⟩) State.reset) State.beErr = true := by decide

/-- T2, T20. -/
theorem test_be32 :
    ends (exec (.be32 ⟨4#4, ⟨0x11#8, 0x10#8, 0xA0#8, 0x01#8, 0#8, 0#8, 0#8, 0#8⟩⟩) State.reset)
      (fun t => t.beVal == 0x1110A001#64 && !t.beErr) = true ∧
    ends (exec (.be32 ⟨2#4, BeIn.zero⟩) State.reset) State.beErr = true := by decide

/-- T15, T23. -/
theorem test_be64 :
    ends (exec (.be64 ⟨8#4, ⟨1#8, 2#8, 3#8, 4#8, 5#8, 6#8, 7#8, 8#8⟩⟩) State.reset)
      (fun t => t.beVal == 0x0102030405060708#64 && !t.beErr) = true ∧
    ends (exec (.be64 ⟨0#4, BeIn.zero⟩) State.reset) State.beErr = true := by decide

/-- T122: the key index wraps at 4 and 8. -/
theorem test_xorkey :
    xorkey [0#8, 1#8, 2#8, 3#8, 4#8, 5#8, 6#8, 7#8, 8#8] ⟨0xFF#8, 0x00#8, 0xF0#8, 0x0F#8⟩ =
      [0xFF#8, 0x01#8, 0xF2#8, 0x0C#8, 0xFB#8, 0x05#8, 0xF6#8, 0x08#8, 0xF7#8] := by decide

theorem test_reset_memory_canonical : Memory.wf State.reset.out ∧ State.reset.status = 0x00#8 := by decide

/-- S4 with one byte of the next frame behind it, at the function level. -/
theorem test_parse_hello :
    parse ([0x81#8, 0x05#8] ++ hello ++ [0x81#8]) =
      .ok (⟨⟨true, false, false, false, 0x1#4, false, 5#64, none⟩, hello⟩, 7) := by decide

/-! ## Witnesses: for every statement with hypotheses, values that meet all of them -/

def opsHello : FrameOps := plain true (.short 5#7)
def opsMasked : FrameOps := ⟨true, true, false, true, .short 5#7, some key37⟩
def winHello : List Byte := [0x81#8, 0x05#8] ++ hello

/-- DecodeOfEncodeIsInstr: every form at a boundary of its range. -/
theorem witness_wf :
    (Instr.text (plain false (.short 0#7))).wf = true ∧ (Instr.rsvF (plain true (.short 125#7))).wf = true ∧
    (Instr.cont ⟨true, true, true, true, .ext16 0xFFFF#16, some key37⟩).wf = true ∧
    (Instr.bin (plain true (.ext64 0xFFFFFFFFFFFFFFFF#64))).wf = true ∧ (Instr.be64 ⟨15#4, BeIn.zero⟩).wf = true := by decide

/-- EncodeOfDecodeIsPrefix and HeaderLengthFromByteOne: `L` = 0, 125, 126, 127, with and without a key; the three ports. -/
theorem witness_decode :
    decode (.frame [0x81#8, 0x00#8]) = .instr (.text (plain true (.short 0#7))) ∧
    decode (.frame [0x02#8, 0x7D#8]) = .instr (.bin (plain false (.short 125#7))) ∧
    decode (.frame [0x82#8, 0x7E#8, 0xFF#8, 0xFF#8]) = .instr (.bin (plain true (.ext16 0xFFFF#16))) ∧
    decode (.frame ([0x80#8, 0xFF#8, 0#8, 0#8, 0#8, 0#8, 0#8, 0#8, 0#8, 1#8] ++ key37.toList)) =
      .instr (.cont ⟨true, false, false, false, .ext64 1#64, some key37⟩) ∧
    decode (.ports 0#2 0#4 BeIn.zero) = .instr (.be16 ⟨0#4, BeIn.zero⟩) ∧
    decode (.ports 2#2 15#4 BeIn.zero) = .instr (.be64 ⟨15#4, BeIn.zero⟩) := by decide

/-- MissingHeaderBytesVerdict: each verdict one byte short of the next. -/
theorem witness_missing :
    decode (.frame []) = .rejected .hdr2 ∧ decode (.frame [0x81#8]) = .rejected .hdr2 ∧
    decode (.frame [0x81#8, 0x7E#8, 0x01#8]) = .rejected .ext ∧
    decode (.frame (0x81#8 :: 0xFF#8 :: List.replicate 7 0#8)) = .rejected .ext ∧
    decode (.frame [0x81#8, 0x80#8, 1#8, 2#8, 3#8]) = .rejected .key ∧
    decode (.frame [0x81#8, 0xFE#8, 0x01#8, 0x00#8]) = .rejected .key ∧
    decode (.frame (0x81#8 :: 0xFF#8 :: List.replicate 11 0#8)) = .rejected .key := by decide

/-- MissingHeaderBytesVerdict, the clause for a whole header: one with not a byte to spare, short, 16-bit with a key, 64-bit. -/
theorem witness_whole_header :
    2 ≤ ([0x81#8, 0x7D#8] : List Byte).length ∧ maskOf (byteAt [0x81#8, 0x7D#8] 1) = false ∧
    lenOf (byteAt [0x81#8, 0x7D#8] 1) = 125#7 ∧
    lenOf (byteAt (0x81#8 :: 0xFE#8 :: List.replicate 6 0#8) 1) = 126#7 ∧
    maskOf (byteAt (0x81#8 :: 0xFE#8 :: List.replicate 6 0#8) 1) = true ∧
    8 ≤ (0x81#8 :: 0xFE#8 :: List.replicate 6 0#8 : List Byte).length ∧
    lenOf (byteAt (0x81#8 :: 0x7F#8 :: List.replicate 8 0#8) 1) = 127#7 ∧
    maskOf (byteAt (0x81#8 :: 0x7F#8 :: List.replicate 8 0#8) 1) = false ∧
    10 ≤ (0x81#8 :: 0x7F#8 :: List.replicate 8 0#8 : List Byte).length := by decide

/-- StepRunsDecodedFrame. -/
theorem witness_step_frame :
    ParseAsked (facing winHello) ∧ (facing winHello).grain = .transaction ∧
    decode (.frame (facing winHello).window) = .instr (.text opsHello) := by
  unfold ParseAsked
  decide

/-- StepRunsDecoderOperation: the three widths. -/
theorem witness_step_decoder :
    State.reset.ph = .idle ∧ State.reset.start = false ∧ State.reset.rst = false ∧
    decode (.ports State.reset.beWidth State.reset.beLen State.reset.beIn) = .instr (.be16 ⟨0#4, BeIn.zero⟩) ∧
    decode (.ports (driveDecoder 1#2 4#4 BeIn.zero State.reset).beWidth 4#4 BeIn.zero) = .instr (.be32 ⟨4#4, BeIn.zero⟩) ∧
    decode (.ports (driveDecoder 2#2 8#4 BeIn.zero State.reset).beWidth 8#4 BeIn.zero) = .instr (.be64 ⟨8#4, BeIn.zero⟩) := by
  decide

/-- PlacedWordRuns. -/
theorem witness_placed :
    decodeTableWord 16 0x8105 = some (.text opsHello) ∧ decodeTableWord 2 2 = some (.be64 ⟨0#4, BeIn.zero⟩) := by decide

/-- BrokenHeaderTakesException: each cause that a window can have. -/
theorem witness_broken :
    ParseAsked (facing []) ∧ (facing []).grain = .transaction ∧ decode (.frame (facing []).window) = .rejected .hdr2 ∧
    ParseAsked (facing [0x81#8, 0x7E#8, 0x01#8]) ∧
    decode (.frame (facing [0x81#8, 0x7E#8, 0x01#8]).window) = .rejected .ext ∧
    ParseAsked (facing [0x81#8, 0x85#8]) ∧ decode (.frame (facing [0x81#8, 0x85#8]).window) = .rejected .key := by
  unfold ParseAsked
  decide

/-- ContCompletes, TextAndBinComplete, ControlFramesComplete, ReservedNonControlComplete, ReservedControlComplete: a whole
frame with nothing to spare, one with a key, an empty one, and one at the cap. -/
theorem witness_complete :
    (facing winHello).ph = .idle ∧ WholeFrame opsHello (facing winHello) ∧ opsHello.fin = true ∧ opsHello.plen.toNat ≤ 125 ∧
    WholeFrame opsMasked (facing (List.replicate 11 0x55#8)) ∧
    WholeFrame (plain false (.short 0#7)) (facing [0x00#8, 0x00#8]) ∧ (plain false (.short 0#7)).plen.toNat ≤ 125 ∧
    (facing (List.replicate 127 0#8)).ph = .idle ∧ (plain true (.short 125#7)).plen.toNat ≤ 125 := by
  unfold WholeFrame
  decide

theorem witness_complete_cap : WholeFrame (plain true (.short 125#7)) (facing (List.replicate 127 0#8)) := by
  show _ ≤ (List.replicate 127 0#8).length
  rw [List.length_replicate]
  decide

/-- CapViolationTraps and ReservedWithoutFinTraps: 126 bytes; 125 and 126 bytes without `fin`. -/
theorem witness_traps :
    (facing []).ph = .idle ∧ 125 < (plain false (.ext16 126#16)).plen.toNat ∧ (plain false (.ext16 126#16)).fin = false ∧
    (plain false (.short 125#7)).fin = false ∧ (plain false (.short 125#7)).plen.toNat ≤ 125 ∧
    Instr.rsvB (plain false (.short 125#7)) ∈ [Instr.rsvB (plain false (.short 125#7)), Instr.rsvC (plain false (.short 125#7)),
      Instr.rsvD (plain false (.short 125#7)), Instr.rsvE (plain false (.short 125#7)), Instr.rsvF (plain false (.short 125#7))] ∧
    Instr.rsv7 (plain false (.ext16 126#16)) ∈ [Instr.rsv3 (plain false (.ext16 126#16)), Instr.rsv4 (plain false (.ext16 126#16)),
      Instr.rsv5 (plain false (.ext16 126#16)), Instr.rsv6 (plain false (.ext16 126#16)),
      Instr.rsv7 (plain false (.ext16 126#16))] := by decide

/-- MissingPayloadTraps: one byte short, a control frame at the cap, a reserved opcode with `fin`. -/
theorem witness_missing_payload :
    (Instr.pong (plain true (.short 125#7))).frame? = some (0xA#4, plain true (.short 125#7)) ∧
    (8 ≤ (0xA#4).toNat → (plain true (.short 125#7)).plen.toNat ≤ 125) ∧
    (reserved 0xA#4 = true → (plain true (.short 125#7)).fin = true) ∧
    (facing (List.replicate 126 0#8)).ph = .idle ∧
    (Instr.rsv3 opsHello).frame? = some (0x3#4, opsHello) ∧ (8 ≤ (0x3#4).toNat → opsHello.plen.toNat ≤ 125) ∧
    (reserved 0x3#4 = true → opsHello.fin = true) ∧ ¬ WholeFrame opsHello (facing [0x83#8, 0x05#8]) := by
  unfold WholeFrame
  decide

theorem witness_missing_payload_cap : ¬ WholeFrame (plain true (.short 125#7)) (facing (List.replicate 126 0#8)) := by
  show ¬ (_ ≤ (List.replicate 126 0#8).length)
  rw [List.length_replicate]
  decide

/-- WhichFramesViolate: a violation of each kind, and none. -/
theorem witness_violate :
    (Instr.text opsHello).frame? = some (0x1#4, opsHello) ∧ (facing winHello).ph = .idle ∧
    (∃ t, exec (.text opsHello) (facing winHello) = .next t) ∧
    (∃ t, exec (.rsvB (plain false (.ext16 126#16))) (facing []) = .next t) ∧
    (∃ t, exec (.rsv3 (plain false (.short 0#7))) (facing []) = .next t) :=
  ⟨rfl, rfl, ⟨_, rfl⟩, ⟨_, rfl⟩, ⟨_, rfl⟩⟩

/-- StartIgnoredWhileBusy. -/
theorem witness_busy : v9a6.ph ≠ .idle ∧ (Instr.ping opsHello).frame? = some (0x9#4, opsHello) := by decide

/-- Be16Decodes, Be32Decodes, Be64Decodes: the length that matches. -/
theorem witness_be_len :
    (BeOps.mk 2#4 BeIn.zero).len = 2#4 ∧ (BeOps.mk 4#4 BeIn.zero).len = 4#4 ∧ (BeOps.mk 8#4 BeIn.zero).len = 8#4 := by decide

/-- BeDecodeIsBigEndianSum and BeDecodeInjective: sequences of each length, and one of another length. -/
theorem witness_be_sequences :
    ([1#8, 0#8] : List Byte).length = BeWidth.w16.bytes ∧ (hello.take 4).length = BeWidth.w32.bytes ∧
    (List.replicate 8 0xFF#8 : List Byte).length = BeWidth.w64.bytes ∧ ([] : List Byte).length ≠ BeWidth.w16.bytes ∧
    beDecode .w16 [1#8, 0#8] = beDecode .w16 [1#8, 0#8] := by decide

/-- StartStepClears and SerialAgreesWithTransaction. -/
theorem witness_serial_start :
    ParseAsked (facingSerial winHello) ∧ (facingSerial winHello).grain = .byteSerial ∧ ParseAsked (facingSerial []) := by
  unfold ParseAsked
  decide

/-- BZeroStep: `AVL` = 1 and 2. -/
theorem witness_b0 :
    (startStep (facing [0x81#8])).ph = .b0 ∧ (startStep (facing [0x81#8])).rst = false ∧ (startStep (facing [0x81#8])).avl < 2 ∧
    (startStep (facing [0x81#8, 0x00#8])).ph = .b0 ∧ 2 ≤ (startStep (facing [0x81#8, 0x00#8])).avl ∧
    (startStep (facing [0x81#8, 0x00#8])).window[0]? = some 0x81#8 := by decide

/-- A state in B1, for BOneStep. -/
def inB1 (b1 : Byte) : State := loadByte0 0x81#8 (startStep (facing [0x81#8, b1]))

/-- BOneStep: `L` = 125, 126, 127. -/
theorem witness_b1 :
    (inB1 0x7D#8).ph = .b1 ∧ (inB1 0x7D#8).rst = false ∧ 2 ≤ (inB1 0x7D#8).avl ∧ (inB1 0x7D#8).window[1]? = some 0x7D#8 ∧
    (inB1 0xFE#8).ph = .b1 ∧ (inB1 0xFE#8).window[1]? = some 0xFE#8 ∧
    (inB1 0x7F#8).ph = .b1 ∧ (inB1 0x7F#8).window[1]? = some 0x7F#8 := by decide

/-- ExtAndKeySteps: EXT and KEYP at AVL and one below. -/
theorem witness_ext_key :
    v9d4.rst = false ∧ v9d4.ph = .ext ∧ v9d4.avl ≤ v9d4.pos ∧
    v9b4.rst = false ∧ v9b4.ph = .ext ∧ v9b4.pos < v9b4.avl ∧ v9b4.window[v9b4.pos]? = some 0x05#8 ∧
    ({ v9a6 with avl := 5 }).ph = .keyp ∧ ({ v9a6 with avl := 5 }).avl ≤ ({ v9a6 with avl := 5 }).pos ∧
    v9a6.rst = false ∧ v9a6.ph = .keyp ∧ v9a6.kcnt.toNat ≤ 3 ∧ v9a6.pos < v9a6.avl ∧
    v9a6.window[v9a6.pos]? = some 0x3D#8 := by decide

/-- PayStep: the last byte, and one that is not. -/
theorem witness_pay :
    v9a12.ph = .pay ∧ v9a12.rst = false ∧ v9a12.pos < v9a12.avl ∧ v9a12.window[v9a12.pos]? = some 0x58#8 ∧
    v9a12.idx + 1 = v9a12.plen.toNat ∧
    ({ v9a12 with pos := 9, idx := 3 }).window[9]? = some 0x51#8 ∧ 3 + 1 ≠ v9a12.plen.toNat := by decide

/-- A state in CHK with opcode `op`, `FIN`, `PLEN`, and a two-byte header read from a window of `n` bytes, for ChkStep. -/
def inChk (fin : Bool) (op : BitVec 4) (plen : BitVec 64) (n : Nat) : State :=
  { facing (List.replicate n 0#8) with ph := .chk, avl := n, pos := 2, fin := fin, opc := op, plen := plen }

/-- R210: a pong of 125 bytes that are not there ends in PAYLOAD, with HDR_OK = 1 and HLEN written. -/
theorem test_chk_payload_missing :
    ends (step (inChk true 0xA#4 125#64 7)) (fun t => t.status == 0x4A#8 && t.hlen == 2#4 && t.cons == 0) = true := by decide

/-- R210: CTRL_LEN is tested before RSV_NOFIN and before the payload; HLEN is written, HDR_OK stays 0. -/
theorem test_chk_cap_first :
    ends (step (inChk false 0xB#4 126#64 2)) (fun t => t.status == 0x5C#8 && t.hlen == 2#4) = true := by decide

/-- ChkStep: the five endings at the boundaries between them: PLEN 126 and 125 with opcode 8, a reserved opcode without
`fin`, one payload byte short, PLEN = 0, and a payload with nothing to spare. -/
theorem witness_chk :
    (inChk true 0x8#4 126#64 2).ph = .chk ∧ (inChk true 0x8#4 126#64 2).rst = false ∧
    (inChk true 0x8#4 126#64 2).pos ≤ (inChk true 0x8#4 126#64 2).avl ∧ 8 ≤ (inChk true 0x8#4 126#64 2).opc.toNat ∧
    125 < (inChk true 0x8#4 126#64 2).plen.toNat ∧
    ¬ (8 ≤ (inChk false 0xF#4 125#64 2).opc.toNat ∧ 125 < (inChk false 0xF#4 125#64 2).plen.toNat) ∧
    reserved (inChk false 0xF#4 125#64 2).opc = true ∧ (inChk false 0xF#4 125#64 2).fin = false ∧
    ¬ (8 ≤ (inChk true 0x2#4 5#64 6).opc.toNat ∧ 125 < (inChk true 0x2#4 5#64 6).plen.toNat) ∧
    ¬ (reserved (inChk true 0x2#4 5#64 6).opc = true ∧ (inChk true 0x2#4 5#64 6).fin = false) ∧
    (inChk true 0x2#4 5#64 6).avl < (inChk true 0x2#4 5#64 6).pos + (inChk true 0x2#4 5#64 6).plen.toNat ∧
    (inChk true 0x2#4 0#64 2).plen.toNat = 0 ∧ (inChk true 0x2#4 0#64 2).pos ≤ (inChk true 0x2#4 0#64 2).avl ∧
    0 < (inChk true 0x2#4 5#64 7).plen.toNat ∧
    (inChk true 0x2#4 5#64 7).pos + (inChk true 0x2#4 5#64 7).plen.toNat ≤ (inChk true 0x2#4 5#64 7).avl := by decide

/-- IdleChangesNothing, ResetClearsRegisters, ParseAfterResetSeesSameWindow (in the middle of a transaction). -/
theorem witness_idle_reset :
    State.reset.ph = .idle ∧ State.reset.start = false ∧ State.reset.rst = false ∧
    (hostReset true v9a12).rst = true ∧ (hostReset true v9a12).start = true := by decide

/-- StepKeepsInvariant, NoStopUnderInvariant, StatusIsLegal, PosAdvancesByOne, EveryTransactionEnds: the invariant in IDLE. -/
theorem witness_invariant_idle : Invariant (facing winHello) := by
  constructor <;> first | decide | (unfold PhaseInv; simp only [facing, State.reset]; decide)

theorem witness_invariant_ext : Invariant v9b4 ∧ v9b4.ph ≠ .idle ∧ v9b4.rst = false := by
  refine ⟨?_, by decide, by decide⟩
  constructor <;> first | decide | (unfold PhaseInv; simp only [v9b4]; decide)

theorem witness_invariant_keyp : Invariant v9a6 ∧ v9a6.ph ≠ .idle ∧ v9a6.rst = false := by
  refine ⟨?_, by decide, by decide⟩
  constructor <;> first | decide | (unfold PhaseInv; simp only [v9a6]; decide)

theorem witness_invariant_pay : Invariant v9a12 ∧ v9a12.ph ≠ .idle ∧ v9a12.rst = false := by
  refine ⟨?_, by decide, by decide⟩
  constructor <;> first | decide | (unfold PhaseInv; simp only [v9a12]; decide)

/-- A step from each of these answers a next state: at the transaction grain, EXT, KEYP and the last PAY; a CHK step. -/
theorem witness_steps :
    (∃ t, step (facing winHello) = .next t ∧ decide (t.kind = .ok) = true) ∧
    (∃ t, step v9b4 = .next t ∧ decide (t.ph = .chk) = true) ∧
    (∃ t, step v9a6 = .next t ∧ decide (t.pos = 6) = true) ∧
    (∃ t, step v9a12 = .next t ∧ decide (t.cons = 11) = true) ∧
    (∃ t, step { v9a6 with ph := .chk, pos := 6, key := key37, kcnt := 4#3 } = .next t ∧ decide (t.ph = .pay) = true) :=
  ⟨ends_next (by decide), ends_next (by decide), ends_next (by decide), ends_next (by decide), ends_next (by decide)⟩

/-- StepKeepsOutCanonical, OutWrittenOnlyOnSuccess (a PAY step and one that is not; the clause under the invariant is met by
witness_invariant_pay and witness_steps together), WindowMovesOnlyByConsume. -/
theorem witness_out :
    Memory.wf v9a12.out ∧ v9a12.ph = .pay ∧ 0 ≠ v9a12.idx ∧ v9b4.ph ≠ .pay ∧
    (∃ t, step v9b4 = .next t ∧ decide (t.kind ≠ .ok) = true) :=
  ⟨by decide, by decide, by decide, by decide, ends_next (by decide)⟩

/-- InstanceIsNeverOutgrown: an instance whose IN_CAP and OUT_CAP the frame fills to the last byte. -/
theorem witness_fits : 7 - 2 ≤ 5 ∧ Invariant (facing winHello) ∧ FitsInstance 7 5 (facing winHello) := by
  refine ⟨by decide, witness_invariant_idle, by decide, by decide, by decide, ?_⟩
  intro a h
  exact absurd h (by simp [facing, State.reset])

/-- TransactionAgreesWithParse, ResultDependsOnWindowOnly: two states that differ in OUT, KEY and the ports. -/
def otherHello : State :=
  { facing winHello with out := [(3, 1#8), (9, 2#8)], key := key37, beWidth := 2#2, kind := .ok, consK := 77 }

theorem witness_two_states :
    ParseAsked (facing winHello) ∧ ParseAsked otherHello ∧ (facing winHello).grain = .transaction ∧
    otherHello.grain = .transaction ∧ (facing winHello).window = otherHello.window ∧
    (∃ t, step (facing winHello) = .next t ∧ decide (t.kind = .ok) = true) ∧
    (∃ t, step otherHello = .next t ∧ decide (0 < t.plen.toNat) = true) :=
  ⟨by unfold ParseAsked; decide, by unfold ParseAsked; decide, rfl, rfl, rfl, ends_next (by decide), ends_next (by decide)⟩

/-- HostReadsTheMessage: a Message; no Message but a header; no header. -/
theorem witness_host_reads :
    parse winHello = .ok (⟨⟨true, false, false, false, 0x1#4, false, 5#64, none⟩, hello⟩, 7) ∧
    parse (winHello.take 6) = .err .insufficientData .payload ∧
    parseHeader (winHello.take 6) = .ok (⟨true, false, false, false, 0x1#4, false, 5#64, none⟩, 2) ∧
    parseHeader [0x03#8, 0x00#8] = .err .protocolViolation .rsvNoFin ∧
    parse [0x03#8, 0x00#8] = .err .protocolViolation .rsvNoFin ∧
    (∃ t, step (facing (winHello.take 6)) = .next t ∧ decide (t.cause = .payload) = true) ∧
    (∃ t, step (facing [0x03#8, 0x00#8]) = .next t ∧ decide (t.cause = .rsvNoFin) = true) :=
  ⟨by decide, by decide, by decide, by decide, by decide, ends_next (by decide), ends_next (by decide)⟩

/-- RetryAfterMoreBytes: header short, payload short. -/
theorem witness_retry :
    (∃ t, step (facing [0x81#8]) = .next t ∧ decide (t.kind = .insufficientData) = true) ∧
    (∃ t, step (facing (winHello.take 6)) = .next t ∧ decide (t.kind = .insufficientData) = true) :=
  ⟨ends_next (by decide), ends_next (by decide)⟩

/-- GrowthKeepsVerdict, ProperPrefixIsInsufficient, MessageIsWellFormed (a control frame; a reserved opcode),
HeaderErrorsComeFirst. -/
theorem witness_parse :
    parse [0x89#8, 0x00#8] = .ok (⟨⟨true, false, false, false, 0x9#4, false, 0#64, none⟩, []⟩, 2) ∧ 1 < 2 ∧
    parse [0x8B#8, 0x01#8, 0x41#8] = .ok (⟨⟨true, false, false, false, 0xB#4, false, 1#64, none⟩, [0x41#8]⟩, 3) ∧
    8#4 ≤ 0xB#4 ∧ reserved 0xB#4 = true ∧
    parse [0x89#8, 0x7E#8, 0x00#8, 0x7E#8] = .err .protocolViolation .ctrlLen ∧
    parseHeader [0x81#8, 0x85#8] = .err .insufficientData .key ∧
    parse [0x81#8, 0x01#8] = .err .insufficientData .payload ∧
    parse [0x07#8, 0x00#8] = .err .protocolViolation .rsvNoFin := by decide

/-- ClassificationOfEveryOpcode: an opcode of the last clause. -/
theorem witness_reserved_opcode : (11#4 : BitVec 4) ≤ 15#4 := by decide

/-- FrameBeyondCapacityNeverParses: IN_CAP = 6, a frame of 7 bytes. -/
theorem witness_beyond :
    ParseAsked (facing (winHello.take 6)) ∧ (facing (winHello.take 6)).grain = .transaction ∧
    (facing (winHello.take 6)).avail ≤ 6 ∧ decode (.frame (facing (winHello.take 6)).window) = .instr (.text opsHello) ∧
    (Instr.text opsHello).frame? = some (0x1#4, opsHello) ∧ 6 < opsHello.hlen + opsHello.plen.toNat ∧
    (8 ≤ (0x1#4).toNat → opsHello.plen.toNat ≤ 125) ∧ (reserved 0x1#4 = true → opsHello.fin = true) := by
  unfold ParseAsked
  decide

end Sys2Proof.Tests
end

/-! # The family 00_scope: opcode classes, frames beyond the capacity, bounds of a configuration -/

namespace Sys2Proof.Machine

/-! ## The classes of opcode (00_scope.md R15) -/

theorem reserved_iff (op : BitVec 4) :
    reserved op = true ↔ (3 ≤ op.toNat ∧ op.toNat ≤ 7) ∨ (11 ≤ op.toNat ∧ op.toNat ≤ 15) := by
  revert op; decide

theorem knownCtrl_iff (op : BitVec 4) :
    knownCtrl op = true ↔ op.toNat = 8 ∨ op.toNat = 9 ∨ op.toNat = 10 := by
  revert op; decide

theorem opclass_eq_reservedNonControl_iff (op : BitVec 4) :
    opclass op = .reservedNonControl ↔ 3 ≤ op.toNat ∧ op.toNat ≤ 7 := by
  revert op; decide

theorem opclass_eq_reservedControl_iff (op : BitVec 4) : opclass op = .reservedControl ↔ 11 ≤ op.toNat := by
  revert op; decide

/-- Settles O45: each predicate by its own characterisation over the sixteen opcodes. -/
theorem opcodeClasses : Obligations.OpcodeClasses := fun op =>
  ⟨reserved_iff op, ctrlRange_iff op, knownCtrl_iff op, opclass_eq_reservedNonControl_iff op,
    opclass_eq_reservedControl_iff op, rfl, rfl, rfl, rfl, rfl, rfl⟩

/-! ## A frame beyond the capacity -/

/-- At the transaction grain a step from IDLE with `start = 1` carries out the frame the window holds, from CHK on the
registers its header fills (43_message_parser.md R205). -/
theorem step_of_frame {s : State} {i : Instr} {op : BitVec 4} {f : FrameOps} (hs : ParseAsked s)
    (hg : s.grain = .transaction) (hd : decode (.frame s.window) = .instr i) (hi : i.frame? = some (op, f)) :
    step s = .next (transport (chkAndPay (loadHeader op f (startStep (quiet s))))) := by
  have hstart : wsfpStep (quiet s) = startAtGrain (quiet s) := wsfpStep_start hs
  have hparse : startAtGrain (quiet s) = parseStep (quiet s) := by simp [startAtGrain, hg]
  have hexec : parseStep (quiet s) = exec i (quiet s) := by simp [parseStep, hd]
  have hidle : (quiet s).ph = .idle := hs.1
  rw [step_eq, hstart, hparse, hexec, exec_of_frame? hi, parseFrame_idle op f hidle, onNext_next]

/-- Where the header breaks no rule and fewer than PLEN bytes follow it, the transaction ends in PAYLOAD
(43_message_parser.md R210). -/
theorem chkAndPay_of_short_payload {s : State} (hcap : ¬ (ctrlRange s.opc = true ∧ 125#64 < s.plen))
    (hrsv : ¬ (reserved s.opc = true ∧ s.fin = false)) (hshort : s.avl < s.pos + s.plen.toNat) :
    chkAndPay s = fail .insufficientData .payload { s with hlen := BitVec.ofNat 4 s.pos, hdrOk := true } := by
  rcases chkAndPay_cases s with ⟨h, -⟩ | ⟨-, h, -⟩ | ⟨-, -, -, h⟩ | ⟨-, -, h, -⟩
  · exact absurd h hcap
  · exact absurd h hrsv
  · exact h
  · omega

/-- Settles O59: the window holds at most IN_CAP bytes, fewer than the frame needs, so CHK ends in PAYLOAD. -/
theorem frameBeyondCapacityNeverParses : Obligations.FrameBeyondCapacityNeverParses := by
  intro inCap s i op f hs hg hfit hd hi hbig hcap hrsv
  refine ⟨_, step_of_frame hs hg hd hi, ?_⟩
  have hcap' : ¬ (ctrlRange op = true ∧ 125#64 < f.plen) := by
    rw [ctrlRange_iff, lt_125_iff]
    omega
  have hrsv' : ¬ (reserved op = true ∧ f.fin = false) := by
    rintro ⟨hr, hf⟩
    simp [hrsv hr] at hf
  have hshort : s.window.length < f.hlen + f.plen.toNat := lt_of_le_of_lt hfit hbig
  rw [chkAndPay_of_short_payload hcap' hrsv' hshort]
  simp [transport_window]

/-! ## The bounds that IN_CAP and OUT_CAP set (00_scope.md R9, 10_state.md R24, 20_memory.md R63) -/

/-- A register of AVAIL_W bits holds every number up to the capacity (R9 (a)). -/
theorem lt_two_pow_availBits {x cap : Nat} (h : x ≤ cap) : x < 2 ^ availBits cap :=
  lt_of_lt_of_le (Nat.lt_succ_of_le h) (Nat.le_pow_clog (by decide) (cap + 1))

/-- The spec's constraint on OUT_CAP holds of Config's (R63). -/
theorem inCap_sub_two_le_outCap : Config.inCap - 2 ≤ Config.outCap := Nat.le_add_right _ _

/-- OUT lists only addresses below `o`. -/
def OutBelow (o : Nat) (m : List Host.Cell) : Prop := ∀ a, (Memory.read m a).isSome = true → a < o

theorem OutBelow.write {o : Nat} {m : List Host.Cell} (h : OutBelow o m) {a : Nat} (ha : a < o) (b : Byte) :
    OutBelow o (Memory.write m a b) := by
  intro x hx
  rw [Memory.read_write] at hx
  by_cases hax : a = x
  · exact hax ▸ ha
  · exact h x (by simpa [hax] using hx)

theorem OutBelow.writeBytes {o : Nat} {m : List Host.Cell} (h : OutBelow o m) {a : Nat} {bs : List Byte}
    (ha : a + bs.length ≤ o) : OutBelow o (Memory.writeBytes m a bs) := by
  intro x hx
  rw [Memory.read_writeBytes] at hx
  by_cases hin : a ≤ x ∧ x < a + bs.length
  · exact lt_of_lt_of_le hin.2 ha
  · exact h x (by simpa [hin] using hx)

/-- The bounds of FitsInstance with those of POS and CONS, the two registers it leaves to the invariant. -/
structure WithinInstance (inCap outCap : Nat) (s : State) : Prop extends FitsInstance inCap outCap s where
  posLe : s.pos ≤ inCap
  consLe : s.cons ≤ inCap

/-- CONS is POS after a success and 0 otherwise, so it never passes AVL (43_message_parser.md R212, R216). -/
theorem Invariant.cons_le_avl {s : State} (h : Invariant s) : s.cons ≤ s.avl := by
  by_cases hp : s.ph = .idle
  · have hph := h.phase
    simp only [PhaseInv, hp] at hph
    obtain ⟨-, hok, hnot⟩ := hph
    by_cases hk : s.kind = .ok
    · obtain ⟨-, hpos, -⟩ := hok hk
      exact hpos ▸ h.posLe
    · exact hnot hk ▸ Nat.zero_le _
  · exact (h.busyNone hp).2 ▸ Nat.zero_le _

/-- The pulse of the step before going low keeps the invariant. -/
theorem Invariant.quiet {s : State} (h : Invariant s) : Invariant (quiet s) :=
  { outWf := h.outWf, paired := h.paired, posLe := h.posLe, busyNone := h.busyNone, windowKept := h.windowKept,
    extnLe := h.extnLe, kcntLe := h.kcntLe, hlenLegal := h.hlenLegal, keyZero := h.keyZero, cap := h.cap,
    noRsvNoFin := h.noRsvNoFin, pulse := nofun, phase := h.phase }

theorem two_le_hlen (f : FrameOps) : 2 ≤ f.hlen := by
  unfold FrameOps.hlen
  omega

theorem State.two_le_announced (s : State) : 2 ≤ s.announced := by
  unfold State.announced
  omega

/-- What a step that reads header bytes leaves as it is, and how far POS may go: the phases B0, B1, EXT and KEYP
(43_message_parser.md R206 to R209). -/
structure HeaderFrame (s t : State) : Prop where
  avl : t.avl = s.avl
  window : t.window = s.window
  out : t.out = s.out
  idx : t.idx = s.idx
  cons : t.cons = s.cons
  posLe : t.pos ≤ max s.pos s.avl

theorem HeaderFrame.refl (s : State) : HeaderFrame s s := ⟨rfl, rfl, rfl, rfl, rfl, le_max_left _ _⟩

theorem HeaderFrame.fail (k : Kind) (c : Cause) (s : State) : HeaderFrame s (fail k c s) :=
  ⟨rfl, rfl, rfl, rfl, rfl, le_max_left _ _⟩

theorem b0Step_frame {s t : State} (h : b0Step s = .next t) : HeaderFrame s t := by
  unfold b0Step at h
  split at h
  · cases h
    exact .fail ..
  · obtain ⟨ha, b, -, hb⟩ := readWindow_eq_next h
    cases hb
    exact ⟨rfl, rfl, rfl, rfl, rfl, le_max_of_le_right ha⟩

theorem b1Step_frame {s t : State} (h : b1Step s = .next t) : HeaderFrame s t := by
  obtain ⟨ha, b, -, hb⟩ := readWindow_eq_next h
  cases hb
  exact ⟨rfl, rfl, rfl, rfl, rfl, le_max_of_le_right ha⟩

theorem extStep_frame {s t : State} (h : extStep s = .next t) : HeaderFrame s t := by
  unfold extStep at h
  split at h
  · cases h
    exact .fail ..
  · obtain ⟨ha, b, -, hb⟩ := readWindow_eq_next h
    cases hb
    exact ⟨rfl, rfl, rfl, rfl, rfl, le_max_of_le_right ha⟩

theorem keypStep_frame {s t : State} (h : keypStep s = .next t) : HeaderFrame s t := by
  unfold keypStep at h
  split at h
  · cases h
    exact .fail ..
  · split at h
    · obtain ⟨ha, b, -, hb⟩ := readWindow_eq_next h
      cases hb
      exact ⟨rfl, rfl, rfl, rfl, rfl, le_max_of_le_right ha⟩
    · cases h

namespace WithinInstance

variable {inCap outCap : Nat} {s t : State}

theorem of_invariant (hi : Invariant s) (hf : FitsInstance inCap outCap s) : WithinInstance inCap outCap s :=
  { hf with posLe := hi.posLe.trans hf.avlLe, consLe := hi.cons_le_avl.trans hf.avlLe }

theorem fail (h : WithinInstance inCap outCap s) (k : Kind) (c : Cause) : WithinInstance inCap outCap (fail k c s) :=
  ⟨⟨h.availLe, h.avlLe, h.idxLe, h.outLt⟩, h.posLe, h.consLe⟩

theorem finish (h : WithinInstance inCap outCap s) {total : Nat} (ht : total ≤ inCap) :
    WithinInstance inCap outCap (finish total s) :=
  ⟨⟨h.availLe, h.avlLe, h.idxLe, h.outLt⟩, h.posLe, ht⟩

theorem quiet (h : WithinInstance inCap outCap s) : WithinInstance inCap outCap (quiet s) :=
  ⟨⟨h.availLe, h.avlLe, h.idxLe, h.outLt⟩, h.posLe, h.consLe⟩

theorem resetStep (h : WithinInstance inCap outCap s) : WithinInstance inCap outCap (resetStep s) :=
  ⟨⟨h.availLe, Nat.zero_le _, Nat.zero_le _, h.outLt⟩, Nat.zero_le _, Nat.zero_le _⟩

theorem startStep (h : WithinInstance inCap outCap s) : WithinInstance inCap outCap (startStep s) :=
  ⟨⟨h.availLe, h.availLe, Nat.zero_le _, h.outLt⟩, Nat.zero_le _, Nat.zero_le _⟩

/-- The transport only takes bytes away. -/
theorem transport (h : WithinInstance inCap outCap s) : WithinInstance inCap outCap (transport s) := by
  unfold Machine.transport
  split
  · have havail : (s.window.drop s.consK).length ≤ inCap := by
      rw [List.length_drop]
      exact (Nat.sub_le _ _).trans h.availLe
    exact ⟨⟨havail, h.avlLe, h.idxLe, h.outLt⟩, h.posLe, h.consLe⟩
  · exact h

theorem of_headerFrame (h : WithinInstance inCap outCap s) (ht : HeaderFrame s t) : WithinInstance inCap outCap t where
  availLe := by rw [State.avail, ht.window]; exact h.availLe
  avlLe := ht.avl ▸ h.avlLe
  idxLe := ht.idx ▸ h.idxLe
  outLt := ht.out ▸ h.outLt
  posLe := ht.posLe.trans (max_le h.posLe h.avlLe)
  consLe := ht.cons ▸ h.consLe

/-- A header that breaks off leaves POS at the bytes read, all of the window at most. -/
theorem failHeader (h : WithinInstance inCap outCap s) (r : Reject) : WithinInstance inCap outCap (failHeader r s) := by
  have hs := h.startStep
  cases r with
  | hdr2 => exact hs.fail ..
  | ext => exact ⟨⟨h.availLe, h.availLe, hs.idxLe, h.outLt⟩, h.availLe, hs.consLe⟩
  | key => exact ⟨⟨h.availLe, h.availLe, hs.idxLe, h.outLt⟩, h.availLe, hs.consLe⟩
  | noWidth => exact h

theorem loadHeader (h : WithinInstance inCap outCap s) (op : BitVec 4) {f : FrameOps} (hf : f.hlen ≤ inCap) :
    WithinInstance inCap outCap (loadHeader op f s) :=
  ⟨⟨h.availLe, h.avlLe, h.idxLe, h.outLt⟩, hf, h.consLe⟩

/-- HLEN and HDR_OK are under no bound here. -/
theorem headerChecked (h : WithinInstance inCap outCap s) (n : BitVec 4) (b : Bool) :
    WithinInstance inCap outCap { s with hlen := n, hdrOk := b } :=
  ⟨⟨h.availLe, h.avlLe, h.idxLe, h.outLt⟩, h.posLe, h.consLe⟩

/-- CHK moves neither POS nor AVL nor OUT; a success consumes POS bytes (43_message_parser.md R210). -/
theorem chkStep (h : WithinInstance inCap outCap s) : WithinInstance inCap outCap (chkStep s) := by
  rcases chkStep_cases s with ⟨-, e⟩ | ⟨-, -, e⟩ | ⟨-, -, -, e⟩ | ⟨-, -, -, -, e⟩ | ⟨-, -, -, -, e⟩ <;> rw [e]
  · exact (h.headerChecked _ s.hdrOk).fail ..
  · exact (h.headerChecked _ s.hdrOk).fail ..
  · exact (h.headerChecked _ true).fail ..
  · exact (h.headerChecked _ true).finish h.posLe
  · exact ⟨⟨h.availLe, h.avlLe, Nat.zero_le _, h.outLt⟩, h.posLe, h.consLe⟩

/-- From CHK to the end of a transaction: the payload that is written fits AVL behind a header of two bytes or more. -/
theorem chkAndPay (h : WithinInstance inCap outCap s) (hcap : inCap - 2 ≤ outCap) (hpos : 2 ≤ s.pos) (hidx : s.idx = 0) :
    WithinInstance inCap outCap (chkAndPay s) := by
  rcases chkAndPay_cases s with ⟨-, e⟩ | ⟨-, -, e⟩ | ⟨-, -, -, e⟩ | ⟨-, -, hfit, x, hx, e⟩ <;> rw [e]
  · exact (h.headerChecked _ s.hdrOk).fail ..
  · exact (h.headerChecked _ s.hdrOk).fail ..
  · exact (h.headerChecked _ true).fail ..
  · have hin : s.pos + s.plen.toNat ≤ inCap := hfit.trans h.avlLe
    have hxle : x ≤ inCap := hx (.inr hidx) ▸ (Nat.le_add_left _ _).trans hin
    have hpay : (payloadOf s).length ≤ s.plen.toNat := by simp [payloadOf]
    have hout : OutBelow outCap (Memory.writeBytes s.out 0 (payloadOf s)) :=
      OutBelow.writeBytes h.outLt (by omega)
    exact ⟨⟨h.availLe, h.avlLe, hxle, hout⟩, hin, hin⟩

/-- A PAY step writes OUT at IDX, below PLEN (43_message_parser.md R213, R216 (c)). -/
theorem payStep (h : WithinInstance inCap outCap s) (hcap : inCap - 2 ≤ outCap) (hi : Invariant s) (hp : s.ph = .pay)
    (ht : payStep s = .next t) : WithinInstance inCap outCap t := by
  have hph := hi.phase
  simp only [PhaseInv, hp] at hph
  obtain ⟨-, -, hhlen, -, hidx, hfit, -⟩ := hph
  have hin : s.hlen.toNat + s.plen.toNat ≤ inCap := hfit.trans h.avlLe
  have hheader := s.two_le_announced
  obtain ⟨hpos, b, -, hb⟩ := readWindow_eq_next ht
  have hpos' : s.pos + 1 ≤ inCap := Nat.le_trans hpos h.avlLe
  have hwritten : WithinInstance inCap outCap { s with
      out := Memory.write s.out s.idx (unmaskByte s.msk s.key s.idx b), idx := s.idx + 1, pos := s.pos + 1 } :=
    ⟨⟨h.availLe, h.avlLe, show s.idx + 1 ≤ inCap by omega, OutBelow.write h.outLt (by omega) _⟩, hpos', h.consLe⟩
  cases hb
  split
  · exact hwritten.finish hpos'
  · exact hwritten

/-- A step of a running transaction, phase by phase. -/
theorem serialStep (h : WithinInstance inCap outCap s) (hcap : inCap - 2 ≤ outCap) (hi : Invariant s)
    (ht : serialStep s = .next t) : WithinInstance inCap outCap t := by
  unfold Machine.serialStep at ht
  cases hp : s.ph <;> simp only [hp] at ht
  case idle => exact h.of_headerFrame (Host.Outcome.next.inj ht ▸ .refl s)
  case b0 => exact h.of_headerFrame (b0Step_frame ht)
  case b1 => exact h.of_headerFrame (b1Step_frame ht)
  case ext => exact h.of_headerFrame (extStep_frame ht)
  case keyp => exact h.of_headerFrame (keypStep_frame ht)
  case chk => exact Host.Outcome.next.inj ht ▸ h.chkStep
  case pay => exact h.payStep hcap hi hp ht

/-- WSFP's own step, in each form it can take. -/
theorem wsfpStep (h : WithinInstance inCap outCap s) (hcap : inCap - 2 ≤ outCap) (hi : Invariant s)
    (ht : wsfpStep s = .next t) : WithinInstance inCap outCap t := by
  rcases wsfpStep_cases s with ⟨-, e⟩ | ⟨-, -, -, e⟩ | ⟨-, -, e⟩ | ⟨-, -, r, -, e⟩ | ⟨-, -, op, f, -, hf, e⟩ |
      ⟨-, -, e⟩ <;> rw [e] at ht
  · exact Host.Outcome.next.inj ht ▸ h.resetStep
  · exact Host.Outcome.next.inj ht ▸ h
  · exact Host.Outcome.next.inj ht ▸ h.startStep
  · exact Host.Outcome.next.inj ht ▸ h.failHeader r
  · have hloaded := h.startStep.loadHeader op (hf.trans h.availLe)
    exact Host.Outcome.next.inj ht ▸ hloaded.chkAndPay hcap (two_le_hlen f) rfl
  · exact h.serialStep hcap hi ht

theorem step (h : WithinInstance inCap outCap s) (hcap : inCap - 2 ≤ outCap) (hi : Invariant s)
    (ht : step s = .next t) : WithinInstance inCap outCap t := by
  obtain ⟨u, hu, rfl⟩ := onNext_eq_next.1 (step_eq s ▸ ht)
  exact (h.quiet.wsfpStep hcap hi.quiet hu).transport

end WithinInstance

/-- Settles O39: a step keeps the bounds of FitsInstance together with those of POS and CONS, and AVAIL_W bits hold every
number within IN_CAP. -/
theorem instanceIsNeverOutgrown : Obligations.InstanceIsNeverOutgrown := by
  refine ⟨inCap_sub_two_le_outCap, fun inCap outCap s t hcap hi hf ht => ?_⟩
  have hw : WithinInstance inCap outCap t := (WithinInstance.of_invariant hi hf).step hcap hi ht
  exact ⟨hw.toFitsInstance, lt_two_pow_availBits hw.avlLe, lt_two_pow_availBits hw.posLe,
    lt_two_pow_availBits hw.idxLe, lt_two_pow_availBits hw.consLe⟩

end Sys2Proof.Machine

/-! # The family 10_state: STATUS and the flags, OUT, POS, the decoder's ports, what a transaction leaves -/

namespace Sys2Proof.Machine

/-! ## The step of a running transaction -/

/-- The header phases leave AVL, the window, OUT, IDX and CONS as they are (43_message_parser.md R206 to R209). -/
theorem serialStep_headerFrame {s t : State} (hchk : s.ph ≠ .chk) (hpay : s.ph ≠ .pay) (h : serialStep s = .next t) :
    HeaderFrame s t := by
  unfold serialStep at h
  cases hp : s.ph <;> simp only [hp] at h
  case idle => exact Host.Outcome.next.inj h ▸ .refl s
  case b0 => exact b0Step_frame h
  case b1 => exact b1Step_frame h
  case ext => exact extStep_frame h
  case keyp => exact keypStep_frame h
  case chk => exact absurd hp hchk
  case pay => exact absurd hp hpay

theorem serialStep_of_chk {s : State} (hp : s.ph = .chk) : serialStep s = .next (chkStep s) := by
  simp only [serialStep, hp]

/-- A PAY step that goes on found its byte below AVL (R213). -/
theorem serialStep_of_pay {s t : State} (hp : s.ph = .pay) (h : serialStep s = .next t) :
    s.pos < s.avl ∧ ∃ b, serialStep s = .next (if s.idx + 1 = s.plen.toNat then finish (s.pos + 1) { s with
        out := Memory.write s.out s.idx (unmaskByte s.msk s.key s.idx b), idx := s.idx + 1, pos := s.pos + 1 }
      else { s with
        out := Memory.write s.out s.idx (unmaskByte s.msk s.key s.idx b), idx := s.idx + 1, pos := s.pos + 1 }) := by
  have hpay : payStep s = .next t := by simpa only [serialStep, hp] using h
  obtain ⟨hlt, b, hb, -⟩ := readWindow_eq_next hpay
  exact ⟨hlt, b, serialStep_pay hp hlt hb⟩

/-- CHK writes no memory and does not move POS (R210). -/
theorem chkStep_out_pos (s : State) : (chkStep s).out = s.out ∧ (chkStep s).pos = s.pos := by
  rcases chkStep_cases s with ⟨-, e⟩ | ⟨-, -, e⟩ | ⟨-, -, -, e⟩ | ⟨-, -, -, -, e⟩ | ⟨-, -, -, -, e⟩ <;>
    simp [e]

/-- A step that is not stopped, taken apart into WSFP's own step and the transport's answer. -/
theorem step_eq_next {s t : State} (h : step s = .next t) : ∃ u, wsfpStep (quiet s) = .next u ∧ t = transport u := by
  obtain ⟨u, hu, rfl⟩ := onNext_eq_next.1 (step_eq s ▸ h)
  exact ⟨u, hu, rfl⟩

/-- A step of a running transaction that is not stopped and not reset. -/
theorem step_busy_eq_next {s t : State} (hp : s.ph ≠ .idle) (hr : s.rst = false) (h : step s = .next t) :
    ∃ u, serialStep (quiet s) = .next u ∧ t = transport u := by
  obtain ⟨u, hu, rfl⟩ := onNext_eq_next.1 (step_busy hp hr ▸ h)
  exact ⟨u, hu, rfl⟩

/-! ## What a step can do to OUT (10_state.md R34, 20_memory.md R67) -/

/-- All that the step from `s` to `t` can have done to OUT: nothing, one write at IDX in PAY, or the payload of a
transaction that ended with KIND = OK. -/
def OutEffect (s t : State) : Prop :=
  t.out = s.out ∨
  (s.ph = .pay ∧ ∃ b, t.out = Memory.write s.out s.idx b) ∨
  (s.ph = .idle ∧ t.kind = .ok ∧ ∃ bs, t.out = Memory.writeBytes s.out 0 bs)

/-- From CHK to the end, OUT is written only where KIND ends as OK. -/
theorem chkAndPay_out (s : State) :
    (chkAndPay s).out = s.out ∨ ((chkAndPay s).kind = .ok ∧ ∃ bs, (chkAndPay s).out = Memory.writeBytes s.out 0 bs) := by
  rcases chkAndPay_cases s with ⟨-, e⟩ | ⟨-, -, e⟩ | ⟨-, -, -, e⟩ | ⟨-, -, -, x, -, e⟩ <;> rw [e]
  · exact .inl rfl
  · exact .inl rfl
  · exact .inl rfl
  · exact .inr ⟨rfl, _, rfl⟩

theorem serialStep_outEffect {s t : State} (h : serialStep s = .next t) : OutEffect s t := by
  by_cases hpay : s.ph = .pay
  · obtain ⟨-, b, hb⟩ := serialStep_of_pay hpay h
    cases hb.symm.trans h
    refine .inr (.inl ⟨hpay, unmaskByte s.msk s.key s.idx b, ?_⟩)
    split <;> rfl
  · by_cases hchk : s.ph = .chk
    · cases (serialStep_of_chk hchk).symm.trans h
      exact .inl (chkStep_out_pos s).1
    · exact .inl (serialStep_headerFrame hchk hpay h).out

theorem wsfpStep_outEffect {s t : State} (h : wsfpStep s = .next t) : OutEffect s t := by
  rcases wsfpStep_cases s with ⟨-, e⟩ | ⟨-, -, -, e⟩ | ⟨-, -, e⟩ | ⟨-, -, r, hr, e⟩ | ⟨hask, -, op, f, -, -, e⟩ |
      ⟨-, -, e⟩
  case inr.inr.inr.inr.inr => exact serialStep_outEffect (e ▸ h)
  all_goals cases e.symm.trans h
  · exact .inl rfl
  · exact .inl rfl
  · exact .inl rfl
  · have hnw : r ≠ .noWidth := fun e => decodeFrame_ne_noWidth s.window (e ▸ hr)
    obtain ⟨-, -, -, -, -, -, hout, -⟩ := failHeader_frame r s hnw
    exact .inl hout
  · rcases chkAndPay_out (loadHeader op f (startStep s)) with hout | ⟨hok, bs, hout⟩
    · exact .inl hout
    · exact .inr (.inr ⟨hask.1, hok, bs, hout⟩)

/-- Neither the falling pulse nor the transport touches OUT. -/
theorem step_outEffect {s t : State} (h : step s = .next t) : OutEffect s t := by
  obtain ⟨u, hu, rfl⟩ := step_eq_next h
  simpa [OutEffect] using wsfpStep_outEffect hu

/-- Settles O38: whichever writes a step makes, each keeps the addresses rising. -/
theorem stepKeepsOutCanonical : Obligations.StepKeepsOutCanonical := by
  intro s t hwf h
  rcases step_outEffect h with hout | ⟨-, b, hout⟩ | ⟨-, -, bs, hout⟩ <;> rw [hout]
  · exact hwf
  · exact Memory.write_wf _ _ hwf
  · exact Memory.writeBytes_wf _ _ hwf

/-- With KIND = NONE, CAUSE is NONE (60_exceptions.md Table X1). -/
theorem cause_eq_none_of_paired {c : Cause} (h : pairedX1 .none c = true) : c = .none := by
  cases c <;> simp [pairedX1] at h ⊢

/-- While BUSY = 1 no result stands (43_message_parser.md R216 (d)). -/
theorem Invariant.no_result {s : State} (h : Invariant s) (hp : s.ph ≠ .idle) : s.kind = .none ∧ s.cause = .none := by
  have hk : s.kind = .none := (h.busyNone hp).1
  exact ⟨hk, cause_eq_none_of_paired (hk ▸ h.paired)⟩

/-- A PAY step goes on in PAY without a result or ends the parse with KIND = OK (R213). -/
theorem step_of_pay_result {s t : State} (hp : s.ph = .pay) (hi : Invariant s) (hr : s.rst = false)
    (h : step s = .next t) :
    (t.ph = .pay ∧ t.kind = .none ∧ t.cause = .none) ∨ (t.ph = .idle ∧ t.kind = .ok ∧ t.cause = .none) := by
  have hbusy : s.ph ≠ .idle := by simp [hp]
  obtain ⟨hk, hc⟩ := hi.no_result hbusy
  obtain ⟨u, hu, rfl⟩ := step_busy_eq_next hbusy hr h
  obtain ⟨-, b, hb⟩ := serialStep_of_pay (by exact hp) hu
  cases hb.symm.trans hu
  split
  · exact .inr (by simp)
  · exact .inl (by simp [hp, hk, hc])

/-- Settles O42: the three clauses are read off what a step can do to OUT and how a PAY step ends. -/
theorem outWrittenOnlyOnSuccess : Obligations.OutWrittenOnlyOnSuccess := by
  intro s t h
  refine ⟨fun hpay hok => ?_, fun hpay a ha => ?_, fun hpay hi hr => step_of_pay_result hpay hi hr h⟩
  · rcases step_outEffect h with hout | ⟨hp, -⟩ | ⟨-, hk, -⟩
    · exact hout
    · exact absurd hp hpay
    · exact absurd hk hok
  · rcases step_outEffect h with hout | ⟨-, b, hout⟩ | ⟨hp, -⟩
    · rw [hout]
    · rw [hout, Memory.read_write_other _ _ ha.symm]
    · simp [hpay] at hp

/-! ## What a step of a running transaction does to POS (10_state.md R24, 20_memory.md R61, R62) -/

/-- The step from `s` to `t` read the byte at POS, below AVL, and POS went up by one. -/
def ReadsAtPos (s t : State) : Prop := t.pos = s.pos + 1 ∧ s.pos < s.avl

/-- The step from `s` to `t` ended in `InsufficientData` and POS stayed. -/
def BreaksOff (s t : State) : Prop := t.pos = s.pos ∧ t.ph = .idle ∧ t.kind = .insufficientData

theorem b0Step_pos {s t : State} (hpos : s.pos = 0) (h : b0Step s = .next t) : ReadsAtPos s t ∨ BreaksOff s t := by
  unfold b0Step at h
  split at h
  · cases h
    exact .inr ⟨rfl, rfl, rfl⟩
  · obtain ⟨hlt, b, -, hb⟩ := readWindow_eq_next h
    cases hb
    exact .inl ⟨by simp [hpos], hpos ▸ hlt⟩

theorem b1Step_pos {s t : State} (hpos : s.pos = 1) (h : b1Step s = .next t) : ReadsAtPos s t := by
  obtain ⟨hlt, b, -, hb⟩ := readWindow_eq_next h
  cases hb
  exact ⟨by simp [hpos], hpos ▸ hlt⟩

theorem extStep_pos {s t : State} (h : extStep s = .next t) : ReadsAtPos s t ∨ BreaksOff s t := by
  unfold extStep at h
  split at h
  · cases h
    exact .inr ⟨rfl, rfl, rfl⟩
  · obtain ⟨hlt, b, -, hb⟩ := readWindow_eq_next h
    cases hb
    exact .inl ⟨rfl, hlt⟩

theorem keypStep_pos {s t : State} (h : keypStep s = .next t) : ReadsAtPos s t ∨ BreaksOff s t := by
  unfold keypStep at h
  split at h
  · cases h
    exact .inr ⟨rfl, rfl, rfl⟩
  · split at h
    · obtain ⟨hlt, b, -, hb⟩ := readWindow_eq_next h
      cases hb
      exact .inl ⟨rfl, hlt⟩
    · cases h

theorem payStep_pos {s t : State} (h : payStep s = .next t) : ReadsAtPos s t := by
  obtain ⟨hlt, b, -, hb⟩ := readWindow_eq_next h
  cases hb
  refine ⟨?_, hlt⟩
  split <;> rfl

/-- Under the invariant every phase but CHK reads at POS or breaks off. -/
theorem serialStep_pos {s t : State} (hi : Invariant s) (hidle : s.ph ≠ .idle) (hchk : s.ph ≠ .chk)
    (h : serialStep s = .next t) : ReadsAtPos s t ∨ BreaksOff s t := by
  have hph := hi.phase
  unfold serialStep at h
  cases hp : s.ph <;> simp only [PhaseInv, hp] at h hph
  case idle => exact absurd hp hidle
  case b0 => exact b0Step_pos hph.1 h
  case b1 => exact .inl (b1Step_pos hph.1 h)
  case ext => exact extStep_pos h
  case keyp => exact keypStep_pos h
  case chk => exact absurd hp hchk
  case pay => exact .inl (payStep_pos h)

/-- Settles O41: CHK leaves POS, every other phase reads at POS or breaks off. -/
theorem posAdvancesByOne : Obligations.PosAdvancesByOne := by
  intro s t hi hidle hr h
  obtain ⟨u, hu, rfl⟩ := step_busy_eq_next hidle hr h
  by_cases hchk : s.ph = .chk
  · cases (serialStep_of_chk (s := quiet s) hchk).symm.trans hu
    exact .inr ⟨by simp [(chkStep_out_pos _).2], .inl hchk⟩
  · rcases serialStep_pos hi.quiet hidle hchk hu with ⟨hpos, hlt⟩ | ⟨hpos, hph, hk⟩
    · exact .inl ⟨by simpa using hpos, hlt, hchk⟩
    · exact .inr ⟨by simpa using hpos, .inr ⟨by simpa using hph, by simpa using hk⟩⟩

/-! ## The STATUS byte (10_state.md R31) -/

/-- The fields of a byte laid out as R31 says. -/
theorem statusByte_fields (cause : BitVec 3) (kind : BitVec 2) (hdrOk busy : Bool) :
    let st : BitVec 8 := 0#1 ++ cause ++ kind ++ BitVec.ofBool hdrOk ++ BitVec.ofBool busy
    st.getLsbD 0 = busy ∧ st.getLsbD 1 = hdrOk ∧ st.extractLsb' 2 2 = kind ∧ st.extractLsb' 4 3 = cause ∧
      st.getLsbD 7 = false := by
  revert cause kind hdrOk busy
  decide

/-- Settles O44: STATUS is the byte of those fields. -/
theorem statusBits : Obligations.StatusBits := fun s =>
  statusByte_fields s.cause.code s.kind.code s.hdrOk s.busy

theorem busy_eq_true_iff (s : State) : s.busy = true ↔ s.ph ≠ .idle := by simp [State.busy]

/-- Table X1 in words: no result, OK, or a failing kind with one of its causes (60_exceptions.md R241). -/
theorem pairedX1_cases {k : Kind} {c : Cause} (h : pairedX1 k c = true) :
    (k = .none ∧ c = .none) ∨ (k = .ok ∧ c = .none) ∨
    (k = .insufficientData ∧ (c = .hdr2 ∨ c = .ext ∨ c = .key ∨ c = .payload)) ∨
    (k = .protocolViolation ∧ (c = .ctrlLen ∨ c = .rsvNoFin)) := by
  cases k <;> cases c <;> simp [pairedX1] at h ⊢

/-- While BUSY = 1 STATUS shows BUSY and HDR_OK alone. -/
theorem status_of_busy {s : State} (hi : Invariant s) (hp : s.ph ≠ .idle) : s.status = 0x01#8 ∨ s.status = 0x03#8 := by
  obtain ⟨hk, hc⟩ := hi.no_result hp
  have hb : s.busy = true := (busy_eq_true_iff s).2 hp
  cases hh : s.hdrOk <;> simp [State.status, hk, hc, hb, hh, Kind.code, Cause.code]

/-- In IDLE the result fixes HDR_OK (R32). -/
theorem Invariant.hdrOk_of_idle {s : State} (hi : Invariant s) (hp : s.ph = .idle) :
    s.hdrOk = true ↔ (s.kind = .ok ∨ s.cause = .payload) := by
  have hph := hi.phase
  simp only [PhaseInv, hp] at hph
  exact hph.1

/-- In IDLE STATUS is fixed by the pair of KIND and CAUSE, one of the eight of Table X1. -/
theorem status_of_idle {s : State} (hi : Invariant s) (hp : s.ph = .idle) :
    s.status ∈ [0x00#8, 0x06#8, 0x18#8, 0x28#8, 0x38#8, 0x4A#8, 0x5C#8, 0x6C#8] := by
  have hb : s.busy = false := by simp [State.busy, hp]
  have hh : s.hdrOk = decide (s.kind = .ok ∨ s.cause = .payload) := by
    rw [Bool.eq_iff_iff, decide_eq_true_iff]
    exact hi.hdrOk_of_idle hp
  rw [State.status, hb, hh]
  rcases pairedX1_cases hi.paired with ⟨hk, hc⟩ | ⟨hk, hc⟩ | ⟨hk, hc | hc | hc | hc⟩ | ⟨hk, hc | hc⟩ <;>
    rw [hk, hc] <;> decide

/-- Settles O43: eight values in IDLE, two while BUSY = 1. -/
theorem statusIsLegal : Obligations.StatusIsLegal := by
  intro s hi
  by_cases hp : s.ph = .idle
  · exact List.mem_append_left [0x01#8, 0x03#8] (status_of_idle hi hp)
  · rcases status_of_busy hi hp with e | e <;> simp [e]

/-! ## The classification of every opcode (10_state.md R22, R30) -/

theorem isControlFrame_iff (op : BitVec 4) : isControlFrame op = true ↔ op = 8#4 ∨ op = 9#4 ∨ op = 10#4 := by
  simp [isControlFrame, knownCtrl, or_assoc]

theorem isFragmentHeader_iff (fin : Bool) (op : BitVec 4) :
    isFragmentHeader fin op = true ↔ fin = false ∧ (op = 1#4 ∨ op = 2#4) := by
  simp [isFragmentHeader]

theorem isFragmentFooter_iff (fin : Bool) (op : BitVec 4) :
    isFragmentFooter fin op = true ↔ fin = true ∧ op = 0#4 := by
  simp [isFragmentFooter]

theorem isFragment_iff (fin : Bool) (op : BitVec 4) :
    isFragment fin op = true ↔
      isFragmentHeader fin op = true ∨ isFragmentFooter fin op = true ∨ (op = 0#4 ∧ fin = false) := by
  simp [isFragment, or_assoc]

/-- R30: a continuation frame is a fragment whatever its `fin`. -/
theorem isFragment_iff_cont_or_header (fin : Bool) (op : BitVec 4) :
    isFragment fin op = true ↔ op = 0#4 ∨ isFragmentHeader fin op = true := by
  rw [isFragment_iff, isFragmentFooter_iff]
  cases fin <;> simp [or_comm]

theorem isControlFrame_of_rsvControl {op : BitVec 4} (h : 11#4 ≤ op) : isControlFrame op = false := by
  revert op; decide

/-- Settles O46, property by property. -/
theorem classificationOfEveryOpcode : Obligations.ClassificationOfEveryOpcode := fun fin op =>
  ⟨isControlFrame_iff op, isFragmentHeader_iff fin op, isFragmentFooter_iff fin op, isFragment_iff fin op,
    isFragment_iff_cont_or_header fin op, isControlFrame_of_rsvControl⟩

/-! ## The decoder's ports and the parser (10_state.md R35, 60_exceptions.md R245)

Driving the ports commutes with every operation of a step. -/

section Ports

variable (w : BitVec 2) (l : BitVec 4) (x : BeIn)

theorem chkStep_driveDecoder (s : State) : chkStep (driveDecoder w l x s) = driveDecoder w l x (chkStep s) := by
  simp only [chkStep, apply_ite (driveDecoder w l x)]
  rfl

theorem chkAndPay_driveDecoder (s : State) :
    chkAndPay (driveDecoder w l x s) = driveDecoder w l x (chkAndPay s) := by
  unfold chkAndPay
  rw [chkStep_driveDecoder, driveDecoder_ph]
  split <;> rfl

theorem failHeader_driveDecoder (r : Reject) (s : State) :
    failHeader r (driveDecoder w l x s) = driveDecoder w l x (failHeader r s) := by
  cases r <;> rfl

theorem transport_driveDecoder (s : State) :
    transport (driveDecoder w l x s) = driveDecoder w l x (transport s) := by
  unfold transport
  rw [driveDecoder_consValid]
  split <;> rfl

/-- A read of the window does not see the ports, so it commutes where what follows it does. -/
theorem readWindow_driveDecoder (a : Nat) (s : State) {k k' : Byte → Stepped}
    (h : ∀ b, k' b = onNext (k b) (driveDecoder w l x)) :
    readWindow a (driveDecoder w l x s) k' = onNext (readWindow a s k) (driveDecoder w l x) := by
  unfold readWindow
  rw [driveDecoder_avl, driveDecoder_window]
  split
  · split
    · exact h _
    · rfl
  · rfl

theorem extStep_driveDecoder (s : State) :
    extStep (driveDecoder w l x s) = onNext (extStep s) (driveDecoder w l x) := by
  unfold extStep
  rw [driveDecoder_avl, driveDecoder_pos]
  split
  · rfl
  · exact readWindow_driveDecoder w l x _ s fun _ => rfl

theorem keypStep_driveDecoder (s : State) :
    keypStep (driveDecoder w l x s) = onNext (keypStep s) (driveDecoder w l x) := by
  unfold keypStep
  rw [driveDecoder_avl, driveDecoder_pos, driveDecoder_kcnt]
  split
  · rfl
  · split
    · exact readWindow_driveDecoder w l x _ s fun _ => rfl
    · rfl

theorem b0Step_driveDecoder (s : State) :
    b0Step (driveDecoder w l x s) = onNext (b0Step s) (driveDecoder w l x) := by
  unfold b0Step
  rw [driveDecoder_avl]
  split
  · rfl
  · exact readWindow_driveDecoder w l x _ s fun _ => rfl

theorem payStep_driveDecoder (s : State) :
    payStep (driveDecoder w l x s) = onNext (payStep s) (driveDecoder w l x) := by
  refine readWindow_driveDecoder w l x _ s fun b => ?_
  simp only [onNext_next, apply_ite (driveDecoder w l x)]
  rfl

theorem serialStep_driveDecoder (s : State) :
    serialStep (driveDecoder w l x s) = onNext (serialStep s) (driveDecoder w l x) := by
  unfold serialStep
  rw [driveDecoder_ph]
  cases s.ph with
  | idle => rfl
  | b0 => exact b0Step_driveDecoder w l x s
  | b1 => exact readWindow_driveDecoder w l x _ s fun _ => rfl
  | ext => exact extStep_driveDecoder w l x s
  | keyp => exact keypStep_driveDecoder w l x s
  | chk => exact congrArg _ (chkStep_driveDecoder w l x s)
  | pay => exact payStep_driveDecoder w l x s

/-- A whole transaction reads the window and the registers, not the ports. -/
theorem parseStep_driveDecoder {s : State} (hp : s.ph = .idle) :
    parseStep (driveDecoder w l x s) = onNext (parseStep s) (driveDecoder w l x) := by
  unfold parseStep
  rw [driveDecoder_window]
  cases hd : decode (.frame s.window) with
  | rejected r => exact congrArg _ (failHeader_driveDecoder w l x r s)
  | instr i =>
    have hi : i.frame? = some (opcodeOf (byteAt s.window 0), frameOpsOf s.window) :=
      frame?_eq_some.2 (decodeFrame_eq_instr hd).1
    have hp' : (driveDecoder w l x s).ph = .idle := hp
    have hload : loadHeader (opcodeOf (byteAt s.window 0)) (frameOpsOf s.window) (startStep (driveDecoder w l x s)) =
        driveDecoder w l x (loadHeader (opcodeOf (byteAt s.window 0)) (frameOpsOf s.window) (startStep s)) := rfl
    simp only [exec_of_frame? hi, parseFrame_idle _ _ hp, parseFrame_idle _ _ hp', hload, chkAndPay_driveDecoder,
      onNext_next]

theorem wsfpStep_driveDecoder (s : State) :
    wsfpStep (driveDecoder w l x s) = onNext (wsfpStep s) (driveDecoder w l x) := by
  by_cases hr : s.rst = true
  · rw [wsfpStep_reset hr, wsfpStep_reset (s := driveDecoder w l x s) hr]
    rfl
  rw [Bool.not_eq_true] at hr
  by_cases hp : s.ph = .idle
  · by_cases hs : s.start = true
    · have hask : ParseAsked s := ⟨hp, hs, hr⟩
      have hask' : ParseAsked (driveDecoder w l x s) := hask
      rw [wsfpStep_start hask, wsfpStep_start hask', startAtGrain, startAtGrain, driveDecoder_grain]
      cases s.grain with
      | transaction => exact parseStep_driveDecoder w l x hp
      | byteSerial => rfl
    · rw [Bool.not_eq_true] at hs
      rw [wsfpStep_idle hp hs hr, wsfpStep_idle (s := driveDecoder w l x s) hp hs hr]
      rfl
  · rw [wsfpStep_busy hp hr, wsfpStep_busy (s := driveDecoder w l x s) hp hr]
    exact serialStep_driveDecoder w l x s

end Ports

/-- Settles O26: WSFP's own step and the transport both commute with driving the ports. -/
theorem decoderAndParserIndependent : Obligations.DecoderAndParserIndependent := by
  intro s w l x
  calc step (driveDecoder w l x s)
      = onNext (onNext (wsfpStep (quiet s)) (driveDecoder w l x)) transport :=
        congrArg (onNext · transport) (wsfpStep_driveDecoder w l x (quiet s))
    _ = onNext (wsfpStep (quiet s)) (fun u => driveDecoder w l x (transport u)) := by
        simp only [onNext_onNext, transport_driveDecoder]
    _ = onNext (step s) (driveDecoder w l x) := by rw [step_eq, onNext_onNext]

/-! ## What a successful parse gives (10_state.md R20, R21, R23) -/

/-- The payload of a frame with operands `f` at the front of `B`, unmasked. -/
def framePayload (f : FrameOps) (B : List Byte) : List Byte :=
  unmask f.masked (f.key.getD Key.zero) ((B.drop f.hlen).take f.plen.toNat)

/-- The payload of a whole frame has the declared length. -/
theorem framePayload_length {f : FrameOps} {B : List Byte} (h : f.hlen + f.plen.toNat ≤ B.length) :
    (framePayload f B).length = f.plen.toNat := by
  simp only [framePayload, unmask_length, List.length_take, List.length_drop]
  omega

/-- `parse` of a buffer with a whole header at its front, its Message in terms of `framePayload` (R200, R201). -/
theorem parse_of_frame {B : List Byte} {op : BitVec 4} {f : FrameOps} (hd : decode (.frame B) = .instr (frameOf op f)) :
    parse B =
      if 8 ≤ op.toNat ∧ 125 < f.plen.toNat then .err .protocolViolation .ctrlLen
      else if reserved op = true ∧ f.fin = false then .err .protocolViolation .rsvNoFin
      else if B.length < f.hlen + f.plen.toNat then .err .insufficientData .payload
      else .ok (⟨headerOf op f, framePayload f B⟩, f.hlen + f.plen.toNat) :=
  parse_of_instr hd (frameOf_frame? op f)

/-- Where `parse` succeeds, a whole frame breaking no rule stands at the front of the buffer, and the Message is it. -/
theorem parse_eq_ok {B : List Byte} {m : Message} {c : Nat} (h : parse B = .ok (m, c)) :
    ∃ op f, decode (.frame B) = .instr (frameOf op f) ∧ ¬ (8 ≤ op.toNat ∧ 125 < f.plen.toNat) ∧
      ¬ (reserved op = true ∧ f.fin = false) ∧ f.hlen + f.plen.toNat ≤ B.length ∧
      m = ⟨headerOf op f, framePayload f B⟩ ∧ c = f.hlen + f.plen.toNat := by
  cases hd : decode (.frame B) with
  | rejected r => cases (parse_of_rejected hd).symm.trans h
  | instr i =>
    obtain ⟨rfl, -, -⟩ := decodeFrame_eq_instr hd
    rw [parse_of_frame hd] at h
    split_ifs at h with hcap hrsv hshort
    cases h
    exact ⟨_, _, rfl, hcap, hrsv, not_lt.1 hshort, rfl, rfl⟩

/-- Settles O55: each clause is a fact about the frame the Message is made of. -/
theorem messageIsWellFormed : Obligations.MessageIsWellFormed := by
  intro B m c h
  obtain ⟨op, f, -, hcap, hrsv, hfit, rfl, rfl⟩ := parse_eq_ok h
  have hlen : (framePayload f B).length = f.plen.toNat := framePayload_length hfit
  refine ⟨hlen, hfit, ⟨f.hlen, f.hlen_mem, by rw [hlen]⟩, Iff.rfl, fun hop => ?_, fun hres => ?_⟩
  · rw [BitVec.le_def] at hop ⊢
    exact not_lt.1 fun hlt => hcap ⟨hop, hlt⟩
  · exact Bool.eq_true_of_not_eq_false fun hfin => hrsv ⟨hres, hfin⟩

/-! ## The whole transaction agrees with `parse` (43_message_parser.md R221) -/

/-- At the transaction grain a step from IDLE with `start = 1` on a header that breaks off takes the exception. -/
theorem step_of_rejected {s : State} {r : Reject} (hs : ParseAsked s) (hg : s.grain = .transaction)
    (hd : decode (.frame s.window) = .rejected r) : step s = .next (transport (failHeader r (quiet s))) := by
  have hstart : wsfpStep (quiet s) = startAtGrain (quiet s) := wsfpStep_start hs
  have hparse : startAtGrain (quiet s) = parseStep (quiet s) := by simp [startAtGrain, hg]
  have hfail : parseStep (quiet s) = .next (failHeader r (quiet s)) := by simp [parseStep, hd]
  rw [step_eq, hstart, hparse, hfail, onNext_next]

/-- HLEN's four bits hold every header length (30_encoding.md R93). -/
theorem hlen_mod_sixteen (f : FrameOps) : f.hlen % 16 = f.hlen := by
  have h := f.hlen_mem
  simp only [List.mem_cons, List.not_mem_nil, or_false] at h
  omega

/-- A header that breaks off: R221 (b), for the causes HDR2, EXT and KEY. -/
theorem agreesWithParse_of_rejected {s : State} {r : Reject} (hd : decode (.frame s.window) = .rejected r) :
    AgreesWithParse s.window s (transport (failHeader r (quiet s))) := by
  unfold AgreesWithParse
  rw [parse_of_rejected hd]
  cases r with
  | noWidth => exact absurd hd (decodeFrame_ne_noWidth _)
  | hdr2 | ext | key => simp [failHeader]

/-- A header that is there: R221 (a), or (b) for the causes CTRL_LEN, RSV_NOFIN and PAYLOAD. -/
theorem agreesWithParse_of_frame {s : State} {op : BitVec 4} {f : FrameOps}
    (hd : decode (.frame s.window) = .instr (frameOf op f)) :
    AgreesWithParse s.window s (transport (chkAndPay (loadHeader op f (startStep (quiet s))))) := by
  unfold AgreesWithParse
  have hheader := parseHeader_of_instr hd (frameOf_frame? op f)
  rw [parse_of_frame hd]
  rcases chkAndPay_cases (loadHeader op f (startStep (quiet s))) with ⟨hcap, e⟩ | ⟨hcap, hrsv, e⟩ |
      ⟨hcap, hrsv, hshort, e⟩ | ⟨hcap, hrsv, hfit, x, -, e⟩ <;>
    simp only [loadHeader_opc, loadHeader_plen, loadHeader_fin, loadHeader_avl, loadHeader_pos, startStep_avl,
      quiet_window, ctrlRange_iff, lt_125_iff] at * <;> rw [e]
  · simp [hcap]
  · simp [hcap, hrsv]
  · rw [if_neg hcap, if_neg hrsv, if_pos hshort]
    rw [if_neg hcap, if_neg hrsv] at hheader
    simp [hheader, headerOf, hlen_mod_sixteen]
  · rw [if_neg hcap, if_neg hrsv, if_neg (not_lt.2 hfit)]
    have hlen := framePayload_length hfit
    have hout : payloadOf (loadHeader op f (startStep (quiet s))) = framePayload f s.window := rfl
    simp +contextual [headerOf, hlen_mod_sixteen, hout, hlen, Memory.read_writeBytes]

/-- R221 at the transaction grain: a step from IDLE with `start = 1` ends in what `parse` gives for the window. -/
theorem step_agreesWithParse {s t : State} (hs : ParseAsked s) (hg : s.grain = .transaction) (h : step s = .next t) :
    AgreesWithParse s.window s t := by
  cases hd : decode (.frame s.window) with
  | rejected r =>
    cases (step_of_rejected hs hg hd).symm.trans h
    exact agreesWithParse_of_rejected hd
  | instr i =>
    obtain ⟨rfl, -, -⟩ := decodeFrame_eq_instr hd
    cases (step_of_frame hs hg hd (frameOf_frame? _ _)).symm.trans h
    exact agreesWithParse_of_frame hd

/-! ## How the stages of `parse` answer (43_message_parser.md R201) -/

theorem parse_of_parseHeader_err {B : List Byte} {k : Kind} {x : Cause} (h : parseHeader B = .err k x) :
    parse B = .err k x := by
  unfold parse
  rw [h]

/-- After a header that is there and breaks no rule only the payload can be missing. -/
theorem parse_of_parseHeader_ok {B : List Byte} {h : FrameHeader} {hlen : Nat} (hh : parseHeader B = .ok (h, hlen)) :
    parse B = .err .insufficientData .payload ∨ ∃ p, parse B = .ok (⟨h, p⟩, hlen + h.payloadLength.toNat) := by
  unfold parse
  rw [hh]
  simp only [extractPayload]
  by_cases hshort : B.length < hlen ∨ B.length - hlen < h.payloadLength.toNat
  · exact .inl (by rw [if_pos hshort])
  · exact .inr ⟨_, by rw [if_neg hshort]⟩

/-- An error of the header stage is no success and not the payload's. -/
theorem parseHeader_err_ne {B : List Byte} {k : Kind} {x : Cause} (h : parseHeader B = .err k x) :
    k ≠ .ok ∧ x ≠ .payload := by
  cases hd : decode (.frame B) with
  | rejected r =>
    cases (parseHeader_of_rejected hd).symm.trans h
    cases r <;> exact ⟨nofun, nofun⟩
  | instr i =>
    obtain ⟨rfl, -, -⟩ := decodeFrame_eq_instr hd
    rw [parseHeader_of_instr hd (frameOf_frame? _ _)] at h
    split_ifs at h <;> cases h <;> decide

theorem parse_err_kind_ne_ok {B : List Byte} {k : Kind} {x : Cause} (h : parse B = .err k x) : k ≠ .ok := by
  cases hh : parseHeader B with
  | err k' x' =>
    cases (parse_of_parseHeader_err hh).symm.trans h
    exact (parseHeader_err_ne hh).1
  | ok r =>
    rcases parse_of_parseHeader_ok hh with e | ⟨p, e⟩ <;> cases e.symm.trans h
    decide

/-- A Frame Header holds a key exactly when it is masked (10_state.md R20). -/
theorem maskingKey_isSome_iff {B : List Byte} {h : FrameHeader} {hlen : Nat} (hh : parseHeader B = .ok (h, hlen)) :
    h.maskingKey.isSome = true ↔ h.isMasked = true := by
  cases hd : decode (.frame B) with
  | rejected r => cases (parseHeader_of_rejected hd).symm.trans hh
  | instr i =>
    obtain ⟨rfl, -, -⟩ := decodeFrame_eq_instr hd
    rw [parseHeader_of_instr hd (frameOf_frame? _ _)] at hh
    split_ifs at hh
    cases hh
    exact Iff.rfl

/-! ## What the host reads after a transaction (10_state.md R21, R32) -/

/-- The field registers of `t` hold the Frame Header `h`; without a key the key registers are 0 (10_state.md R25, R26). -/
structure HoldsHeader (h : FrameHeader) (t : State) : Prop where
  fin : t.fin = h.fin
  rsv1 : t.rsv1 = h.rsv1
  rsv2 : t.rsv2 = h.rsv2
  rsv3 : t.rsv3 = h.rsv3
  opc : t.opc = h.opCode
  msk : t.msk = h.isMasked
  plen : t.plen = h.payloadLength
  key : t.key = h.maskingKey.getD Key.zero

/-- The host reads the header the registers hold, while BUSY = 0 and HDR_OK = 1. -/
theorem HoldsHeader.header? {h : FrameHeader} {t : State} (hr : HoldsHeader h t)
    (hkey : h.maskingKey.isSome = true ↔ h.isMasked = true) (hp : t.ph = .idle) (hok : t.hdrOk = true) :
    t.header? = some (h, t.hlen.toNat) := by
  have hmask : (if h.isMasked then some (h.maskingKey.getD Key.zero) else none) = h.maskingKey := by
    rw [← Bool.eq_iff_iff] at hkey
    rw [← hkey]
    cases h.maskingKey <;> rfl
  simp [State.header?, State.busy, hp, hok, hr.fin, hr.rsv1, hr.rsv2, hr.rsv3, hr.opc, hr.msk, hr.plen, hr.key, hmask]

theorem header?_eq_none {t : State} (h : t.hdrOk = false) : t.header? = none := by simp [State.header?, h]

theorem message?_eq_none {t : State} (h : t.kind ≠ .ok) : t.message? = none := by simp [State.message?, h]

namespace AgreesWithParse

variable {B : List Byte} {s t : State}

/-- The part of a success that the host reads: the registers, the payload in OUT, the counts. -/
theorem of_ok {m : Message} {c : Nat} (h : AgreesWithParse B s t) (hp : parse B = .ok (m, c)) :
    t.kind = .ok ∧ t.hdrOk = true ∧ HoldsHeader m.header t ∧ t.hlen.toNat + t.plen.toNat = c ∧ t.consK = c ∧
      ∀ a < t.plen.toNat, Memory.read t.out a = m.payload[a]? := by
  obtain ⟨-, h⟩ := h
  rw [hp] at h
  obtain ⟨hk, -, hok, hfin, hrsv1, hrsv2, hrsv3, hopc, hmsk, hplen, hkey, hc, hout, -, -, -, hconsK⟩ := h
  have hlen : m.payload.length = m.header.payloadLength.toNat := (messageIsWellFormed B m c hp).1
  have hr : HoldsHeader m.header t := ⟨hfin, hrsv1, hrsv2, hrsv3, hopc, hmsk, hplen, hkey⟩
  exact ⟨hk, hok, hr, hc, hconsK, fun a ha => hout a (by rwa [hlen, ← hplen])⟩

theorem kind_of_err {k : Kind} {x : Cause} (h : AgreesWithParse B s t) (hp : parse B = .err k x) : t.kind = k := by
  obtain ⟨-, h⟩ := h
  rw [hp] at h
  exact h.1

/-- KIND = OK only where `parse` succeeds. -/
theorem parse_ok_of_kind (h : AgreesWithParse B s t) (hk : t.kind = .ok) : ∃ m c, parse B = .ok (m, c) := by
  cases hp : parse B with
  | ok r => exact ⟨r.1, r.2, rfl⟩
  | err k x => exact absurd ((h.kind_of_err hp).symm.trans hk) (parse_err_kind_ne_ok hp)

/-- A header stage that succeeds leaves its header for the host, whether the payload is there or not. -/
theorem header?_of_ok {fh : FrameHeader} {hlen : Nat} (h : AgreesWithParse B s t)
    (hh : parseHeader B = .ok (fh, hlen)) : t.header? = some (fh, hlen) := by
  have hidle : t.ph = .idle := h.1
  have hkey := maskingKey_isSome_iff hh
  rcases parse_of_parseHeader_ok hh with hp | ⟨p, hp⟩
  · obtain ⟨-, h⟩ := h
    rw [hp] at h
    obtain ⟨-, -, -, -, -, hok, hregs⟩ := h
    obtain ⟨fh', hlen', hh', hfin, hrsv1, hrsv2, hrsv3, hopc, hmsk, hplen, hkeyReg, hhlen⟩ := hregs rfl
    cases hh.symm.trans hh'
    have hr : HoldsHeader fh t := ⟨hfin, hrsv1, hrsv2, hrsv3, hopc, hmsk, hplen, hkeyReg⟩
    rw [hr.header? hkey hidle (hok.2 rfl), hhlen]
  · obtain ⟨-, hok, hr, hc, -, -⟩ := h.of_ok hp
    have hlen_eq : t.hlen.toNat = hlen := by rw [hr.plen] at hc; exact Nat.add_right_cancel hc
    rw [hr.header? hkey hidle hok, hlen_eq]

/-- A header stage that fails leaves none. -/
theorem header?_of_err {k : Kind} {x : Cause} (h : AgreesWithParse B s t) (hh : parseHeader B = .err k x) :
    t.header? = none := by
  obtain ⟨-, h⟩ := h
  rw [parse_of_parseHeader_err hh] at h
  obtain ⟨-, -, -, -, -, hok, -⟩ := h
  exact header?_eq_none (Bool.eq_false_iff.2 fun e => (parseHeader_err_ne hh).2 (hok.1 e))

end AgreesWithParse

/-- Reading `p` index by index puts it together again. -/
theorem range_mapM_getElem? {α : Type} (p : List α) (g : Nat → Option α) (h : ∀ a < p.length, g a = p[a]?) :
    (List.range p.length).mapM g = some p := by
  induction p using List.reverseRecOn with
  | nil => rfl
  | append_singleton q b ih =>
    have hq : (List.range q.length).mapM g = some q := ih fun a ha => by
      rw [h a (by simp; omega), List.getElem?_append_left ha]
    have hb : g q.length = some b := by simpa using h q.length (by simp)
    rw [List.length_append, List.length_singleton, List.range_succ, List.mapM_append, hq]
    simp [hb]

/-- The host reads the header the registers hold with the payload that stands in OUT below PLEN (R271). -/
theorem message?_eq_some {m : Message} {hlen : Nat} {t : State} (hk : t.kind = .ok) (hp : t.ph = .idle)
    (hh : t.header? = some (m.header, hlen)) (hlen : m.payload.length = t.plen.toNat)
    (hout : ∀ a < t.plen.toNat, Memory.read t.out a = m.payload[a]?) : t.message? = some m := by
  have hread : (List.range t.plen.toNat).mapM t.readOut = some m.payload := by
    rw [← hlen] at hout ⊢
    refine range_mapM_getElem? _ _ fun a ha => ?_
    rw [← hout a ha]
    simp [State.readOut, State.busy, hp, hk, ← hlen, ha]
  simp [State.message?, hk, hh, hread]

/-- Settles O51: the state after the transaction agrees with `parse`, and the host reads what it holds. -/
theorem hostReadsTheMessage : Obligations.HostReadsTheMessage := by
  intro s t hs hg h
  have ha : AgreesWithParse s.window s t := step_agreesWithParse hs hg h
  refine ⟨fun m c hp => ?_, fun k x hp => ?_, fun fh hlen hh => ha.header?_of_ok hh, fun k x hh => ha.header?_of_err hh⟩
  · obtain ⟨hk, hok, hr, -, -, hout⟩ := ha.of_ok hp
    obtain ⟨hlen, -, -, hkey, -, -⟩ := messageIsWellFormed s.window m c hp
    exact message?_eq_some hk ha.1 (hr.header? hkey ha.1 hok) (hr.plen ▸ hlen) hout
  · exact message?_eq_none ((ha.kind_of_err hp).symm ▸ parse_err_kind_ne_ok hp)

/-! ## The window fixes the end of a transaction (10_state.md R36) -/

/-- `t` with OUT, the pulse's count and the decoder's ports replaced, the ports by those of `r`. -/
def withRest (out : List Host.Cell) (k : Nat) (r t : State) : State :=
  { t with out := out, consK := k, beIn := r.beIn, beLen := r.beLen, beWidth := r.beWidth }

/-- `t'` is `t` but for OUT and the ports, which are those of `r`, and for the count where no pulse stands. -/
def SameResult (r t t' : State) : Prop := ∃ o k, (t.consValid = true → k = t.consK) ∧ t' = withRest o k r t

namespace SameResult

variable {r s s' : State}

theorem ite {c : Prop} [Decidable c] {a a' b b' : State} (ha : SameResult r a a') (hb : SameResult r b b') :
    SameResult r (if c then a else b) (if c then a' else b') := by
  split
  · exact ha
  · exact hb

theorem ph (h : SameResult r s s') : s'.ph = s.ph := by
  obtain ⟨o, k, -, rfl⟩ := h
  rfl

/-- The start step clears every register and takes AVL from the window. -/
theorem start (hs : ParseAsked s) (hs' : ParseAsked s') (hg : s.grain = s'.grain) (hw : s.window = s'.window) :
    SameResult s' (startStep (quiet s)) (startStep (quiet s')) := by
  obtain ⟨-, hstart, hrst⟩ := hs
  obtain ⟨-, hstart', hrst'⟩ := hs'
  refine ⟨s'.out, s'.consK, nofun, ?_⟩
  simp [startStep, quiet, withRest, State.avail, hstart, hstart', hrst, hrst', hg, hw]

theorem failHeader (h : SameResult r (startStep s) (startStep s')) (hw : s.window = s'.window) {q : Reject}
    (hq : q ≠ .noWidth) : SameResult r (failHeader q s) (failHeader q s') := by
  obtain ⟨o, k, hk, e⟩ := h
  unfold Machine.failHeader
  rw [e, hw]
  cases q with
  | noWidth => exact absurd rfl hq
  | hdr2 | ext | key => exact ⟨o, k, hk, rfl⟩

theorem loadHeader (h : SameResult r s s') (op : BitVec 4) (f : FrameOps) :
    SameResult r (loadHeader op f s) (loadHeader op f s') := by
  obtain ⟨o, k, hk, rfl⟩ := h
  exact ⟨o, k, hk, rfl⟩

theorem chkStep (h : SameResult r s s') : SameResult r (chkStep s) (chkStep s') := by
  obtain ⟨o, k, hk, rfl⟩ := h
  unfold Machine.chkStep
  exact ite ⟨o, k, hk, rfl⟩ (ite ⟨o, k, hk, rfl⟩ (ite ⟨o, k, hk, rfl⟩ (ite ⟨o, s.pos, fun _ => rfl, rfl⟩ ⟨o, k, hk, rfl⟩)))

theorem payAll (h : SameResult r s s') : SameResult r (payAll s) (payAll s') := by
  obtain ⟨o, k, -, rfl⟩ := h
  exact ⟨_, _, fun _ => rfl, rfl⟩

theorem chkAndPay (h : SameResult r s s') : SameResult r (chkAndPay s) (chkAndPay s') := by
  unfold Machine.chkAndPay
  rw [h.chkStep.ph]
  exact ite h.chkStep.payAll h.chkStep

/-- The transport drops the pulse's count, which is the same where a pulse stands. -/
theorem transport (h : SameResult r s s') : SameResult r (transport s) (transport s') := by
  obtain ⟨o, k, hk, rfl⟩ := h
  refine ⟨o, k, by simpa using hk, ?_⟩
  unfold Machine.transport
  by_cases hc : s.consValid = true
  · simp [withRest, hc, hk hc]
  · simp [withRest, hc]

theorem eq (h : SameResult r s s') :
    s' = { s with out := s'.out, consK := s'.consK, beIn := r.beIn, beLen := r.beLen, beWidth := r.beWidth } := by
  obtain ⟨o, k, -, rfl⟩ := h
  rfl

end SameResult

/-- Two transactions on one window differ in OUT, the ports and a stale count alone. -/
theorem step_sameResult {s s' t t' : State} (hs : ParseAsked s) (hs' : ParseAsked s') (hg : s.grain = .transaction)
    (hg' : s'.grain = .transaction) (hw : s.window = s'.window) (h : step s = .next t) (h' : step s' = .next t') :
    SameResult s' t t' := by
  have hstart := SameResult.start hs hs' (hg.trans hg'.symm) hw
  cases hd : decode (.frame s.window) with
  | rejected q =>
    have hq : q ≠ .noWidth := fun e => decodeFrame_ne_noWidth s.window (e ▸ hd)
    cases (step_of_rejected hs hg hd).symm.trans h
    cases (step_of_rejected hs' hg' (hw ▸ hd)).symm.trans h'
    exact (hstart.failHeader hw hq).transport
  | instr i =>
    obtain ⟨hi, -, -⟩ := decodeFrame_eq_instr hd
    have hf := frame?_eq_some.2 hi
    cases (step_of_frame hs hg hd hf).symm.trans h
    cases (step_of_frame hs' hg' (hw ▸ hd) hf).symm.trans h'
    exact (hstart.loadHeader _ _).chkAndPay.transport

/-- Settles O50: the registers follow the window step by step, and the payload and the count are those of `parse`. -/
theorem resultDependsOnWindowOnly : Obligations.ResultDependsOnWindowOnly := by
  intro s s' t t' hs hs' hg hg' hw h h'
  have hsame : SameResult s' t t' := step_sameResult hs hs' hg hg' hw h h'
  refine ⟨hsame.eq, fun hk => ?_⟩
  have ha : AgreesWithParse s.window s t := step_agreesWithParse hs hg h
  have ha' : AgreesWithParse s.window s' t' := hw ▸ step_agreesWithParse hs' hg' h'
  obtain ⟨m, c, hp⟩ := ha.parse_ok_of_kind hk
  obtain ⟨-, -, hr, -, hcount, hout⟩ := ha.of_ok hp
  obtain ⟨-, -, hr', -, hcount', hout'⟩ := ha'.of_ok hp
  have hplen : t'.plen = t.plen := hr'.plen.trans hr.plen.symm
  exact ⟨hcount'.trans hcount.symm, fun a ha => (hout' a (hplen ▸ ha)).trans (hout a ha).symm⟩

end Sys2Proof.Machine

/-! # The family 20_memory: no step of a state of the invariant stops -/

namespace Sys2Proof.Machine

/-! ## Each phase goes on where its reads are below AVL and the host keeps the window (20_memory.md R61, R275) -/

section Phases

variable {s : State}

/-- A read below AVL of a window the host keeps finds its byte, and goes on as what follows it does. -/
theorem readWindow_goes_on {a : Nat} {k : Byte → Stepped} (ha : a < s.avl) (hw : s.avl ≤ s.window.length)
    (hk : ∀ b, ∃ t, k b = .next t) : ∃ t, readWindow a s k = .next t := by
  rw [readWindow_of k ha (List.getElem?_eq_getElem (ha.trans_le hw))]
  exact hk _

/-- B0 looks at AVL before it reads (43_message_parser.md R206). -/
theorem b0Step_goes_on (hw : s.avl ≤ s.window.length) : ∃ t, b0Step s = .next t := by
  unfold b0Step
  split
  · exact ⟨_, rfl⟩
  · next h => exact readWindow_goes_on (by omega) hw fun _ => ⟨_, rfl⟩

/-- B1 does not look, so it rests on what B0 has found (R207). -/
theorem b1Step_goes_on (ha : 2 ≤ s.avl) (hw : s.avl ≤ s.window.length) : ∃ t, b1Step s = .next t :=
  readWindow_goes_on ha hw fun _ => ⟨_, rfl⟩

theorem extStep_goes_on (hw : s.avl ≤ s.window.length) : ∃ t, extStep s = .next t := by
  unfold extStep
  split
  · exact ⟨_, rfl⟩
  · next h => exact readWindow_goes_on (not_le.1 h) hw fun _ => ⟨_, rfl⟩

/-- KEYP names one of the four key bytes (R209). -/
theorem keypStep_goes_on (hk : s.kcnt.toNat ≤ 3) (hw : s.avl ≤ s.window.length) : ∃ t, keypStep s = .next t := by
  unfold keypStep
  rw [if_pos hk]
  split
  · exact ⟨_, rfl⟩
  · next h => exact readWindow_goes_on (not_le.1 h) hw fun _ => ⟨_, rfl⟩

/-- PAY does not look either: CHK has found the whole payload below AVL (R210, R213). -/
theorem payStep_goes_on (ha : s.pos < s.avl) (hw : s.avl ≤ s.window.length) : ∃ t, payStep s = .next t :=
  readWindow_goes_on ha hw fun _ => ⟨_, rfl⟩

end Phases

/-! ## Under the invariant -/

/-- In PAY the byte at POS is one of the PLEN bytes behind the header (43_message_parser.md R216 (c)). -/
theorem Invariant.pos_lt_avl_of_pay {s : State} (h : Invariant s) (hp : s.ph = .pay) : s.pos < s.avl := by
  have hph := h.phase
  simp only [PhaseInv, hp] at hph
  obtain ⟨-, -, -, hpos, hidx, hfit, -⟩ := hph
  omega

/-- The step of a running transaction, phase by phase: what R216 says of the phase is what its reads need. -/
theorem serialStep_goes_on {s : State} (hi : Invariant s) (hidle : s.ph ≠ .idle) : ∃ t, serialStep s = .next t := by
  have hw : s.avl ≤ s.window.length := hi.windowKept hidle
  have hph := hi.phase
  unfold serialStep
  cases hp : s.ph <;> simp only [PhaseInv, hp] at hph ⊢
  case idle => exact absurd hp hidle
  case b0 => exact b0Step_goes_on hw
  case b1 =>
    obtain ⟨-, hbytes, -⟩ := hph
    exact b1Step_goes_on hbytes hw
  case ext => exact extStep_goes_on hw
  case keyp =>
    obtain ⟨-, -, hkcnt, -⟩ := hph
    exact keypStep_goes_on hkcnt hw
  case chk => exact ⟨_, rfl⟩
  case pay => exact payStep_goes_on (hi.pos_lt_avl_of_pay hp) hw

/-- Of the forms WSFP's own step can take only a phase step could stop. -/
theorem wsfpStep_goes_on {s : State} (hi : Invariant s) : ∃ t, wsfpStep s = .next t := by
  rcases wsfpStep_cases s with ⟨-, e⟩ | ⟨-, -, -, e⟩ | ⟨-, -, e⟩ | ⟨-, -, r, -, e⟩ | ⟨-, -, op, f, -, -, e⟩ |
      ⟨-, hidle, e⟩
  case inr.inr.inr.inr.inr => exact e ▸ serialStep_goes_on hi hidle
  all_goals exact ⟨_, e⟩

/-- Settles O37: WSFP's own step goes on, and the transport's answer stops nothing. -/
theorem noStopUnderInvariant : Obligations.NoStopUnderInvariant := by
  intro s hi
  obtain ⟨u, hu⟩ := wsfpStep_goes_on hi.quiet
  exact ⟨transport u, by rw [step_eq, hu, onNext_next]⟩

end Sys2Proof.Machine

/-! # The family 30_encoding: decoder and encoder agree, the header length, the 125-byte cap -/

namespace Sys2Proof

/-! ## The header length (30_encoding.md R93, R94) -/

/-- The length of the header that byte 1 announces: the two fixed bytes, the extended length, the key (R94). -/
def headerLength (b1 : Byte) : Nat := 2 + extBytes (lenOf b1) + if maskOf b1 then 4 else 0

/-- `ext` by the three ranges of `L` (R94). -/
theorem extBytes_eq_ite (L : BitVec 7) : extBytes L = if L ≤ 125#7 then 0 else if L = 126#7 then 2 else 8 := by
  revert L; decide

/-- Where the announced header is there, the decoder reads the frame with the opcode of byte 0 and the operands that the
header spells: none is rejected (R100, R102). -/
theorem decode_frame_of_headerLength_le {B : List Byte} (h : headerLength (byteAt B 1) ≤ B.length) :
    decode (.frame B) = .instr (frameOf (opcodeOf (byteAt B 0)) (frameOpsOf B)) := by
  unfold headerLength at h
  have hkey : ¬ (maskOf (byteAt B 1) = true ∧ B.length < 2 + extBytes (lenOf (byteAt B 1)) + 4) := by
    rintro ⟨hmask, hlt⟩
    rw [if_pos hmask] at h
    omega
  show decodeFrame B = _
  rw [decodeFrame, if_neg (by omega), if_neg (by omega), if_neg hkey]

/-- Where it is not, a byte is missing (41_header_parser.md R144 to R146, R150). -/
theorem decode_frame_of_lt_headerLength {B : List Byte} (h : B.length < headerLength (byteAt B 1)) :
    ∃ r, decode (.frame B) = .rejected r := by
  unfold headerLength at h
  show ∃ r, decodeFrame B = _
  unfold decodeFrame
  split
  · exact ⟨_, rfl⟩
  · split
    · exact ⟨_, rfl⟩
    · cases hmask : maskOf (byteAt B 1) <;> simp only [hmask, if_true, if_false, reduceCtorEq] at h
      · omega
      · exact ⟨_, if_pos ⟨rfl, h⟩⟩

theorem decode_frame_eq_instr_iff {B : List Byte} {i : Instr} :
    decode (.frame B) = .instr i ↔
      headerLength (byteAt B 1) ≤ B.length ∧ i = frameOf (opcodeOf (byteAt B 0)) (frameOpsOf B) := by
  rcases le_or_gt (headerLength (byteAt B 1)) B.length with hle | hlt
  · simp [decode_frame_of_headerLength_le hle, hle, eq_comm]
  · obtain ⟨r, hr⟩ := decode_frame_of_lt_headerLength hlt
    simp [hr, not_le.2 hlt]

/-- The operands spell a header of the announced length (R94). -/
theorem frameOpsOf_hlen_eq {B : List Byte} (h : headerLength (byteAt B 1) ≤ B.length) :
    (frameOpsOf B).hlen = headerLength (byteAt B 1) :=
  Machine.frameOpsOf_hlen (le_trans (Nat.le_add_right _ _) h)

/-- The operands, in terms of the two fixed bytes and of what follows them. -/
theorem frameOpsOf_cons_cons (b0 b1 : Byte) (bs : List Byte) :
    frameOpsOf (b0 :: b1 :: bs) =
      { fin := finOf b0, rsv1 := rsv1Of b0, rsv2 := rsv2Of b0, rsv3 := rsv3Of b0
        len := LenForm.ofBytes (lenOf b1) (bs.take (extBytes (lenOf b1)))
        key := if maskOf b1 then some (Key.ofList (bs.drop (extBytes (lenOf b1)))) else none } := by
  simp [frameOpsOf, byteAt, sliceOf, List.drop_take, Nat.add_comm 2]

/-! ## What the encoder writes, the decoder reads -/

/-- The key bytes at the end of a header: four or none (R98). -/
def FrameOps.keyBytes (f : FrameOps) : List Byte := f.key.elim [] Key.toList

theorem FrameOps.header_eq (op : BitVec 4) (f : FrameOps) :
    f.header op = f.byte0 op :: f.byte1 :: (f.len.bytes ++ f.keyBytes) := by
  unfold FrameOps.header FrameOps.keyBytes
  cases f.key <;> rfl

/-- Byte 1 of a well-formed frame announces the header that the encoder writes (R94). -/
theorem headerLength_byte1 {f : FrameOps} (hf : f.wf = true) : headerLength f.byte1 = f.hlen := by
  obtain ⟨hmask, hlen⟩ := byte1_fields f
  unfold headerLength FrameOps.hlen
  rw [hmask, hlen, LenForm.ext_field hf]

/-- The encoded header spells the operands it was made of, whatever follows it. -/
theorem frameOpsOf_header_append (op : BitVec 4) {f : FrameOps} (hf : f.wf = true) (rest : List Byte) :
    frameOpsOf (f.header op ++ rest) = f := by
  obtain ⟨hfin, hrsv1, hrsv2, hrsv3, -⟩ := byte0_fields op f
  obtain ⟨hmask, hlen⟩ := byte1_fields f
  have hext : extBytes f.len.field = f.len.bytes.length := by rw [LenForm.ext_field hf, LenForm.bytes_length]
  have hform : LenForm.ofBytes f.len.field f.len.bytes = f.len := LenForm.ofBytes_bytes hf
  have hkey : (if f.masked then some (Key.ofList (f.keyBytes ++ rest)) else none) = f.key := by
    unfold FrameOps.masked FrameOps.keyBytes
    cases f.key <;> rfl
  rw [FrameOps.header_eq, List.cons_append, List.cons_append, frameOpsOf_cons_cons, hfin, hrsv1, hrsv2, hrsv3, hmask,
    hlen, hext, List.append_assoc, List.take_left, List.drop_left, hform, hkey]

/-- The decoder reads a well-formed frame back from its header. -/
theorem decode_header_append {i : Instr} {op : BitVec 4} {f : FrameOps} (hi : i.frame? = some (op, f))
    (hf : f.wf = true) (rest : List Byte) : decode (.frame (f.header op ++ rest)) = .instr i := by
  obtain ⟨-, -, -, -, hop⟩ := byte0_fields op f
  refine decode_frame_eq_instr_iff.2 ⟨?_, ?_⟩
  · calc headerLength f.byte1 = (f.header op).length := by rw [headerLength_byte1 hf, f.header_length]
      _ ≤ (f.header op ++ rest).length := by simp
  · calc i = frameOf op f := frame?_eq_some.1 hi
      _ = frameOf (opcodeOf (f.byte0 op)) (frameOpsOf (f.header op ++ rest)) := by
        rw [hop, frameOpsOf_header_append op hf]

/-- Settles O1: a frame by its header bytes, a decoder operation by its port values. -/
theorem decodeOfEncodeIsInstr : Obligations.DecodeOfEncodeIsInstr := by
  intro i hwf
  cases hi : i.frame? with
  | some opf =>
    obtain ⟨op, f⟩ := opf
    rw [encode_of_frame? hi]
    exact decode_header_append hi (wf_of_frame? hi ▸ hwf)
  | none =>
    cases i with
    | be16 o | be32 o | be64 o => rfl
    | _ => cases hi

/-! ## What the decoder reads, the encoder writes -/

theorem Key.toList_ofList {bs : List Byte} (h : 4 ≤ bs.length) : (Key.ofList bs).toList = bs.take 4 := by
  match bs, h with
  | _ :: _ :: _ :: _ :: _, _ => rfl

/-- The operands that a header spells are well formed (R103). -/
theorem frameOpsOf_wf {B : List Byte} (h : headerLength (byteAt B 1) ≤ B.length) : (frameOpsOf B).wf = true := by
  unfold headerLength at h
  exact (LenForm.bytes_ofBytes _ _ (by rw [sliceOf_length]; omega)).2.2

/-- The encoder puts back the header bytes that the operands were read from (R107). -/
theorem header_frameOpsOf {b0 b1 : Byte} {bs : List Byte} (h : headerLength b1 ≤ bs.length + 2) :
    (frameOpsOf (b0 :: b1 :: bs)).header (opcodeOf b0) = b0 :: b1 :: bs.take (headerLength b1 - 2) := by
  unfold headerLength at h
  have hlast : headerLength b1 - 2 = extBytes (lenOf b1) + if maskOf b1 then 4 else 0 := by
    unfold headerLength
    omega
  have hbyte0 : (frameOpsOf (b0 :: b1 :: bs)).byte0 (opcodeOf b0) = b0 := byte0_ofFields b0 _ _
  have hbyte1 : (frameOpsOf (b0 :: b1 :: bs)).byte1 = b1 := by
    have hfield : (frameOpsOf (b0 :: b1 :: bs)).len.field = lenOf b1 :=
      (Machine.frameOpsOf_ext (B := b0 :: b1 :: bs) (show 2 + extBytes (lenOf b1) ≤ bs.length + 2 by omega)).2
    have hmasked : (frameOpsOf (b0 :: b1 :: bs)).masked = maskOf b1 := Machine.frameOpsOf_masked _
    rw [FrameOps.byte1, hfield, hmasked, byte1_ofFields]
  have hlen : (frameOpsOf (b0 :: b1 :: bs)).len.bytes = bs.take (extBytes (lenOf b1)) := by
    rw [frameOpsOf_cons_cons]
    exact (LenForm.bytes_ofBytes _ _ (by rw [List.length_take]; omega)).1
  have hkey : (frameOpsOf (b0 :: b1 :: bs)).keyBytes =
      (bs.drop (extBytes (lenOf b1))).take (if maskOf b1 then 4 else 0) := by
    rw [frameOpsOf_cons_cons]
    cases hmask : maskOf b1 with
    | false => rfl
    | true =>
      simp only [hmask, if_true] at h
      exact Key.toList_ofList (by rw [List.length_drop]; omega)
  rw [FrameOps.header_eq, hbyte0, hbyte1, hlen, hkey, hlast, List.take_add]

/-- A frame that is read from the window is well formed and encodes to the bytes it was read from. -/
theorem encode_of_decode_frame {B : List Byte} {i : Instr} (hd : decode (.frame B) = .instr i) :
    i.wf = true ∧ ∃ H rest, encode i = .frame H ∧ B = H ++ rest := by
  obtain ⟨hle, rfl⟩ := decode_frame_eq_instr_iff.1 hd
  refine ⟨(wf_of_frame? (frameOf_frame? _ _)).trans (frameOpsOf_wf hle), ?_⟩
  rw [encode_of_frame? (frameOf_frame? _ _)]
  match B, hle with
  | b0 :: b1 :: bs, hle =>
    refine ⟨_, bs.drop (headerLength b1 - 2), rfl, ?_⟩
    show _ = (frameOpsOf (b0 :: b1 :: bs)).header (opcodeOf b0) ++ _
    rw [header_frameOpsOf (b1 := b1) hle, List.cons_append, List.cons_append, List.take_append_drop]

/-- Each of the three widths is asked for by one port value (R109). -/
theorem encode_of_decode_ports {w : BitVec 2} {l : BitVec 4} {x : BeIn} {i : Instr}
    (hd : decode (.ports w l x) = .instr i) : encode i = .ports w l x := by
  have hwidths : ∀ v : BitVec 2, v = 0#2 ∨ v = 1#2 ∨ v = 2#2 ∨ v = 3#2 := by decide
  rcases hwidths w with rfl | rfl | rfl | rfl <;> cases hd <;> rfl

/-- Settles O2: frames from the window, decoder operations from the ports. -/
theorem encodeOfDecodeIsPrefix : Obligations.EncodeOfDecodeIsPrefix :=
  ⟨fun _ _ => encode_of_decode_frame, fun _ _ _ _ => encode_of_decode_ports⟩

/-! ## Byte 0 has no influence on any length (R94) -/

/-- The payload length is read from what follows byte 0. -/
theorem frameOpsOf_plen_byte0 (b0 b0' b1 : Byte) (bs : List Byte) :
    (frameOpsOf (b0' :: b1 :: bs)).plen = (frameOpsOf (b0 :: b1 :: bs)).plen := by
  rw [frameOpsOf_cons_cons, frameOpsOf_cons_cons]
  rfl

/-- Where the header that byte 1 announces is there, the bytes spell a frame with a header of that length. -/
theorem exists_frame_of_headerLength_le (b0 : Byte) {b1 : Byte} {bs : List Byte}
    (h : headerLength b1 ≤ bs.length + 2) :
    ∃ i H, decode (.frame (b0 :: b1 :: bs)) = .instr i ∧ encode i = .frame H ∧ H.length = headerLength b1 ∧
      i.frame? = some (opcodeOf b0, frameOpsOf (b0 :: b1 :: bs)) := by
  refine ⟨_, _, decode_frame_of_headerLength_le h, encode_of_frame? (frameOf_frame? _ _), ?_, frameOf_frame? _ _⟩
  rw [FrameOps.header_length]
  exact frameOpsOf_hlen_eq h

/-- Settles O4: whatever byte 0 is, it is followed by the same announced header. -/
theorem headerLengthFromByteOne : Obligations.HeaderLengthFromByteOne := by
  intro b0 b1 rest i hd
  have hle : headerLength b1 ≤ rest.length + 2 := (decode_frame_eq_instr_iff.1 hd).1
  obtain ⟨j, H, hj, hH, hlen, hframe⟩ := exists_frame_of_headerLength_le b0 hle
  obtain rfl : i = j := Decoded.instr.inj (hd.symm.trans hj)
  refine ⟨H, hH, by rw [hlen, headerLength, extBytes_eq_ite], fun b0' => ?_⟩
  obtain ⟨i', H', hd', hH', hlen', hframe'⟩ := exists_frame_of_headerLength_le b0' hle
  exact ⟨i', H', hd', hH', hlen'.trans hlen.symm, _, _, _, _, hframe, hframe', frameOpsOf_plen_byte0 b0 b0' b1 rest⟩

/-! ## Words of the spec's tables (R93, R99, R109) -/

/-- Settles O3: the decoder evaluates each word. -/
theorem decodesWrittenOutWords : Obligations.DecodesWrittenOutWords := by
  unfold Obligations.DecodesWrittenOutWords
  decide

end Sys2Proof

namespace Sys2Proof.Machine

/-! ## The 125-byte cap (30_encoding.md R104, 41_header_parser.md R147) -/

/-- CHK looks at the cap first: a control frame above it ends in CTRL_LEN, whatever else the header says. -/
theorem chkAndPay_of_cap_violation {s : State} (hcap : ctrlRange s.opc = true ∧ 125#64 < s.plen) :
    chkAndPay s = fail .protocolViolation .ctrlLen { s with hlen := BitVec.ofNat 4 s.pos } := by
  rcases chkAndPay_cases s with ⟨-, h⟩ | ⟨h, -⟩ | ⟨h, -⟩ | ⟨h, -⟩
  · exact h
  all_goals exact absurd hcap h

/-- A frame with an opcode from 8 on and more than 125 bytes, from IDLE. -/
theorem exec_of_cap_violation {i : Instr} {op : BitVec 4} {f : FrameOps} {s : State} (hi : i.frame? = some (op, f))
    (hidle : s.ph = .idle) (hop : ctrlRange op = true) (hlen : 125 < f.plen.toNat) :
    exec i s = .next { headerRead op f s with
      pos := f.hlen, idx := 0, hdrOk := false, kind := .protocolViolation, cause := .ctrlLen, cons := 0,
      consValid := false } := by
  have hcap : ctrlRange (loadHeader op f (startStep s)).opc = true ∧ 125#64 < (loadHeader op f (startStep s)).plen :=
    ⟨hop, (lt_125_iff _).2 hlen⟩
  rw [exec_of_frame? hi, parseFrame_idle op f hidle, chkAndPay_of_cap_violation hcap]
  rfl

/-- The eight frames under the cap are those of the opcodes from 8 on (R104). -/
theorem capped_frame? {f : FrameOps} {i : Instr}
    (hi : i ∈ [Instr.close f, Instr.ping f, Instr.pong f, Instr.rsvB f, Instr.rsvC f, Instr.rsvD f, Instr.rsvE f,
      Instr.rsvF f]) : ∃ op, i.frame? = some (op, f) ∧ ctrlRange op = true := by
  simp only [List.mem_cons, List.not_mem_nil, or_false] at hi
  rcases hi with rfl | rfl | rfl | rfl | rfl | rfl | rfl | rfl <;> exact ⟨_, rfl, rfl⟩

/-- Settles O15: each of the eight is a frame in the control range, and CHK looks at the cap first. -/
theorem capViolationTraps : Obligations.CapViolationTraps := by
  intro f s hidle hlen i hi
  obtain ⟨op, hframe, hop⟩ := capped_frame? hi
  exact ⟨op, hframe, exec_of_cap_violation hframe hidle hop hlen⟩

end Sys2Proof.Machine

/-! # The family 40_be_decoder: the big-endian value, the decode function, the unit on its ports -/

namespace Sys2Proof

/-! ## The big-endian value (10_state.md R14, 40_be_decoder.md R135) -/

/-- A byte behind the first is a byte of the rest. -/
theorem byteAt_cons_succ (b : Byte) (bs : List Byte) (i : Nat) : byteAt (b :: bs) (i + 1) = byteAt bs i := rfl

/-- Byte `i` of `n` weighs `256^(n-1-i)` (R14). -/
theorem beValue_eq_sum (bs : List Byte) :
    beValue bs = ∑ i ∈ Finset.range bs.length, (byteAt bs i).toNat * 256 ^ (bs.length - 1 - i) := by
  induction bs with
  | nil => rfl
  | cons b bs ih =>
    have hweight : ∀ i, bs.length + 1 - 1 - (i + 1) = bs.length - 1 - i := by omega
    rw [beValue_cons, ih, List.length_cons, Finset.sum_range_succ', add_comm]
    simp only [byteAt_cons_succ, hweight]
    rfl

/-- The first byte is the quotient and the rest the remainder, since the rest is below `256^n` (R135 (a)). -/
theorem beValue_cons_div_mod (b : Byte) (bs : List Byte) :
    beValue (b :: bs) / 256 ^ bs.length = b.toNat ∧ beValue (b :: bs) % 256 ^ bs.length = beValue bs := by
  refine (Nat.div_mod_unique (by positivity)).2 ⟨?_, beValue_lt bs⟩
  rw [beValue_cons]
  ring

/-- Two sequences of one length with one value are equal (R135 (b)). -/
theorem eq_of_beValue_eq {S T : List Byte} (hlen : S.length = T.length) (h : beValue S = beValue T) : S = T := by
  induction S generalizing T with
  | nil => exact (List.length_eq_zero_iff.1 hlen.symm).symm
  | cons b bs ih =>
    cases T with
    | nil => cases hlen
    | cons c cs =>
      have hlen' : bs.length = cs.length := Nat.succ.inj hlen
      obtain ⟨hb, hbs⟩ := beValue_cons_div_mod b bs
      obtain ⟨hc, hcs⟩ := beValue_cons_div_mod c cs
      rw [h, hlen'] at hb hbs
      rw [BitVec.eq_of_toNat_eq (hb.symm.trans hc), ih hlen' (hbs.symm.trans hcs)]

/-- Leading zero bytes add nothing (R135 (d)). -/
theorem beValue_replicate_zero_append (n : Nat) (bs : List Byte) :
    beValue (List.replicate n 0#8 ++ bs) = beValue bs := by
  induction n with
  | zero => rfl
  | succ n ih => rw [List.replicate_succ, List.cons_append, beValue_cons, ih, BitVec.toNat_ofNat, Nat.zero_mod, zero_mul,
      zero_add]

/-! ## The decode function (40_be_decoder.md R130) -/

/-- `W / 8` bytes are `W` bits. -/
theorem BeWidth.pow_bytes (w : BeWidth) : 256 ^ w.bytes = 2 ^ w.bits := by cases w <;> rfl

theorem BeWidth.bits_le (w : BeWidth) : w.bits ≤ 64 := by cases w <;> decide

theorem beValue_lt_of_length {w : BeWidth} {S : List Byte} (h : S.length = w.bytes) : beValue S < 2 ^ w.bits := by
  rw [← w.pow_bytes, ← h]
  exact beValue_lt S

theorem beDecode_of_length_eq {w : BeWidth} {S : List Byte} (h : S.length = w.bytes) :
    beDecode w S = .value (BitVec.ofNat w.bits (beValue S)) := if_pos h

theorem beDecode_of_length_ne {w : BeWidth} {S : List Byte} (h : S.length ≠ w.bytes) :
    beDecode w S = .lengthMismatch := if_neg h

/-- The `W` bits hold the whole value (R135 (a)). -/
theorem toNat_ofNat_beValue {w : BeWidth} {S : List Byte} (h : S.length = w.bytes) :
    (BitVec.ofNat w.bits (beValue S)).toNat = beValue S := by
  rw [BitVec.toNat_ofNat, Nat.mod_eq_of_lt (beValue_lt_of_length h)]

/-- Extended to 64 bits, the number is the value of the bytes whatever the width. -/
theorem zext64_beDecode {w : BeWidth} {S : List Byte} (h : S.length = w.bytes) :
    (beDecode w S).zext64 = BitVec.ofNat 64 (beValue S) := by
  rw [beDecode_of_length_eq h]
  apply BitVec.eq_of_toNat_eq
  show ((BitVec.ofNat w.bits (beValue S)).setWidth 64).toNat = _
  rw [BitVec.toNat_setWidth, toNat_ofNat_beValue h, BitVec.toNat_ofNat]

/-- Settles O24: the value is the sum of the weighed bytes, and it fits the width. -/
theorem beDecodeIsBigEndianSum : Obligations.BeDecodeIsBigEndianSum := fun _ S =>
  ⟨fun h => ⟨_, beDecode_of_length_eq h, (toNat_ofNat_beValue h).trans (beValue_eq_sum S)⟩,
    beDecode_of_length_ne⟩

theorem eq_of_beDecode_eq {w : BeWidth} {S T : List Byte} (hS : S.length = w.bytes) (hT : T.length = w.bytes)
    (h : beDecode w S = beDecode w T) : S = T := by
  rw [beDecode_of_length_eq hS, beDecode_of_length_eq hT] at h
  refine eq_of_beValue_eq (hS.trans hT.symm) ?_
  rw [← toNat_ofNat_beValue hS, BeResult.value.inj h, toNat_ofNat_beValue hT]

/-- Settles O25: the value determines the bytes, and both decodes extend to the value of the last two bytes. -/
theorem beDecodeInjective : Obligations.BeDecodeInjective := by
  refine ⟨fun w S T => eq_of_beDecode_eq, fun a b => ?_⟩
  rw [zext64_beDecode (w := .w64) rfl, zext64_beDecode (w := .w16) rfl]
  exact congrArg (BitVec.ofNat 64) (beValue_replicate_zero_append 6 [a, b])

end Sys2Proof

namespace Sys2Proof.Machine

/-! ## The unit on its ports (40_be_decoder.md R134, 10_state.md R35) -/

/-- The port value that asks for a width (R35). -/
def portOf : BeWidth → BitVec 2
  | .w16 => 0#2
  | .w32 => 1#2
  | .w64 => 2#2

theorem beUnit_portOf (w : BeWidth) (len : BitVec 4) (x : BeIn) :
    beUnit (portOf w) len x =
      if len.toNat = w.bytes then .value (beDecode w (x.toList.take w.bytes)).zext64 else .lengthMismatch := by
  cases w <;> rfl

/-- `be_len` can name the length of every width. -/
theorem toNat_eq_bytes_iff (w : BeWidth) (len : BitVec 4) :
    len.toNat = w.bytes ↔ len = BitVec.ofNat 4 w.bytes := by
  have hbytes : (BitVec.ofNat 4 w.bytes).toNat = w.bytes := by cases w <;> rfl
  rw [← BitVec.toNat_inj, hbytes]

theorem length_take_bytes (w : BeWidth) (x : BeIn) : (x.toList.take w.bytes).length = w.bytes := by
  cases w <;> rfl

theorem beErr_eq_true_iff (s : State) :
    s.beErr = true ↔ beUnit s.beWidth s.beLen s.beIn = .lengthMismatch := by
  unfold State.beErr
  cases beUnit s.beWidth s.beLen s.beIn <;> simp

theorem beVal_of_value {s : State} {v : BitVec 64} (h : beUnit s.beWidth s.beLen s.beIn = .value v) :
    s.beVal = v := by rw [State.beVal, h]

section Width

variable (w : BeWidth) (len : BitVec 4) (x : BeIn) (s : State)

/-- Asked for a width, the unit reports an error exactly of another number of bytes. -/
theorem driveDecoder_portOf_beErr :
    (driveDecoder (portOf w) len x s).beErr = true ↔ len ≠ BitVec.ofNat 4 w.bytes := by
  rw [beErr_eq_true_iff, driveDecoder_beWidth, driveDecoder_beLen, driveDecoder_beIn, beUnit_portOf, Ne,
    ← toNat_eq_bytes_iff]
  split <;> simp [*]

/-- Of the number of bytes that the width asks for, the unit's value is their big-endian value. -/
theorem driveDecoder_portOf_beVal (h : len = BitVec.ofNat 4 w.bytes) :
    (driveDecoder (portOf w) len x s).beVal = BitVec.ofNat 64 (beValue (x.toList.take w.bytes)) := by
  have hunit := beUnit_portOf w len x
  rw [if_pos ((toNat_eq_bytes_iff w len).2 h), zext64_beDecode (length_take_bytes w x)] at hunit
  exact beVal_of_value hunit

theorem driveDecoder_portOf_beVal_toNat (h : len = BitVec.ofNat 4 w.bytes) :
    (driveDecoder (portOf w) len x s).beVal.toNat = beValue (x.toList.take w.bytes) := by
  have hlt : beValue (x.toList.take w.bytes) < 2 ^ 64 :=
    lt_of_lt_of_le (beValue_lt_of_length (length_take_bytes w x)) (Nat.pow_le_pow_right (by decide) w.bits_le)
  rw [driveDecoder_portOf_beVal w len x s h, BitVec.toNat_ofNat, Nat.mod_eq_of_lt hlt]

end Width

/-! ## The three operations (R131 to R133) -/

/-- Settles O22: the operation drives the ports; the loop and the sum are the value of the eight bytes. -/
theorem be64Decodes : Obligations.Be64Decodes := by
  intro o s
  refine ⟨_, rfl, rfl, driveDecoder_portOf_beErr .w64 o.len o.bytes s, fun hlen => ⟨?_, ?_⟩⟩
  · calc (driveDecoder 2#2 o.len o.bytes s).beVal
        = BitVec.ofNat 64 (beValue o.bytes.toList) := driveDecoder_portOf_beVal .w64 o.len o.bytes s hlen
      _ = shiftIn 0#64 o.bytes.toList := (shiftIn_ofNat _ le_rfl).symm
  · calc (driveDecoder 2#2 o.len o.bytes s).beVal.toNat
        = beValue o.bytes.toList := driveDecoder_portOf_beVal_toNat .w64 o.len o.bytes s hlen
      _ = _ := by
        simp only [BeIn.toList, beValue, List.foldl_cons, List.foldl_nil]
        ring

/-- Settles O20: the operation drives the ports; the value is that of the first two bytes. -/
theorem be16Decodes : Obligations.Be16Decodes := by
  intro o s
  refine ⟨_, rfl, rfl, driveDecoder_portOf_beErr .w16 o.len o.bytes s, fun hlen => ?_⟩
  calc (driveDecoder 0#2 o.len o.bytes s).beVal.toNat
      = beValue [o.bytes.b0, o.bytes.b1] := driveDecoder_portOf_beVal_toNat .w16 o.len o.bytes s hlen
    _ = _ := by simp only [beValue, List.foldl_cons, List.foldl_nil, mul_zero, zero_add]

/-- Settles O21: the operation drives the ports; the value is that of the first four bytes. -/
theorem be32Decodes : Obligations.Be32Decodes := by
  intro o s
  refine ⟨_, rfl, rfl, driveDecoder_portOf_beErr .w32 o.len o.bytes s, fun hlen => ?_⟩
  calc (driveDecoder 1#2 o.len o.bytes s).beVal.toNat
      = beValue [o.bytes.b0, o.bytes.b1, o.bytes.b2, o.bytes.b3] :=
        driveDecoder_portOf_beVal_toNat .w32 o.len o.bytes s hlen
    _ = _ := by
      simp only [beValue, List.foldl_cons, List.foldl_nil]
      ring

/-- Settles O23: the unit and the decoder of the ports both answer "no width" whatever stands on `be_len`. -/
theorem widthThreeIsAnError : Obligations.WidthThreeIsAnError := fun _ _ _ =>
  ⟨(beErr_eq_true_iff _).2 rfl, rfl⟩

/-! ## The step that carries the operation out (R109, R134) -/

theorem wsfpStep_eq_idleStep {s : State} (hidle : s.ph = .idle) (hstart : s.start = false) (hrst : s.rst = false) :
    wsfpStep s = idleStep s := by simp [wsfpStep, hidle, hstart, hrst]

theorem idleStep_of_decode {s : State} {i : Instr} (hd : decode (.ports s.beWidth s.beLen s.beIn) = .instr i) :
    idleStep s = exec i s := by rw [idleStep, hd]

/-- Settles O7: from IDLE with `start = 0` WSFP's own step is the idle step, which runs what stands on the ports. -/
theorem stepRunsDecoderOperation : Obligations.StepRunsDecoderOperation := by
  intro s i hidle hstart hrst hd
  have hrun : wsfpStep (quiet s) = exec i (quiet s) :=
    (wsfpStep_eq_idleStep (s := quiet s) hidle hstart hrst).trans (idleStep_of_decode hd)
  rw [step_eq, hrun]

end Sys2Proof.Machine

/-! # The family 41_header_parser: which bytes of a header are missing, and a reserved opcode without `fin` -/

namespace Sys2Proof

/-! ## The verdicts by the form of the length (41_header_parser.md R144 to R146, R150) -/

/-- A 7-bit length announces no longer form (30_encoding.md R94). -/
theorem ne_of_le_125 {L : BitVec 7} (hL : L ≤ 125#7) : L ≠ 126#7 ∧ L ≠ 127#7 := by
  revert L; decide

section Verdict

variable (L : BitVec 7) {n : Nat}

/-- The extended length is cut short only where one is announced (R144, R145). -/
theorem lt_two_add_extBytes_iff (h : 2 ≤ n) :
    n < 2 + extBytes L ↔ (L = 126#7 ∧ n < 4) ∨ (L = 127#7 ∧ n < 10) := by
  rcases extBytes_cases L with ⟨hL, he⟩ | ⟨rfl, he⟩ | ⟨rfl, he⟩ <;> rw [he]
  · obtain ⟨h126, h127⟩ := ne_of_le_125 hL
    simp only [h126, h127, false_and, or_self, iff_false]
    omega
  · simp
  · simp

/-- The key is cut short where the length is whole and fewer than four bytes follow it (R146). -/
theorem key_cut_short_iff (h : 2 ≤ n) :
    2 + extBytes L ≤ n ∧ n < 6 + extBytes L ↔
      (L ≤ 125#7 ∧ n < 6) ∨ (L = 126#7 ∧ 4 ≤ n ∧ n < 8) ∨ (L = 127#7 ∧ 10 ≤ n ∧ n < 14) := by
  rcases extBytes_cases L with ⟨hL, he⟩ | ⟨rfl, he⟩ | ⟨rfl, he⟩ <;> rw [he]
  · obtain ⟨h126, h127⟩ := ne_of_le_125 hL
    simp [h126, h127, hL, h]
  · simp
  · simp

/-- With the key, four bytes more than without (R148). -/
theorem six_add_extBytes :
    6 + extBytes L = if L ≤ 125#7 then 6 else if L = 126#7 then 8 else 14 := by
  rw [extBytes_eq_ite]
  split_ifs <;> rfl

end Verdict

/-- The header that byte 1 announces is there when its length bytes are and, under a mask, its key is (R144 to R146). -/
theorem headerLength_le {b1 : Byte} {n : Nat} (hext : 2 + extBytes (lenOf b1) ≤ n)
    (hkey : maskOf b1 = true → 6 + extBytes (lenOf b1) ≤ n) : headerLength b1 ≤ n := by
  unfold headerLength
  split
  · next hmask =>
    have := hkey hmask
    omega
  · exact hext

/-- Settles O5: each verdict by the number of bytes, and the number of bytes by the form of the length; where no byte is
missing the announced header is read. -/
theorem missingHeaderBytesVerdict : Obligations.MissingHeaderBytesVerdict := by
  intro B
  obtain ⟨hhdr2, hext, hkey⟩ := Machine.decode_rejected_iff B
  refine ⟨hhdr2, hext.trans (and_congr_right (lt_two_add_extBytes_iff _)),
    hkey.trans (and_congr_right fun h2 => ?_), ?_⟩
  · rw [← key_cut_short_iff _ h2]
    tauto
  · intro h2 h126 h127 hmask
    have hwhole : 2 + extBytes (lenOf (byteAt B 1)) ≤ B.length := by
      rw [← not_lt, lt_two_add_extBytes_iff _ h2]
      rintro (⟨hL, hlt⟩ | ⟨hL, hlt⟩)
      · exact absurd (h126 hL) (not_le.2 hlt)
      · exact absurd (h127 hL) (not_le.2 hlt)
    rw [← six_add_extBytes] at hmask
    exact ⟨_, _, decode_frame_of_headerLength_le (headerLength_le hwhole hmask), frameOf_frame? _ _⟩

end Sys2Proof

namespace Sys2Proof.Machine

/-! ## A reserved opcode without `fin` (41_header_parser.md R149, 46_reserved_frames.md R180) -/

/-- CHK looks at the reserved opcodes after the cap: within the cap, one without `fin` ends in RSV_NOFIN, whether or not
the payload is there. -/
theorem chkAndPay_of_reserved_without_fin {s : State} (hcap : ¬ (ctrlRange s.opc = true ∧ 125#64 < s.plen))
    (hrsv : reserved s.opc = true ∧ s.fin = false) :
    chkAndPay s = fail .protocolViolation .rsvNoFin { s with hlen := BitVec.ofNat 4 s.pos } := by
  rcases chkAndPay_cases s with ⟨h, -⟩ | ⟨-, -, h⟩ | ⟨-, h, -⟩ | ⟨-, h, -⟩
  · exact absurd h hcap
  · exact h
  all_goals exact absurd hrsv h

/-- A frame with a reserved opcode and `fin = 0` that does not exceed the cap, from IDLE. -/
theorem exec_of_reserved_without_fin {i : Instr} {op : BitVec 4} {f : FrameOps} {s : State}
    (hi : i.frame? = some (op, f)) (hidle : s.ph = .idle) (hfin : f.fin = false) (hop : reserved op = true)
    (hlen : ctrlRange op = true → f.plen.toNat ≤ 125) :
    exec i s = .next { headerRead op f s with
      pos := f.hlen, idx := 0, hdrOk := false, kind := .protocolViolation, cause := .rsvNoFin, cons := 0,
      consValid := false } := by
  have hcap : ¬ (ctrlRange (loadHeader op f (startStep s)).opc = true ∧
      125#64 < (loadHeader op f (startStep s)).plen) :=
    fun ⟨hctrl, hlt⟩ => absurd ((lt_125_iff _).1 hlt) (not_lt.2 (hlen hctrl))
  rw [exec_of_frame? hi, parseFrame_idle op f hidle, chkAndPay_of_reserved_without_fin hcap ⟨hop, hfin⟩]
  rfl

/-- `rsv3` to `rsv7` are the reserved opcodes that the cap does not touch (R180). -/
theorem reservedNonControl_frame? {f : FrameOps} {i : Instr}
    (hi : i ∈ [Instr.rsv3 f, Instr.rsv4 f, Instr.rsv5 f, Instr.rsv6 f, Instr.rsv7 f]) :
    ∃ op, i.frame? = some (op, f) ∧ reserved op = true ∧ ctrlRange op = false := by
  simp only [List.mem_cons, List.not_mem_nil, or_false] at hi
  rcases hi with rfl | rfl | rfl | rfl | rfl <;> exact ⟨_, rfl, rfl, rfl⟩

/-- `rsvB` to `rsvF` are reserved too (R180). -/
theorem reservedControl_frame? {f : FrameOps} {i : Instr}
    (hi : i ∈ [Instr.rsvB f, Instr.rsvC f, Instr.rsvD f, Instr.rsvE f, Instr.rsvF f]) :
    ∃ op, i.frame? = some (op, f) ∧ reserved op = true := by
  simp only [List.mem_cons, List.not_mem_nil, or_false] at hi
  rcases hi with rfl | rfl | rfl | rfl | rfl <;> exact ⟨_, rfl, rfl⟩

/-- Settles O16: below 8 the cap does not apply, from 8 on the length is within it. -/
theorem reservedWithoutFinTraps : Obligations.ReservedWithoutFinTraps := by
  rintro f s i hidle hfin (hi | ⟨hi, hlen⟩)
  · obtain ⟨op, hframe, hop, hctrl⟩ := reservedNonControl_frame? hi
    exact ⟨op, hframe, exec_of_reserved_without_fin hframe hidle hfin hop fun h => by simp [hctrl] at h⟩
  · obtain ⟨op, hframe, hop⟩ := reservedControl_frame? hi
    exact ⟨op, hframe, exec_of_reserved_without_fin hframe hidle hfin hop fun _ => hlen⟩

end Sys2Proof.Machine

/-! # The family 42_payload_extractor: the unmasking transform, a payload that is short -/

namespace Sys2Proof

/-! ## Key bytes by index (42_payload_extractor.md R162) -/

/-- The byte-wise XOR of two keys. -/
def Key.xor (k l : Key) : Key := ⟨k.k0 ^^^ l.k0, k.k1 ^^^ l.k1, k.k2 ^^^ l.k2, k.k3 ^^^ l.k3⟩

/-- Key bytes are taken in arrival order, and every fourth index has the same byte. -/
theorem Key.get_eq_getD (k : Key) (i : Nat) : k.get i = k.toList.getD (i % 4) 0#8 := by
  unfold Key.get
  have hlt : i % 4 < 4 := Nat.mod_lt i (by decide)
  generalize i % 4 = r at hlt
  interval_cases r <;> rfl

@[simp] theorem Key.get_zero (i : Nat) : Key.zero.get i = 0#8 := by
  unfold Key.get
  split <;> rfl

theorem Key.get_xor (k l : Key) (i : Nat) : (k.xor l).get i = k.get i ^^^ l.get i := by
  unfold Key.get
  split <;> rfl

theorem Key.xor_self (k : Key) : k.xor k = Key.zero := by
  simp [Key.xor, Key.zero]

end Sys2Proof

namespace Sys2Proof.Machine

/-! ## The transform (42_payload_extractor.md R165, R166) -/

theorem xorkey_length (S : List Byte) (k : Key) : (xorkey S k).length = S.length :=
  xorkeyFrom_length k 0 S

theorem xorkey_getElem? (S : List Byte) (k : Key) (i : Nat) :
    (xorkey S k)[i]? = (S[i]?).map (fun b => b ^^^ k.get i) := by
  simp only [xorkey, xorkeyFrom_getElem?, Nat.zero_add]

theorem xorkey_zero (S : List Byte) : xorkey S Key.zero = S := by
  apply List.ext_getElem?
  intro i
  simp [xorkey_getElem?]

/-- Two keys one after the other act as their XOR: at each index, XOR is associative. -/
theorem xorkey_xorkey (S : List Byte) (k l : Key) : xorkey (xorkey S k) l = xorkey S (k.xor l) := by
  apply List.ext_getElem?
  intro i
  simp [xorkey_getElem?, Key.get_xor, Function.comp_def, BitVec.xor_assoc]

/-- Each key is its own inverse: twice the same key is the zero key. -/
theorem xorkey_xorkey_self (S : List Byte) (k : Key) : xorkey (xorkey S k) k = S := by
  rw [xorkey_xorkey, Key.xor_self, xorkey_zero]

/-- Settles O56: the inverse is the composition law at equal keys. -/
theorem xorkeyInvolution : Obligations.XorkeyInvolution := fun S k l =>
  ⟨xorkey_xorkey_self S k, xorkey_length S k, xorkey_zero S, xorkey_xorkey S k l⟩

/-- Settles O57: the byte at index `i`, with the key read as a list. -/
theorem unmaskIsLocal : Obligations.UnmaskIsLocal := by
  intro S k i
  rw [xorkey_getElem?, Key.get_eq_getD]

/-! ## A payload that is short (42_payload_extractor.md R161) -/

/-- A header within the cap does not take CTRL_LEN, in the form in which CHK tests it (R147). -/
theorem not_cap_violation {op : BitVec 4} {n : BitVec 64} (h : 8 ≤ op.toNat → n.toNat ≤ 125) :
    ¬ (ctrlRange op = true ∧ 125#64 < n) := by
  rw [ctrlRange_iff, lt_125_iff]
  rintro ⟨hop, hn⟩
  exact absurd (h hop) (not_le.2 hn)

/-- A reserved opcode that comes with `fin` does not take RSV_NOFIN, in the form in which CHK tests it (R149). -/
theorem not_reserved_without_fin {op : BitVec 4} {fin : Bool} (h : reserved op = true → fin = true) :
    ¬ (reserved op = true ∧ fin = false) := by
  rintro ⟨hop, hfin⟩
  simp [h hop] at hfin

/-- Settles O17: CHK passes both header rules and finds fewer than PLEN bytes after the header. -/
theorem missingPayloadTraps : Obligations.MissingPayloadTraps := by
  intro i op f s hi hidle hcap hrsv hshort
  have hshort' : (loadHeader op f (startStep s)).avl <
      (loadHeader op f (startStep s)).pos + (loadHeader op f (startStep s)).plen.toNat := not_le.1 hshort
  rw [exec_of_frame? hi, parseFrame_idle op f hidle,
    chkAndPay_of_short_payload (not_cap_violation hcap) (not_reserved_without_fin hrsv) hshort']
  rfl

end Sys2Proof.Machine

/-! # The family 43_message_parser: the phase steps, the invariant, the function level, the two grains -/

namespace Sys2Proof

/-! ## Counters, keys, lengths and slices as the phases use them -/

/-- A number cut to a register's bits does not grow. -/
theorem toNat_ofNat_le {w n m : Nat} (h : n ≤ m) : (BitVec.ofNat w n).toNat ≤ m := by
  rw [BitVec.toNat_ofNat]
  exact (Nat.mod_le _ _).trans h

theorem toNat_extn_pred {n : BitVec 4} (h : 1 ≤ n.toNat) : (n - 1#4).toNat = n.toNat - 1 := by
  simp only [BitVec.toNat_sub, BitVec.toNat_ofNat]
  omega

theorem toNat_kcnt_succ {k : BitVec 3} (h : k.toNat ≤ 3) : (k + 1#3).toNat = k.toNat + 1 := by
  simp only [BitVec.toNat_add, BitVec.toNat_ofNat]
  omega

/-- EXTN after B1, by the three ranges of `L` (R207). -/
theorem ofNat_extBytes (L : BitVec 7) :
    BitVec.ofNat 4 (extBytes L) = if L.toNat ≤ 125 then 0#4 else if L.toNat = 126 then 2#4 else 8#4 := by
  revert L; decide

/-- `KEY[j] <- b` writes one of the four key bytes. -/
theorem Key.get_set (k : Key) (b : Byte) {i j : Nat} (hi : i < 4) (hj : j < 4) :
    (k.set i b).get j = if j = i then b else k.get j := by
  interval_cases i <;> interval_cases j <;> rfl

/-- The last EXT step is the one with EXTN = 1. -/
theorem extn_sub_one_eq_zero_iff (n : BitVec 4) : n - 1#4 = 0#4 ↔ n = 1#4 := by
  revert n; decide

/-- The last KEYP step is the one with KCNT = 3. -/
theorem kcnt_add_one_eq_four_iff (n : BitVec 3) : n + 1#3 = 4#3 ↔ n = 3#3 := by
  revert n; decide

/-- The short form's length is `L` itself (30_encoding.md R95). -/
theorem value_ofBytes_short {L : BitVec 7} (h : L ≤ 125#7) (e : List Byte) :
    (LenForm.ofBytes L e).value = L.setWidth 64 := by
  obtain ⟨h126, h127⟩ := ne_of_le_125 h
  simp [LenForm.ofBytes, LenForm.value, h126, h127]

/-- A longer form's length is the value of its bytes (R96, R97). -/
theorem value_ofBytes_ext {L : BitVec 7} {e : List Byte} (h : 0 < extBytes L) (he : e.length = extBytes L) :
    (LenForm.ofBytes L e).value = BitVec.ofNat 64 (beValue e) := by
  rcases extBytes_cases L with ⟨-, hx⟩ | ⟨rfl, hx⟩ | ⟨rfl, -⟩
  · omega
  · have hlt := beValue_lt e
    rw [he, hx] at hlt
    apply BitVec.eq_of_toNat_eq
    simp only [LenForm.ofBytes, LenForm.value, if_true, BitVec.toNat_setWidth, BitVec.toNat_ofNat]
    omega
  · simp [LenForm.ofBytes, LenForm.value]

/-- EXTN counted down from `n` by `m` (R208). -/
theorem extn_ofNat_sub {n m : Nat} (hm : m ≤ n) (hn : n ≤ 8) :
    BitVec.ofNat 4 n - BitVec.ofNat 4 m = BitVec.ofNat 4 (n - m) := by
  apply BitVec.eq_of_toNat_eq
  simp only [BitVec.toNat_sub, BitVec.toNat_ofNat]
  omega

/-- A slice that reaches the end of the window. -/
theorem sliceOf_length_eq_drop (B : List Byte) (a : Nat) : sliceOf B a B.length = B.drop a := by
  rw [sliceOf, List.take_length]

end Sys2Proof

namespace Sys2Proof.Machine

/-! ## What each phase step can answer (43_message_parser.md R206 to R209, R213) -/

/-- An EXT step that reads the byte `b` (R208). -/
def loadExtByte (b : Byte) (s : State) : State :=
  { s with
    plen := (s.plen <<< 8) ||| b.setWidth 64, pos := s.pos + 1, extn := s.extn - 1#4,
    ph := if s.extn - 1#4 = 0#4 then (if s.msk then .keyp else .chk) else .ext }

/-- A KEYP step that reads the byte `b` (R209). -/
def loadKeyByte (b : Byte) (s : State) : State :=
  { s with
    key := s.key.set s.kcnt.toNat b, kcnt := s.kcnt + 1#3, pos := s.pos + 1,
    ph := if s.kcnt + 1#3 = 4#3 then .chk else .keyp }

/-- The payload byte `b` written in a PAY step, before the test whether it is the last (R213). -/
def writePayByte (b : Byte) (s : State) : State :=
  { s with
    out := Memory.write s.out s.idx (unmaskByte s.msk s.key s.idx b), idx := s.idx + 1, pos := s.pos + 1 }

theorem b0Step_eq_next {s t : State} (h : b0Step s = .next t) :
    (s.avl < 2 ∧ t = fail .insufficientData .hdr2 s) ∨
    (2 ≤ s.avl ∧ ∃ b, s.window[0]? = some b ∧ t = loadByte0 b s) := by
  unfold b0Step at h
  split at h
  · next hlt =>
    cases h
    exact .inl ⟨hlt, rfl⟩
  · next hge =>
    obtain ⟨-, b, hb, e⟩ := readWindow_eq_next h
    cases e
    exact .inr ⟨not_lt.1 hge, b, hb, rfl⟩

theorem b1Step_eq_next {s t : State} (h : b1Step s = .next t) :
    1 < s.avl ∧ ∃ b, s.window[1]? = some b ∧ t = loadByte1 b s := by
  obtain ⟨hlt, b, hb, e⟩ := readWindow_eq_next h
  cases e
  exact ⟨hlt, b, hb, rfl⟩

theorem extStep_eq_next {s t : State} (h : extStep s = .next t) :
    (s.avl ≤ s.pos ∧ t = fail .insufficientData .ext s) ∨
    (s.pos < s.avl ∧ ∃ b, s.window[s.pos]? = some b ∧ t = loadExtByte b s) := by
  unfold extStep at h
  split at h
  · next hle =>
    cases h
    exact .inl ⟨hle, rfl⟩
  · obtain ⟨hlt, b, hb, e⟩ := readWindow_eq_next h
    cases e
    exact .inr ⟨hlt, b, hb, rfl⟩

theorem keypStep_eq_next {s t : State} (h : keypStep s = .next t) :
    (s.avl ≤ s.pos ∧ t = fail .insufficientData .key s) ∨
    (s.pos < s.avl ∧ s.kcnt.toNat ≤ 3 ∧ ∃ b, s.window[s.pos]? = some b ∧ t = loadKeyByte b s) := by
  unfold keypStep at h
  split at h
  · next hle =>
    cases h
    exact .inl ⟨hle, rfl⟩
  · split at h
    · next hk =>
      obtain ⟨hlt, b, hb, e⟩ := readWindow_eq_next h
      cases e
      exact .inr ⟨hlt, hk, b, hb, rfl⟩
    · cases h

theorem payStep_eq_next {s t : State} (h : payStep s = .next t) :
    s.pos < s.avl ∧ ∃ b, s.window[s.pos]? = some b ∧
      t = if s.idx + 1 = s.plen.toNat then finish (s.pos + 1) (writePayByte b s) else writePayByte b s := by
  obtain ⟨hlt, b, hb, e⟩ := readWindow_eq_next h
  cases e
  exact ⟨hlt, b, hb, rfl⟩

/-! ## The invariant of a running transaction, apart from its phase -/

/-- What the invariant says of a running transaction whatever its phase: its clauses on the registers, no result, no
pulse, and the window kept (43_message_parser.md R216 (a), (d), (f), 10_state.md R23 (a), R26). -/
structure Underway (s : State) : Prop where
  outWf : Memory.wf s.out
  posLe : s.pos ≤ s.avl
  extnLe : s.extn.toNat ≤ 8
  kcntLe : s.kcnt.toNat ≤ 4
  hlenLegal : s.hlen.toNat ∈ [0, 2, 4, 6, 8, 10, 14]
  keyZero : s.msk = false → s.key = Key.zero
  cap : s.hdrOk = true → ctrlRange s.opc = true → s.plen ≤ 125#64
  noRsvNoFin : s.hdrOk = true → reserved s.opc = true → s.fin = true
  kind : s.kind = .none
  cause : s.cause = .none
  cons : s.cons = 0
  noPulse : s.consValid = false
  windowKept : s.avl ≤ s.window.length

theorem Invariant.underway {s : State} (h : Invariant s) (hp : s.ph ≠ .idle) : Underway s :=
  { h with
    kind := (h.no_result hp).1, cause := (h.no_result hp).2, cons := (h.busyNone hp).2
    noPulse := Bool.eq_false_iff.2 fun hc => hp (h.pulse hc).1
    windowKept := h.windowKept hp }

namespace Underway

variable {s : State}

theorem invariant (h : Underway s) (hphase : PhaseInv s) : Invariant s :=
  { h with
    paired := by rw [h.kind, h.cause]; rfl
    busyNone := fun _ => ⟨h.kind, h.cons⟩
    windowKept := fun _ => h.windowKept
    pulse := fun hc => absurd (h.noPulse.symm.trans hc) (by decide)
    phase := hphase }

/-- An exception with a pairing of Table X1 and HDR_OK as R32 says keeps the invariant (R211). -/
theorem fail (h : Underway s) {k : Kind} {c : Cause} (hpair : pairedX1 k c = true) (hk : k ≠ .ok)
    (hok : s.hdrOk = true ↔ c = .payload) : Invariant (fail k c s) :=
  { h with
    paired := hpair
    busyNone := fun hp => absurd rfl hp
    windowKept := fun hp => absurd rfl hp
    pulse := fun hc => absurd (h.noPulse.symm.trans hc) (by decide)
    phase := ⟨by simp [hk, hok], fun e => absurd e hk, fun _ => h.cons⟩ }

/-- `finish` behind the last payload byte keeps the invariant (R212). -/
theorem finish (h : Underway s) {total : Nat} (htotal : total = s.hlen.toNat + s.plen.toNat) (hpos : s.pos = total)
    (hidx : s.idx = s.plen.toNat) (hok : s.hdrOk = true)
    (hout : ∀ j < s.plen.toNat, (Memory.read s.out j).isSome = true) : Invariant (finish total s) :=
  { h with
    paired := rfl
    busyNone := fun hp => absurd rfl hp
    windowKept := fun hp => absurd rfl hp
    pulse := fun _ => ⟨rfl, rfl, rfl⟩
    phase := ⟨by simp [hok], fun _ => ⟨htotal, hpos, hidx, hout⟩, fun hk => absurd rfl hk⟩ }

/-- The start step leaves nothing of an earlier transaction (R205). -/
theorem start (hwf : Memory.wf s.out) : Underway (startStep s) :=
  { outWf := hwf, posLe := Nat.zero_le _, extnLe := Nat.zero_le _, kcntLe := Nat.zero_le _, hlenLegal := by simp
    keyZero := fun _ => rfl, cap := nofun, noRsvNoFin := nofun, kind := rfl, cause := rfl, cons := rfl, noPulse := rfl
    windowKept := le_rfl }

end Underway

/-! ## The header phases keep the invariant (R206 to R209) -/

theorem b0Step_keeps {s t : State} (hi : Invariant s) (hp : s.ph = .b0) (h : b0Step s = .next t) : Invariant t := by
  have hu : Underway s := hi.underway (by simp [hp])
  have hph := hi.phase
  simp only [PhaseInv, hp] at hph
  obtain ⟨-, hok, hidx, hkcnt, hmsk⟩ := hph
  rcases b0Step_eq_next h with ⟨-, rfl⟩ | ⟨h2, b, -, rfl⟩
  · exact hu.fail rfl (by decide) (by simp [hok])
  · have hu' : Underway (loadByte0 b s) :=
      { hu with posLe := Nat.le_of_succ_le h2, cap := by simp [hok], noRsvNoFin := by simp [hok] }
    exact hu'.invariant ⟨rfl, h2, hok, hidx, hkcnt, hmsk⟩

/-- The three ways B1 goes on, by the length and the mask of byte 1 (R207). -/
theorem loadByte1_phaseInv {s : State} (b : Byte) (hok : s.hdrOk = false) (hidx : s.idx = 0) (hkcnt : s.kcnt = 0#3) :
    PhaseInv (loadByte1 b s) := by
  rcases extBytes_cases (lenOf b) with ⟨hL, he⟩ | ⟨hL, -⟩ | ⟨hL, -⟩
  · cases hm : maskOf b <;> simp [PhaseInv, State.announced, hL, hm, he, hok, hidx, hkcnt]
  · simp [PhaseInv, hL, hok, hidx, hkcnt]
    decide
  · simp [PhaseInv, hL, hok, hidx, hkcnt]
    decide

theorem loadByte1_ph_ne_idle (b : Byte) (s : State) : (loadByte1 b s).ph ≠ .idle := by
  rw [loadByte1_ph]
  split_ifs <;> decide

theorem b1Step_keeps {s t : State} (hi : Invariant s) (hp : s.ph = .b1) (h : b1Step s = .next t) : Invariant t := by
  have hu : Underway s := hi.underway (by simp [hp])
  have hph := hi.phase
  simp only [PhaseInv, hp] at hph
  obtain ⟨-, h2, hok, hidx, hkcnt, hmsk⟩ := hph
  obtain ⟨-, b, -, rfl⟩ := b1Step_eq_next h
  have hu' : Underway (loadByte1 b s) :=
    { hu with
      posLe := h2, extnLe := toNat_ofNat_le (extBytes_le _), keyZero := fun _ => hu.keyZero hmsk
      cap := by simp [hok], noRsvNoFin := by simp [hok] }
  exact hu'.invariant (loadByte1_phaseInv b hok hidx hkcnt)

theorem loadExtByte_ph_ne_idle (b : Byte) (s : State) : (loadExtByte b s).ph ≠ .idle := by
  unfold loadExtByte
  dsimp only
  split_ifs <;> decide

/-- EXT goes on until EXTN has come down to 0, and then as the mask says (R208). -/
theorem loadExtByte_phaseInv {s : State} (b : Byte) (hi : Invariant s) (hp : s.ph = .ext) :
    PhaseInv (loadExtByte b s) := by
  have hph := hi.phase
  simp only [PhaseInv, hp] at hph
  obtain ⟨hlo, hhi, hpos, hok, hidx, hkcnt⟩ := hph
  have hn := toNat_extn_pred hlo
  by_cases hlast : s.extn - 1#4 = 0#4
  · have h1 : s.extn.toNat = 1 := by
      rw [hlast] at hn
      simp only [BitVec.toNat_ofNat] at hn
      omega
    cases hm : s.msk <;>
      simp [PhaseInv, State.announced, loadExtByte, hlast, hm, hok, hidx, hkcnt] <;> omega
  · have h1 : s.extn.toNat - 1 ≠ 0 := fun e => hlast (BitVec.eq_of_toNat_eq (hn.trans e))
    simp only [PhaseInv, loadExtByte, hlast, if_false, hn]
    exact ⟨by omega, by omega, by omega, hok, hidx, hkcnt⟩

theorem extStep_keeps {s t : State} (hi : Invariant s) (hp : s.ph = .ext) (h : extStep s = .next t) : Invariant t := by
  have hu : Underway s := hi.underway (by simp [hp])
  have hph := hi.phase
  simp only [PhaseInv, hp] at hph
  obtain ⟨hlo, -, -, hok, -, -⟩ := hph
  rcases extStep_eq_next h with ⟨-, rfl⟩ | ⟨hlt, b, -, rfl⟩
  · exact hu.fail rfl (by decide) (by simp [hok])
  · have hn : (s.extn - 1#4).toNat ≤ 8 := by
      rw [toNat_extn_pred hlo]
      exact (Nat.sub_le _ _).trans hu.extnLe
    have hu' : Underway (loadExtByte b s) :=
      { hu with posLe := hlt, extnLe := hn, cap := by simp [loadExtByte, hok], noRsvNoFin := hu.noRsvNoFin }
    exact hu'.invariant (loadExtByte_phaseInv b hi hp)

theorem loadKeyByte_ph_ne_idle (b : Byte) (s : State) : (loadKeyByte b s).ph ≠ .idle := by
  unfold loadKeyByte
  dsimp only
  split_ifs <;> decide

/-- KEYP goes on until the fourth key byte is in (R209). -/
theorem loadKeyByte_phaseInv {s : State} (b : Byte) (hi : Invariant s) (hp : s.ph = .keyp) :
    PhaseInv (loadKeyByte b s) := by
  have hph := hi.phase
  simp only [PhaseInv, hp] at hph
  obtain ⟨hmsk, hextn, hk, hpos, hok, hidx⟩ := hph
  have hn := toNat_kcnt_succ hk
  by_cases hlast : s.kcnt + 1#3 = 4#3
  · have h3 : s.kcnt.toNat + 1 = 4 := by rw [← hn, hlast]; rfl
    simp [PhaseInv, State.announced, loadKeyByte, hlast, hmsk, hextn, hok, hidx]
    omega
  · have h4 : s.kcnt.toNat + 1 ≠ 4 := fun e => hlast (BitVec.eq_of_toNat_eq (hn.trans e))
    simp only [PhaseInv, loadKeyByte, hlast, if_false, hn]
    exact ⟨hmsk, hextn, by omega, by omega, hok, hidx⟩

theorem keypStep_keeps {s t : State} (hi : Invariant s) (hp : s.ph = .keyp) (h : keypStep s = .next t) :
    Invariant t := by
  have hu : Underway s := hi.underway (by simp [hp])
  have hph := hi.phase
  simp only [PhaseInv, hp] at hph
  obtain ⟨hmsk, -, -, -, hok, -⟩ := hph
  rcases keypStep_eq_next h with ⟨-, rfl⟩ | ⟨hlt, hk, b, -, rfl⟩
  · exact hu.fail rfl (by decide) (by simp [hok])
  · have hn : (s.kcnt + 1#3).toNat ≤ 4 := by rw [toNat_kcnt_succ hk]; omega
    have hu' : Underway (loadKeyByte b s) :=
      { hu with posLe := hlt, kcntLe := hn, keyZero := fun h => absurd (hmsk.symm.trans h) (by decide) }
    exact hu'.invariant (loadKeyByte_phaseInv b hi hp)

/-! ## CHK and PAY keep the invariant (R210, R213) -/

theorem State.announced_mem (s : State) : s.announced ∈ [2, 4, 6, 8, 10, 14] := by
  unfold State.announced
  rcases extBytes_cases s.l7 with ⟨-, he⟩ | ⟨-, he⟩ | ⟨-, he⟩ <;> rw [he] <;> cases s.msk <;> decide

/-- HLEN's four bits hold every header length a running transaction can announce (30_encoding.md R93). -/
theorem State.toNat_ofNat_announced (s : State) : (BitVec.ofNat 4 s.announced).toNat = s.announced := by
  have h := s.announced_mem
  simp only [List.mem_cons, List.not_mem_nil, or_false] at h
  rw [BitVec.toNat_ofNat]
  omega

/-- HLEN written in CHK, and HDR_OK where both header rules hold. -/
theorem Underway.headerChecked {s : State} (h : Underway s) (hpos : s.pos = s.announced) {ok : Bool}
    (hcap : ok = true → ¬ (ctrlRange s.opc = true ∧ 125#64 < s.plen))
    (hrsv : ok = true → ¬ (reserved s.opc = true ∧ s.fin = false)) :
    Underway { s with hlen := BitVec.ofNat 4 s.pos, hdrOk := ok } :=
  { h with
    hlenLegal := by
      dsimp only
      rw [hpos, s.toNat_ofNat_announced]
      exact List.mem_cons_of_mem _ s.announced_mem
    cap := fun hok hop => BitVec.not_lt.1 fun hlt => hcap hok ⟨hop, hlt⟩
    noRsvNoFin := fun hok hop => Bool.eq_true_of_not_eq_false fun hfin => hrsv hok ⟨hop, hfin⟩ }

theorem chkStep_keeps {s : State} (hi : Invariant s) (hp : s.ph = .chk) : Invariant (chkStep s) := by
  have hu : Underway s := hi.underway (by simp [hp])
  have hph := hi.phase
  simp only [PhaseInv, hp] at hph
  obtain ⟨hextn, hpos, hok, hidx⟩ := hph
  have hhlen : (BitVec.ofNat 4 s.pos).toNat = s.pos := by rw [hpos, s.toNat_ofNat_announced]
  have hno := hu.headerChecked hpos (ok := s.hdrOk) (by simp [hok]) (by simp [hok])
  rcases chkStep_cases s with ⟨-, e⟩ | ⟨-, -, e⟩ | ⟨hcap, hrsv, -, e⟩ | ⟨hcap, hrsv, -, hzero, e⟩ |
      ⟨hcap, hrsv, hfit, hne, e⟩ <;> rw [e]
  · exact hno.fail rfl (by decide) (by simp [hok])
  · exact hno.fail rfl (by decide) (by simp [hok])
  all_goals have hyes := hu.headerChecked hpos (ok := true) (fun _ => hcap) (fun _ => hrsv)
  · exact hyes.fail rfl (by decide) (by simp)
  · exact hyes.finish (by simp [hhlen, hzero]) rfl (by simp [hidx, hzero]) rfl (by simp [hzero])
  · have hplen : s.plen.toNat ≠ 0 := fun e => hne (BitVec.eq_of_toNat_eq e)
    have hpay : Underway { s with hlen := BitVec.ofNat 4 s.pos, hdrOk := true, idx := 0, ph := .pay } := { hyes with }
    refine hpay.invariant ⟨rfl, hextn, hhlen.trans hpos, hhlen.symm, Nat.pos_of_ne_zero hplen, ?_, nofun⟩
    simpa only [hhlen] using hfit

/-- A PAY step that writes OUT has the bytes below IDX + 1 there (R216 (c)). -/
theorem read_writePayByte {s : State} {b : Byte} (hpos : s.pos = s.hlen.toNat + s.idx) (hb : s.window[s.pos]? = some b)
    (hout : ∀ j < s.idx, Memory.read s.out j = (s.window[s.hlen.toNat + j]?).map (unmaskByte s.msk s.key j)) :
    ∀ j < s.idx + 1, Memory.read (writePayByte b s).out j =
      (s.window[s.hlen.toNat + j]?).map (unmaskByte s.msk s.key j) := by
  intro j hj
  simp only [writePayByte, Memory.read_write]
  split
  · next e =>
    subst e
    rw [← hpos, hb, Option.map_some]
  · exact hout j (by omega)

theorem payStep_keeps {s t : State} (hi : Invariant s) (hp : s.ph = .pay) (h : payStep s = .next t) : Invariant t := by
  have hu : Underway s := hi.underway (by simp [hp])
  have hph := hi.phase
  simp only [PhaseInv, hp] at hph
  obtain ⟨hok, hextn, hhlen, hpos, hidx, hfit, hout⟩ := hph
  obtain ⟨hlt, b, hb, rfl⟩ := payStep_eq_next h
  have hu' : Underway (writePayByte b s) := { hu with outWf := Memory.write_wf _ _ hu.outWf, posLe := hlt }
  have hout' := read_writePayByte hpos hb hout
  split
  · next hlast =>
    refine hu'.finish (by rw [hpos, Nat.add_assoc, hlast]; rfl) rfl hlast hok fun j hj => ?_
    have hin : s.hlen.toNat + j < s.window.length := by
      have := hu.windowKept
      have : j < s.plen.toNat := hj
      omega
    rw [hout' j (hlast ▸ hj), List.getElem?_eq_getElem hin]
    rfl
  · next hmore =>
    refine hu'.invariant ?_
    simp only [PhaseInv, writePayByte, hp]
    exact ⟨hok, hextn, hhlen, by omega, by omega, hfit, hout'⟩

theorem serialStep_keeps {s t : State} (hi : Invariant s) (h : serialStep s = .next t) : Invariant t := by
  unfold serialStep at h
  cases hp : s.ph <;> simp only [hp] at h
  case idle => exact Host.Outcome.next.inj h ▸ hi
  case b0 => exact b0Step_keeps hi hp h
  case b1 => exact b1Step_keeps hi hp h
  case ext => exact extStep_keeps hi hp h
  case keyp => exact keypStep_keeps hi hp h
  case chk => exact Host.Outcome.next.inj h ▸ chkStep_keeps hi hp
  case pay => exact payStep_keeps hi hp h

/-! ## A whole transaction, reset and the transport keep the invariant -/

/-- The whole payload at once, from the state CHK leaves in PAY. -/
theorem payAll_keeps {s : State} (hi : Invariant s) (hp : s.ph = .pay) (hidx : s.idx = 0) : Invariant (payAll s) := by
  have hu : Underway s := hi.underway (by simp [hp])
  have hph := hi.phase
  simp only [PhaseInv, hp] at hph
  obtain ⟨hok, -, -, hpos, -, hfit, -⟩ := hph
  have hpos' : s.pos = s.hlen.toNat := by omega
  have hlen : (payloadOf s).length = s.plen.toNat := by
    have := hu.windowKept
    simp only [payloadOf, unmask_length, List.length_take, List.length_drop]
    omega
  have hu' : Underway { s with
      out := Memory.writeBytes s.out 0 (payloadOf s), idx := s.plen.toNat, pos := s.pos + s.plen.toNat } :=
    { hu with outWf := Memory.writeBytes_wf _ _ hu.outWf, posLe := by rw [hpos']; exact hfit }
  refine hu'.finish (by rw [hpos']) rfl rfl hok fun j hj => ?_
  simp [Memory.read_writeBytes, hlen, show j < s.plen.toNat from hj]

theorem chkStep_idx {s : State} (h : s.idx = 0) : (chkStep s).idx = 0 := by
  rcases chkStep_cases s with ⟨-, e⟩ | ⟨-, -, e⟩ | ⟨-, -, -, e⟩ | ⟨-, -, -, -, e⟩ | ⟨-, -, -, -, e⟩ <;> simp [e, h]

theorem chkAndPay_keeps {s : State} (hi : Invariant s) (hp : s.ph = .chk) (hidx : s.idx = 0) :
    Invariant (chkAndPay s) := by
  unfold chkAndPay
  split
  · next hpay => exact payAll_keeps (chkStep_keeps hi hp) hpay (chkStep_idx hidx)
  · exact chkStep_keeps hi hp

/-- A whole header in the registers, on entry to CHK (R216 (b)). -/
theorem loadHeader_invariant {s : State} (hwf : Memory.wf s.out) (op : BitVec 4) {f : FrameOps} (hf : f.wf = true)
    (hlen : f.hlen ≤ s.window.length) : Invariant (loadHeader op f (startStep s)) := by
  have hu : Underway (loadHeader op f (startStep s)) :=
    { Underway.start hwf with
      posLe := hlen
      extnLe := Nat.zero_le _
      kcntLe := by rw [loadHeader_kcnt]; split <;> decide
      keyZero := fun hm => by
        have hnone : f.key = none := by simpa [FrameOps.masked] using hm
        simp [hnone]
      cap := nofun
      noRsvNoFin := nofun }
  have hannounced : f.hlen = (loadHeader op f (startStep s)).announced :=
    congrArg (fun n => 2 + n + if f.masked then 4 else 0) (LenForm.ext_field hf).symm
  exact hu.invariant ⟨rfl, hannounced, rfl, rfl⟩

/-- A header that breaks off (41_header_parser.md R150, R144 to R146): key bytes stand in KEY only under a mask. -/
theorem failHeader_keeps {s : State} {r : Reject} (hwf : Memory.wf s.out) (hd : decode (.frame s.window) = .rejected r) :
    Invariant (failHeader r s) := by
  have hu : Underway (startStep s) := Underway.start hwf
  cases r with
  | hdr2 => exact hu.fail rfl (by decide) (by simp)
  | ext =>
    refine Underway.fail ?_ rfl (by decide) (by simp)
    exact { hu with
      posLe := le_rfl, extnLe := toNat_ofNat_le ((Nat.sub_le _ _).trans (extBytes_le _))
      keyZero := fun _ => rfl, cap := nofun, noRsvNoFin := nofun }
  | key =>
    obtain ⟨-, -, hmask, hlt⟩ := (decode_rejected_iff s.window).2.2.1 hd
    refine Underway.fail ?_ rfl (by decide) (by simp)
    exact { hu with
      posLe := le_rfl, extnLe := Nat.zero_le _, kcntLe := toNat_ofNat_le (by omega)
      keyZero := fun h => absurd (hmask.symm.trans h) (by decide), cap := nofun, noRsvNoFin := nofun }
  | noWidth => exact absurd hd (decodeFrame_ne_noWidth _)

theorem resetStep_keeps {s : State} (hi : Invariant s) : Invariant (resetStep s) :=
  { outWf := hi.outWf, paired := rfl, posLe := le_rfl, busyNone := fun h => absurd rfl h
    windowKept := fun h => absurd rfl h, extnLe := Nat.zero_le _, kcntLe := Nat.zero_le _, hlenLegal := by simp
    keyZero := fun _ => rfl, cap := nofun, noRsvNoFin := nofun, pulse := nofun
    phase := ⟨by simp, nofun, fun _ => rfl⟩ }

/-- The transport moves the window only behind a pulse, and a pulse stands in IDLE only, where the invariant is not about
the window (R212, 10_state.md R33). -/
theorem transport_keeps {s : State} (hi : Invariant s) : Invariant (transport s) := by
  unfold transport
  split
  · next hpulse =>
    obtain ⟨hp, -⟩ := hi.pulse hpulse
    have hph := hi.phase
    simp only [PhaseInv, hp] at hph
    exact { hi with
      windowKept := fun h => absurd hp h
      phase := by simpa only [PhaseInv, hp] using hph }
  · exact hi

/-- WSFP's own step, in each form it can take. -/
theorem wsfpStep_keeps {s t : State} (hi : Invariant s) (h : wsfpStep s = .next t) : Invariant t := by
  rcases wsfpStep_cases s with ⟨-, e⟩ | ⟨-, -, -, e⟩ | ⟨-, -, e⟩ | ⟨-, -, r, hd, e⟩ | ⟨-, -, op, f, hd, hlen, e⟩ |
      ⟨-, -, e⟩ <;> rw [e] at h
  · exact Host.Outcome.next.inj h ▸ resetStep_keeps hi
  · exact Host.Outcome.next.inj h ▸ hi
  · exact Host.Outcome.next.inj h ▸ (Underway.start hi.outWf).invariant ⟨rfl, rfl, rfl, rfl, rfl⟩
  · exact Host.Outcome.next.inj h ▸ failHeader_keeps hi.outWf hd
  · have hf : f.wf = true := (wf_of_frame? (frameOf_frame? op f)).symm.trans (encode_of_decode_frame hd).1
    exact Host.Outcome.next.inj h ▸ chkAndPay_keeps (loadHeader_invariant hi.outWf op hf hlen) rfl rfl
  · exact serialStep_keeps hi h

/-- Settles O35: each form of WSFP's own step keeps the invariant, and so do the falling pulse and the transport. -/
theorem stepKeepsInvariant : Obligations.StepKeepsInvariant := by
  intro s t hi h
  obtain ⟨u, hu, rfl⟩ := step_eq_next h
  exact transport_keeps (wsfpStep_keeps hi.quiet hu)

/-! ## The steps of the machine, phase by phase (R205 to R214) -/

theorem transport_of_no_pulse {s : State} (h : s.consValid = false) : transport s = s := by
  rw [transport, h]
  rfl

/-- Settles O6: from IDLE with `start = 1` WSFP's own step is the whole transaction, which runs the decoded frame. -/
theorem stepRunsDecodedFrame : Obligations.StepRunsDecodedFrame := by
  intro s i hs hg hd
  have hstart : wsfpStep (quiet s) = startAtGrain (quiet s) := wsfpStep_start hs
  have hparse : startAtGrain (quiet s) = exec i (quiet s) := by simp [startAtGrain, hg, parseStep, hd]
  rw [step_eq, hstart, hparse]

/-- The first step of the byte-serial machine is the start step. -/
theorem step_of_start {s : State} (hs : ParseAsked s) (hg : s.grain = .byteSerial) : step s = .next (startStep s) := by
  have hstart : wsfpStep (quiet s) = startAtGrain (quiet s) := wsfpStep_start hs
  have hserial : startAtGrain (quiet s) = .next (startStep s) := by
    simp only [startAtGrain, quiet_grain, hg]
    rfl
  rw [step_eq, hstart, hserial, onNext_next, transport_of_no_pulse rfl]

/-- Settles O27: the step is the start step, which the statement writes out. -/
theorem startStepClears : Obligations.StartStepClears := fun _ => step_of_start

/-- Settles O32: WSFP's own step does nothing, and without a pulse the transport does nothing either. -/
theorem idleChangesNothing : Obligations.IdleChangesNothing := by
  intro s hp hs hr
  rw [step_eq, wsfpStep_idle (s := quiet s) hp hs hr, onNext_next, transport_of_no_pulse rfl]
  rfl

/-- A phase step that makes no pulse is the whole step. -/
theorem step_of_serialStep {s t : State} (hp : s.ph ≠ .idle) (hr : s.rst = false)
    (h : serialStep (quiet s) = .next t) (hc : t.consValid = false) : step s = .next t := by
  rw [step_busy hp hr, h, onNext_next, transport_of_no_pulse hc]

theorem serialStep_b0_short {s : State} (hp : s.ph = .b0) (ha : s.avl < 2) :
    serialStep s = .next (fail .insufficientData .hdr2 s) := by
  simp only [serialStep, hp, b0Step, if_pos ha]

theorem serialStep_b0 {s : State} {b : Byte} (hp : s.ph = .b0) (ha : 2 ≤ s.avl) (hb : s.window[0]? = some b) :
    serialStep s = .next (loadByte0 b s) := by
  simp only [serialStep, hp, b0Step, if_neg (not_lt.2 ha), readWindow_of _ (Nat.lt_of_succ_lt ha) hb]

theorem serialStep_b1 {s : State} {b : Byte} (hp : s.ph = .b1) (ha : 2 ≤ s.avl) (hb : s.window[1]? = some b) :
    serialStep s = .next (loadByte1 b s) := by
  simp only [serialStep, hp, b1Step, readWindow_of _ ha hb]

theorem serialStep_ext_short {s : State} (hp : s.ph = .ext) (ha : s.avl ≤ s.pos) :
    serialStep s = .next (fail .insufficientData .ext s) := by
  simp only [serialStep, hp, extStep, if_pos ha]

theorem serialStep_keyp_short {s : State} (hp : s.ph = .keyp) (ha : s.avl ≤ s.pos) :
    serialStep s = .next (fail .insufficientData .key s) := by
  simp only [serialStep, hp, keypStep, if_pos ha]

/-- Settles O28: HDR2 below two bytes, and byte 0 otherwise. -/
theorem bZeroStep : Obligations.BZeroStep := by
  intro s hp hr
  have hbusy : s.ph ≠ .idle := by simp [hp]
  refine ⟨fun ha => ?_, fun b ha hb => ?_⟩
  · exact step_of_serialStep hbusy hr (serialStep_b0_short (s := quiet s) hp ha) rfl
  · exact step_of_serialStep hbusy hr (serialStep_b0 (s := quiet s) hp ha hb) rfl

/-- Settles O29: byte 1 into the registers, EXTN by the ranges of `L`. -/
theorem bOneStep : Obligations.BOneStep := by
  intro s b hp hr ha hb
  rw [step_of_serialStep (by simp [hp]) hr (serialStep_b1 (s := quiet s) hp ha hb) rfl]
  simp only [loadByte1, ofNat_extBytes, BitVec.le_def]
  rfl

/-- Settles O30: a byte below AVL is shifted into PLEN or written at `KEY[KCNT]`, at AVL the exception is taken. -/
theorem extAndKeySteps : Obligations.ExtAndKeySteps := by
  intro s hr
  refine ⟨fun hp ha => ?_, fun b hp ha hb => ?_, fun hp ha => ?_, fun b hp hk ha hb => ?_⟩ <;>
    have hbusy : s.ph ≠ .idle := by simp [hp]
  · exact step_of_serialStep hbusy hr (serialStep_ext_short (s := quiet s) hp ha) rfl
  · rw [step_of_serialStep hbusy hr (serialStep_ext (s := quiet s) hp ha hb) rfl]
    simp only [quiet_extn, extn_sub_one_eq_zero_iff]
    rfl
  · exact step_of_serialStep hbusy hr (serialStep_keyp_short (s := quiet s) hp ha) rfl
  · refine ⟨_, step_of_serialStep hbusy hr (serialStep_keyp (s := quiet s) hp ha hk hb) rfl, ?_, fun j hj => ?_⟩
    · simp only [quiet_kcnt, kcnt_add_one_eq_four_iff]
      rfl
    · exact Key.get_set s.key b (Nat.lt_succ_of_le hk) hj

/-- A PAY step, with the transport's answer where the byte is the last. -/
theorem step_of_pay {s : State} {b : Byte} (hp : s.ph = .pay) (hr : s.rst = false) (ha : s.pos < s.avl)
    (hb : s.window[s.pos]? = some b) :
    step s = .next (if s.idx + 1 = s.plen.toNat then transport (finish (s.pos + 1) (writePayByte b (quiet s)))
      else writePayByte b (quiet s)) := by
  rw [step_busy (by simp [hp]) hr, serialStep_pay (s := quiet s) hp ha hb, onNext_next, apply_ite transport]
  rfl

/-- Settles O31: one byte into OUT, and `finish` with the transport's answer on the last. -/
theorem payStepRule : Obligations.PayStep := by
  intro s b hp hr ha hb
  refine ⟨_, step_of_pay hp hr ha hb, ?_⟩
  have hother : ∀ a, a ≠ s.idx → Memory.read (writePayByte b (quiet s)).out a = Memory.read s.out a :=
    fun a ha => Memory.read_write_other _ _ ha.symm
  split
  · next hlast => exact ⟨Memory.read_write_same .., hother, fun h => absurd hlast h, fun _ => rfl⟩
  · next hmore => exact ⟨Memory.read_write_same .., hother, fun _ => rfl, fun h => absurd h hmore⟩

/-! ## The endings of CHK (R210) -/

section Chk

variable {s : State}

theorem chkStep_of_cap_violation (h : ctrlRange s.opc = true ∧ 125#64 < s.plen) :
    chkStep s = fail .protocolViolation .ctrlLen { s with hlen := BitVec.ofNat 4 s.pos } := if_pos h

variable (hcap : ¬ (ctrlRange s.opc = true ∧ 125#64 < s.plen))
include hcap

theorem chkStep_of_reserved_without_fin (h : reserved s.opc = true ∧ s.fin = false) :
    chkStep s = fail .protocolViolation .rsvNoFin { s with hlen := BitVec.ofNat 4 s.pos } :=
  (if_neg hcap).trans (if_pos h)

variable (hrsv : ¬ (reserved s.opc = true ∧ s.fin = false))
include hrsv

theorem chkStep_of_short_payload (h : s.avl < s.pos + s.plen.toNat) :
    chkStep s = fail .insufficientData .payload { s with hlen := BitVec.ofNat 4 s.pos, hdrOk := true } :=
  (if_neg hcap).trans ((if_neg hrsv).trans (if_pos (by omega)))

theorem chkStep_of_empty_payload (hpos : s.pos ≤ s.avl) (h : s.plen = 0#64) :
    chkStep s = finish s.pos { s with hlen := BitVec.ofNat 4 s.pos, hdrOk := true } :=
  (if_neg hcap).trans ((if_neg hrsv).trans ((if_neg (by simp [h, hpos])).trans (if_pos h)))

theorem chkStep_of_payload (hfit : s.pos + s.plen.toNat ≤ s.avl) (h : s.plen ≠ 0#64) :
    chkStep s = { s with hlen := BitVec.ofNat 4 s.pos, hdrOk := true, idx := 0, ph := .pay } :=
  (if_neg hcap).trans ((if_neg hrsv).trans ((if_neg (by omega)).trans (if_neg h)))

end Chk

/-- Settles O60: each ending by the first test of CHK that holds. -/
theorem chkStepRule : Obligations.ChkStep := by
  rintro s c hp hr hpos rfl
  have hstep : step s = .next (transport (chkStep (quiet s))) := by
    rw [step_busy (by simp [hp]) hr, serialStep_of_chk (s := quiet s) hp, onNext_next]
  have hcapiff : ctrlRange s.opc = true ∧ 125#64 < s.plen ↔ 8 ≤ s.opc.toNat ∧ 125 < s.plen.toNat := by
    rw [ctrlRange_iff, lt_125_iff]
  rw [hstep, ← hcapiff]
  refine ⟨fun hop hlen => ?_, fun hcap hres hfin => ?_, fun hcap hrsv => ⟨fun hshort => ?_, fun hzero => ?_,
    fun hsome hfit => ?_⟩⟩
  · rw [chkStep_of_cap_violation (s := quiet s) (hcapiff.2 ⟨hop, hlen⟩)]
    rfl
  · rw [chkStep_of_reserved_without_fin (s := quiet s) hcap ⟨hres, hfin⟩]
    rfl
  · rw [chkStep_of_short_payload (s := quiet s) hcap hrsv hshort]
    rfl
  · rw [chkStep_of_empty_payload (s := quiet s) hcap hrsv hpos (BitVec.eq_of_toNat_eq hzero)]
    rfl
  · have hne : s.plen ≠ 0#64 := fun e => by simp [e] at hsome
    rw [chkStep_of_payload (s := quiet s) hcap hrsv hfit hne]
    rfl

/-! ## The window moves by the pulse (R203, 20_memory.md R62) -/

/-- The step from `s` to `t`, before the transport answers it, leaves the window, and a pulse stands only behind
`finish`. -/
def PulseOnFinish (s t : State) : Prop :=
  t.window = s.window ∧ (t.consValid = true → t.kind = .ok ∧ t.ph = .idle ∧ t.consK = t.cons)

theorem PulseOnFinish.of_no_pulse {s t : State} (hw : t.window = s.window) (hc : t.consValid = false) :
    PulseOnFinish s t := ⟨hw, fun h => absurd (hc.symm.trans h) (by decide)⟩

theorem PulseOnFinish.finish {s t : State} (hw : t.window = s.window) (total : Nat) :
    PulseOnFinish s (finish total t) := ⟨hw, fun _ => ⟨rfl, rfl, rfl⟩⟩

theorem chkStep_pulse {s : State} (hq : s.consValid = false) : PulseOnFinish s (chkStep s) := by
  rcases chkStep_cases s with ⟨-, e⟩ | ⟨-, -, e⟩ | ⟨-, -, -, e⟩ | ⟨-, -, -, -, e⟩ | ⟨-, -, -, -, e⟩ <;> rw [e]
  · exact .of_no_pulse rfl hq
  · exact .of_no_pulse rfl hq
  · exact .of_no_pulse rfl hq
  · exact .finish rfl _
  · exact .of_no_pulse rfl hq

theorem chkAndPay_pulse {s : State} (hq : s.consValid = false) : PulseOnFinish s (chkAndPay s) := by
  unfold chkAndPay
  split
  · exact .finish (chkStep_pulse hq).1 _
  · exact chkStep_pulse hq

theorem serialStep_pulse {s t : State} (hq : s.consValid = false) (h : serialStep s = .next t) : PulseOnFinish s t := by
  unfold serialStep at h
  cases hp : s.ph <;> simp only [hp] at h
  case idle => exact Host.Outcome.next.inj h ▸ .of_no_pulse rfl hq
  case b0 => rcases b0Step_eq_next h with ⟨-, rfl⟩ | ⟨-, b, -, rfl⟩ <;> exact .of_no_pulse rfl hq
  case b1 =>
    obtain ⟨-, b, -, rfl⟩ := b1Step_eq_next h
    exact .of_no_pulse rfl hq
  case ext => rcases extStep_eq_next h with ⟨-, rfl⟩ | ⟨-, b, -, rfl⟩ <;> exact .of_no_pulse rfl hq
  case keyp => rcases keypStep_eq_next h with ⟨-, rfl⟩ | ⟨-, -, b, -, rfl⟩ <;> exact .of_no_pulse rfl hq
  case chk => exact Host.Outcome.next.inj h ▸ chkStep_pulse hq
  case pay =>
    obtain ⟨-, b, -, rfl⟩ := payStep_eq_next h
    split
    · exact .finish rfl _
    · exact .of_no_pulse rfl hq

theorem wsfpStep_pulse {s t : State} (hq : s.consValid = false) (h : wsfpStep s = .next t) : PulseOnFinish s t := by
  rcases wsfpStep_cases s with ⟨-, e⟩ | ⟨-, -, -, e⟩ | ⟨-, -, e⟩ | ⟨-, -, r, hd, e⟩ | ⟨-, -, op, f, -, -, e⟩ |
      ⟨-, -, e⟩
  case inr.inr.inr.inr.inr => exact serialStep_pulse hq (e ▸ h)
  all_goals cases e.symm.trans h
  · exact .of_no_pulse rfl rfl
  · exact .of_no_pulse rfl hq
  · exact .of_no_pulse rfl rfl
  · have hr : r ≠ .noWidth := fun e => decodeFrame_ne_noWidth s.window (e ▸ hd)
    obtain ⟨-, -, -, -, hc, -, -, hw, -⟩ := failHeader_frame r s hr
    exact .of_no_pulse hw hc
  · exact chkAndPay_pulse (s := loadHeader op f (startStep s)) rfl

/-- Settles O40: WSFP's own step leaves the window, and the transport answers the pulse of `finish` alone. -/
theorem windowMovesOnlyByConsume : Obligations.WindowMovesOnlyByConsume := by
  intro s t h
  obtain ⟨u, hu, rfl⟩ := step_eq_next h
  obtain ⟨hw, hpulse⟩ := wsfpStep_pulse (s := quiet s) rfl hu
  rw [quiet_window] at hw
  cases hc : u.consValid with
  | false => exact .inr ⟨by simp [hc], by simp [transport_window, hc, hw]⟩
  | true =>
    obtain ⟨hk, hp, hcount⟩ := hpulse hc
    exact .inl ⟨by simp [hc], by simp [hk], by simp [hp], by simp [hcount], by simp [transport_window, hc, hw, hcount]⟩

/-! ## Every transaction ends (R215) -/

/-- How far a phase is from the end: the header phases, CHK, PAY, IDLE. -/
def Phase.rank : Phase → Nat
  | .idle => 0
  | .pay => 1
  | .chk => 2
  | .b0 | .b1 | .ext | .keyp => 3

/-- The bytes below AVL still to read, and the phases still to pass. -/
def State.stepsLeft (s : State) : Nat := s.avl - s.pos + s.ph.rank

theorem Phase.rank_pos {p : Phase} (h : p ≠ .idle) : 0 < p.rank := by
  cases p with
  | idle => exact absurd rfl h
  | b0 | b1 | ext | keyp | chk | pay => decide

theorem Phase.rank_le_three (p : Phase) : p.rank ≤ 3 := by cases p <;> decide

/-- The step from `s` to `t` is one step nearer the end, keeps AVL and `rst`, and ends only with a result. -/
structure Nearer (s t : State) : Prop where
  less : t.stepsLeft < s.stepsLeft
  avl : t.avl = s.avl
  rst : t.rst = s.rst
  result : t.ph = .idle → t.kind ≠ .none

theorem Nearer.of_fail {s : State} (hp : s.ph ≠ .idle) {k : Kind} (hk : k ≠ .none) (c : Cause) :
    Nearer s (fail k c s) :=
  ⟨Nat.add_lt_add_left (Phase.rank_pos hp) _, rfl, rfl, fun _ => hk⟩

/-- A header phase that reads the byte at POS is nearer the end, whichever phase comes next. -/
theorem Nearer.of_read {s t : State} (hrank : s.ph.rank = 3) (hlt : s.pos < s.avl) (hpos : t.pos = s.pos + 1)
    (havl : t.avl = s.avl) (hrst : t.rst = s.rst) (hp : t.ph ≠ .idle) : Nearer s t := by
  refine ⟨?_, havl, hrst, fun h => absurd h hp⟩
  have := t.ph.rank_le_three
  unfold State.stepsLeft
  rw [hpos, havl, hrank]
  omega

theorem chkStep_nearer {s : State} (hp : s.ph = .chk) : Nearer s (chkStep s) := by
  rcases chkStep_cases s with ⟨-, e⟩ | ⟨-, -, e⟩ | ⟨-, -, -, e⟩ | ⟨-, -, -, -, e⟩ | ⟨-, -, -, -, e⟩ <;> rw [e] <;>
    exact ⟨by simp [State.stepsLeft, Phase.rank, hp], rfl, rfl, nofun⟩

theorem payStep_nearer {s t : State} (hp : s.ph = .pay) (h : payStep s = .next t) : Nearer s t := by
  obtain ⟨hlt, b, -, rfl⟩ := payStep_eq_next h
  split
  · refine ⟨?_, rfl, rfl, nofun⟩
    simp only [State.stepsLeft, writePayByte, Phase.rank, hp, finish_avl, finish_pos, finish_ph]
    omega
  · refine ⟨?_, rfl, rfl, fun h => absurd (hp.symm.trans h) (by decide)⟩
    simp only [State.stepsLeft, writePayByte, Phase.rank, hp]
    omega

theorem serialStep_nearer {s t : State} (hi : Invariant s) (hidle : s.ph ≠ .idle) (h : serialStep s = .next t) :
    Nearer s t := by
  have hph := hi.phase
  unfold serialStep at h
  cases hp : s.ph <;> simp only [PhaseInv, hp] at h hph
  case idle => exact absurd hp hidle
  case b0 =>
    obtain ⟨hpos, -⟩ := hph
    rcases b0Step_eq_next h with ⟨-, rfl⟩ | ⟨h2, b, -, rfl⟩
    · exact .of_fail hidle (by decide) _
    · exact .of_read (by rw [hp]; rfl) (by omega) (by simp [hpos]) rfl rfl nofun
  case b1 =>
    obtain ⟨hpos, h2, -⟩ := hph
    obtain ⟨-, b, -, rfl⟩ := b1Step_eq_next h
    exact .of_read (by rw [hp]; rfl) (by omega) (by simp [hpos]) rfl rfl (loadByte1_ph_ne_idle b s)
  case ext =>
    rcases extStep_eq_next h with ⟨-, rfl⟩ | ⟨hlt, b, -, rfl⟩
    · exact .of_fail hidle (by decide) _
    · exact .of_read (by rw [hp]; rfl) hlt rfl rfl rfl (loadExtByte_ph_ne_idle b s)
  case keyp =>
    rcases keypStep_eq_next h with ⟨-, rfl⟩ | ⟨hlt, -, b, -, rfl⟩
    · exact .of_fail hidle (by decide) _
    · exact .of_read (by rw [hp]; rfl) hlt rfl rfl rfl (loadKeyByte_ph_ne_idle b s)
  case chk => exact Host.Outcome.next.inj h ▸ chkStep_nearer hp
  case pay => exact payStep_nearer hp h

theorem step_nearer {s t : State} (hi : Invariant s) (hidle : s.ph ≠ .idle) (hr : s.rst = false) (h : step s = .next t) :
    Nearer s t := by
  obtain ⟨u, hu, rfl⟩ := step_busy_eq_next hidle hr h
  obtain ⟨hless, havl, hrst, hresult⟩ := serialStep_nearer hi.quiet hidle hu
  exact ⟨by simpa [State.stepsLeft] using hless, by simpa using havl, by simpa using hrst, by simpa using hresult⟩

/-- Settles O49, by induction on a bound for the steps left; the invariant lets each step go on. -/
theorem everyTransactionEnds : Obligations.EveryTransactionEnds := by
  have hends : ∀ (n : Nat) (s : State), Invariant s → s.ph ≠ .idle → s.rst = false → s.stepsLeft ≤ n →
      ∃ (k : Nat) (t : State), k ≤ n ∧ runSteps k s = .next t ∧ t.ph = .idle ∧ t.kind ≠ .none := by
    intro n
    induction n with
    | zero =>
      intro s hi hidle hr hn
      obtain ⟨t, ht⟩ := noStopUnderInvariant s hi
      exact absurd ((step_nearer hi hidle hr ht).less.trans_le hn) (Nat.not_lt_zero _)
    | succ n ih =>
      intro s hi hidle hr hn
      obtain ⟨t, ht⟩ := noStopUnderInvariant s hi
      have hnear := step_nearer hi hidle hr ht
      by_cases htidle : t.ph = .idle
      · exact ⟨1, t, by omega, runSteps_one ht, htidle, hnear.result htidle⟩
      · obtain ⟨k, u, hk, hu, hend⟩ := ih t (stepKeepsInvariant s t hi ht) htidle (hnear.rst.trans hr)
          (Nat.le_of_lt_succ (hnear.less.trans_le hn))
        refine ⟨1 + k, u, by omega, ?_, hend⟩
        rw [runSteps_add (runSteps_one ht), hu]
  intro s hi hidle hr
  refine hends (s.avl + 16) s hi hidle hr ?_
  have := s.ph.rank_le_three
  unfold State.stepsLeft
  omega

/-! ## The transaction and the function level (R201, R217, R221) -/

/-- Settles O47: both forms of a transaction go on, and each ends in what `parse` gives. -/
theorem transactionAgreesWithParse : Obligations.TransactionAgreesWithParse := by
  intro s hs hg
  cases hd : decode (.frame s.window) with
  | rejected r => exact ⟨_, step_of_rejected hs hg hd, agreesWithParse_of_rejected hd⟩
  | instr i =>
    obtain ⟨rfl, -, -⟩ := decodeFrame_eq_instr hd
    exact ⟨_, step_of_frame hs hg hd (frameOf_frame? _ _), agreesWithParse_of_frame hd⟩

/-- A header that is there is read the same whatever bytes follow. -/
theorem decode_frame_append {B : List Byte} {i : Instr} (hd : decode (.frame B) = .instr i) (more : List Byte) :
    decode (.frame (B ++ more)) = .instr i := by
  obtain ⟨hwf, H, rest, hH, rfl⟩ := encode_of_decode_frame hd
  have hread := decodeOfEncodeIsInstr i hwf
  rw [hH] at hread
  rw [List.append_assoc]
  exact hread _

theorem framePayload_append {f : FrameOps} {B : List Byte} (h : f.hlen + f.plen.toNat ≤ B.length) (more : List Byte) :
    framePayload f (B ++ more) = framePayload f B := by
  unfold framePayload
  rw [List.drop_append_of_le_length (by omega), List.take_append_of_le_length (by rw [List.length_drop]; omega)]

/-- A header that breaks off is no violation and no missing payload. -/
theorem parse_of_rejected_ne {B : List Byte} {r : Reject} (hd : decode (.frame B) = .rejected r) {k : Kind} {x : Cause}
    (h : parse B = .err k x) : k = .insufficientData ∧ x ≠ .payload ∧ x ≠ .rsvNoFin := by
  cases (parse_of_rejected hd).symm.trans h
  cases r <;> exact ⟨rfl, nofun, nofun⟩

/-- Settles O53: the same frame is read from the longer buffer, and its payload is where it was. -/
theorem growthKeepsVerdict : Obligations.GrowthKeepsVerdict := by
  intro B more
  refine ⟨fun ⟨m, c⟩ h => ?_, fun x h => ?_⟩
  · obtain ⟨op, f, hd, hcap, hrsv, hfit, rfl, rfl⟩ := parse_eq_ok h
    have hfit' : ¬ (B ++ more).length < f.hlen + f.plen.toNat := by
      rw [List.length_append]
      omega
    rw [parse_of_frame (decode_frame_append hd more), if_neg hcap, if_neg hrsv, if_neg hfit',
      framePayload_append hfit more]
  · cases hd : decode (.frame B) with
    | rejected r => exact absurd (parse_of_rejected_ne hd h).1 (by decide)
    | instr i =>
      obtain ⟨rfl, -, -⟩ := decodeFrame_eq_instr hd
      rw [parse_of_frame hd] at h
      rw [parse_of_frame (decode_frame_append hd more)]
      by_cases hcap : 8 ≤ (opcodeOf (byteAt B 0)).toNat ∧ 125 < (frameOpsOf B).plen.toNat
      · rwa [if_pos hcap] at h ⊢
      by_cases hrsv : reserved (opcodeOf (byteAt B 0)) = true ∧ (frameOpsOf B).fin = false
      · rwa [if_neg hcap, if_pos hrsv] at h ⊢
      rw [if_neg hcap, if_neg hrsv] at h
      split_ifs at h
      cases h

/-- Settles O54: the shorter buffer either breaks off in the header or holds the same header and too few bytes. -/
theorem properPrefixIsInsufficient : Obligations.ProperPrefixIsInsufficient := by
  intro B m c h k hk
  obtain ⟨op, f, hd, hcap, hrsv, -, -, rfl⟩ := parse_eq_ok h
  cases hd' : decode (.frame (B.take k)) with
  | rejected r => exact ⟨_, parse_of_rejected hd'⟩
  | instr i =>
    have hsame := decode_frame_append hd' (B.drop k)
    rw [List.take_append_drop, hd] at hsame
    cases hsame
    have hshort : (B.take k).length < f.hlen + f.plen.toNat := (List.length_take_le _ _).trans_lt hk
    exact ⟨.payload, by rw [parse_of_frame hd', if_neg hcap, if_neg hrsv, if_pos hshort]⟩

/-- Settles O58: the header stage's error is `parse`'s; PAYLOAD and RSV_NOFIN come behind the tests before them. -/
theorem headerErrorsComeFirst : Obligations.HeaderErrorsComeFirst := by
  intro B
  refine ⟨fun k x => parse_of_parseHeader_err, fun k h => ?_, fun k h => ?_⟩
  · cases hd : decode (.frame B) with
    | rejected r => exact absurd rfl (parse_of_rejected_ne hd h).2.1
    | instr i =>
      obtain ⟨rfl, hlen, -⟩ := decodeFrame_eq_instr hd
      have hheader := parseHeader_of_instr hd (frameOf_frame? _ _)
      rw [parse_of_frame hd] at h
      split_ifs at h hheader with hcap hrsv hshort <;> cases h
      exact ⟨rfl, _, _, hheader, hlen, Nat.sub_lt_left_of_lt_add hlen hshort⟩
  · cases hd : decode (.frame B) with
    | rejected r => exact absurd rfl (parse_of_rejected_ne hd h).2.2
    | instr i =>
      obtain ⟨rfl, -, -⟩ := decodeFrame_eq_instr hd
      rw [parse_of_frame hd] at h
      split_ifs at h with hcap hrsv <;> cases h
      exact ⟨_, _, _, rfl, frameOf_frame? _ _, hcap, hrsv⟩

/-! ## The two grains reach the same state (R215, R221) -/

/-! ### The states between the header phases -/

/-- The registers of a transaction of `s` once its two fixed bytes have been read (R206, R207). -/
def fixedBytesRead (s : State) : State :=
  loadByte1 (byteAt s.window 1) (loadByte0 (byteAt s.window 0) (startStep s))

/-- The registers once the length bytes have been read too (R208). -/
def lengthRead (s : State) : State :=
  { fixedBytesRead s with
    plen := (frameOpsOf s.window).plen, pos := 2 + extBytes (lenOf (byteAt s.window 1)), extn := 0#4,
    ph := if maskOf (byteAt s.window 1) then .keyp else .chk }

section Between

variable {s : State}

theorem fixedBytesRead_extn : (fixedBytesRead s).extn.toNat = extBytes (lenOf (byteAt s.window 1)) := by
  have := extBytes_le (lenOf (byteAt s.window 1))
  simp only [fixedBytesRead, loadByte1_extn, BitVec.toNat_ofNat]
  omega

/-- B1 goes on to EXT where `L` announces length bytes. -/
theorem fixedBytesRead_of_ext (h : 0 < extBytes (lenOf (byteAt s.window 1))) :
    (fixedBytesRead s).ph = .ext ∧ (fixedBytesRead s).plen = 0#64 := by
  have hL : ¬ lenOf (byteAt s.window 1) ≤ 125#7 := by
    rcases extBytes_cases (lenOf (byteAt s.window 1)) with ⟨-, he⟩ | ⟨e, -⟩ | ⟨e, -⟩
    · omega
    · rw [e]; decide
    · rw [e]; decide
  simp [fixedBytesRead, hL]

/-- Without length bytes B1 leaves the whole length. -/
theorem fixedBytesRead_of_short (h : lenOf (byteAt s.window 1) ≤ 125#7)
    (he : extBytes (lenOf (byteAt s.window 1)) = 0) : fixedBytesRead s = lengthRead s := by
  have hplen : (frameOpsOf s.window).plen = (lenOf (byteAt s.window 1)).setWidth 64 := value_ofBytes_short h _
  simp [lengthRead, fixedBytesRead, loadByte1, hplen, h, he]

/-- Without a mask the whole header is read with the length. -/
theorem lengthRead_of_unmasked (hlen : 2 + extBytes (lenOf (byteAt s.window 1)) ≤ s.window.length)
    (hmask : maskOf (byteAt s.window 1) = false) :
    lengthRead s = loadHeader (opcodeOf (byteAt s.window 0)) (frameOpsOf s.window) (startStep s) := by
  have hkey : (frameOpsOf s.window).key = none := by simp [frameOpsOf, hmask]
  simp only [loadHeader, frameOpsOf_masked, frameOpsOf_hlen hlen, (frameOpsOf_ext hlen).2, hkey, hmask]
  rw [lengthRead, fixedBytesRead, loadByte1, hmask]
  rfl

/-- With a mask the key bytes are still to come. -/
theorem lengthRead_of_masked (hlen : 2 + extBytes (lenOf (byteAt s.window 1)) ≤ s.window.length)
    (hmask : maskOf (byteAt s.window 1) = true) :
    { lengthRead s with
      key := Key.ofList (s.window.drop (2 + extBytes (lenOf (byteAt s.window 1)))), kcnt := 4#3
      pos := 2 + extBytes (lenOf (byteAt s.window 1)) + 4, ph := .chk } =
    loadHeader (opcodeOf (byteAt s.window 0)) (frameOpsOf s.window) (startStep s) := by
  have hkey : (frameOpsOf s.window).key =
      some (Key.ofList (s.window.drop (2 + extBytes (lenOf (byteAt s.window 1))))) := by simp [frameOpsOf, hmask]
  simp only [loadHeader, frameOpsOf_masked, frameOpsOf_hlen hlen, (frameOpsOf_ext hlen).2, hkey, hmask]
  rw [lengthRead, fixedBytesRead, loadByte1, hmask]
  rfl

end Between

/-! ### The byte-serial run, phase after phase -/

section Serial

variable {s : State} (hr : s.rst = false)
include hr

theorem going_startStep : Going (startStep s) := ⟨nofun, hr, rfl⟩

theorem going_fixedBytesRead : Going (fixedBytesRead s) := ⟨loadByte1_ph_ne_idle _ _, hr, rfl⟩

theorem going_lengthRead : Going (lengthRead s) := by
  refine ⟨?_, hr, rfl⟩
  rw [lengthRead]
  dsimp only
  split_ifs <;> decide

/-- B0 with fewer than two bytes. -/
theorem runSteps_hdr2 (hlen : s.window.length < 2) : runSteps 1 (startStep s) = .next (failHeader .hdr2 s) :=
  runSteps_one (step_going (going_startStep hr) (serialStep_b0_short rfl hlen) rfl)

/-- B0 and B1. -/
theorem runSteps_fixedBytes (hlen : 2 ≤ s.window.length) : runSteps 2 (startStep s) = .next (fixedBytesRead s) := by
  have hb0 : step (startStep s) = .next (loadByte0 (byteAt s.window 0) (startStep s)) :=
    step_going (going_startStep hr) (serialStep_b0 rfl hlen (byteAt_getElem? (Nat.zero_lt_of_lt hlen))) rfl
  have hb1 : step (loadByte0 (byteAt s.window 0) (startStep s)) = .next (fixedBytesRead s) :=
    step_going ⟨nofun, hr, rfl⟩ (serialStep_b1 rfl hlen (byteAt_getElem? hlen)) rfl
  exact runSteps_snoc (runSteps_one hb0) hb1

/-- The length bytes, one EXT step each. -/
theorem runSteps_length (hlen : 2 + extBytes (lenOf (byteAt s.window 1)) ≤ s.window.length) :
    runSteps (2 + extBytes (lenOf (byteAt s.window 1))) (startStep s) = .next (lengthRead s) := by
  rw [runSteps_add (runSteps_fixedBytes hr (by omega))]
  rcases Nat.eq_zero_or_pos (extBytes (lenOf (byteAt s.window 1))) with he | hpos
  · rcases extBytes_cases (lenOf (byteAt s.window 1)) with ⟨hL, -⟩ | ⟨-, he'⟩ | ⟨-, he'⟩
    · rw [he, ← fixedBytesRead_of_short hL he]
      rfl
    all_goals omega
  · obtain ⟨hp, hplen⟩ := fixedBytesRead_of_ext hpos
    rw [runSteps_ext_done (going_fixedBytesRead hr) hp rfl _ fixedBytesRead_extn hpos hlen, hplen]
    have hslice : (sliceOf s.window 2 (2 + extBytes (lenOf (byteAt s.window 1)))).length =
        extBytes (lenOf (byteAt s.window 1)) := by
      rw [sliceOf_length]
      omega
    have hvalue : shiftIn 0#64 (sliceOf s.window 2 (2 + extBytes (lenOf (byteAt s.window 1)))) =
        (frameOpsOf s.window).plen :=
      (shiftIn_ofNat _ (hslice.trans_le (extBytes_le _))).trans (value_ofBytes_ext hpos hslice).symm
    rw [lengthRead, ← hvalue]
    rfl

/-- EXT with length bytes missing. -/
theorem runSteps_ext_missing (h2 : 2 ≤ s.window.length)
    (hlen : s.window.length < 2 + extBytes (lenOf (byteAt s.window 1))) :
    runSteps (s.window.length + 1) (startStep s) = .next (failHeader .ext s) := by
  obtain ⟨hp, hplen⟩ := fixedBytesRead_of_ext (s := s) (by omega)
  have hrun := runSteps_ext_short (going_fixedBytesRead hr) hp rfl h2 (by rw [fixedBytesRead_extn]; exact hlen)
  have hvalue : shiftIn 0#64 (sliceOf s.window 2 s.window.length) = BitVec.ofNat 64 (beValue (s.window.drop 2)) := by
    have := extBytes_le (lenOf (byteAt s.window 1))
    rw [sliceOf_length_eq_drop]
    exact shiftIn_ofNat _ (by rw [List.length_drop]; omega)
  have hextn : (fixedBytesRead s).extn - BitVec.ofNat 4 (s.window.length - 2) =
      BitVec.ofNat 4 (extBytes (lenOf (byteAt s.window 1)) - (s.window.length - 2)) :=
    extn_ofNat_sub (by omega) (extBytes_le _)
  rw [show s.window.length + 1 = 2 + (s.window.length - 2 + 1) by omega,
    runSteps_add (runSteps_fixedBytes hr h2)]
  refine hrun.trans ?_
  rw [failHeader, ← hvalue, ← hextn, hplen]
  rfl

/-- KEYP with key bytes missing. -/
theorem runSteps_key_missing (hlen : 2 + extBytes (lenOf (byteAt s.window 1)) ≤ s.window.length)
    (hmask : maskOf (byteAt s.window 1) = true) (hkey : s.window.length < 2 + extBytes (lenOf (byteAt s.window 1)) + 4) :
    runSteps (s.window.length + 1) (startStep s) = .next (failHeader .key s) := by
  have hrun := runSteps_keyp_short (going_lengthRead hr) (by simp [lengthRead, hmask]) rfl rfl rfl hlen hkey
  rw [show s.window.length + 1 = 2 + extBytes (lenOf (byteAt s.window 1)) +
      (s.window.length - (2 + extBytes (lenOf (byteAt s.window 1))) + 1) by omega,
    runSteps_add (runSteps_length hr hlen)]
  refine hrun.trans ?_
  rw [failHeader, ← sliceOf_length_eq_drop]
  rfl

/-- A header that breaks off, in the steps behind the start step. -/
theorem runSteps_failHeader {r : Reject} (hd : decode (.frame s.window) = .rejected r) :
    runSteps (transactionSteps s.window - 1) (startStep s) = .next (failHeader r s) := by
  obtain ⟨hhdr2, hext, hkey⟩ := decode_rejected_iff s.window
  rw [transactionSteps, parse_of_rejected hd]
  cases r with
  | hdr2 => exact runSteps_hdr2 hr (hhdr2.1 hd)
  | ext =>
    obtain ⟨h2, hlt⟩ := hext.1 hd
    exact runSteps_ext_missing hr h2 hlt
  | key =>
    obtain ⟨-, hlen, hmask, hlt⟩ := hkey.1 hd
    exact runSteps_key_missing hr hlen hmask (by omega)
  | noWidth => exact absurd hd (decodeFrame_ne_noWidth _)

/-- A whole header, one step for each of its bytes. -/
theorem runSteps_header (hlen : headerLength (byteAt s.window 1) ≤ s.window.length) :
    runSteps (headerLength (byteAt s.window 1)) (startStep s) =
      .next (loadHeader (opcodeOf (byteAt s.window 0)) (frameOpsOf s.window) (startStep s)) := by
  unfold headerLength at hlen ⊢
  cases hmask : maskOf (byteAt s.window 1) with
  | false =>
    rw [hmask] at hlen
    exact (runSteps_length hr hlen).trans (congrArg _ (lengthRead_of_unmasked hlen hmask))
  | true =>
    rw [hmask, if_pos rfl] at hlen
    have hlength : 2 + extBytes (lenOf (byteAt s.window 1)) ≤ s.window.length := by omega
    rw [if_pos rfl, runSteps_add (runSteps_length hr hlength),
      runSteps_keyp_done (going_lengthRead hr) (by simp [lengthRead, hmask]) rfl rfl rfl hlen,
      ← lengthRead_of_masked hlength hmask, ← keyOfList_sliceOf]
    rfl

end Serial

/-- CHK goes on to PAY only with a payload that is there. -/
theorem chkStep_of_ph_pay {s : State} (h : (chkStep s).ph = .pay) :
    s.pos + s.plen.toNat ≤ s.avl ∧ s.plen ≠ 0#64 ∧
      chkStep s = { s with hlen := BitVec.ofNat 4 s.pos, hdrOk := true, idx := 0, ph := .pay } := by
  rcases chkStep_cases s with ⟨-, e⟩ | ⟨-, -, e⟩ | ⟨-, -, -, e⟩ | ⟨-, -, -, -, e⟩ | ⟨-, -, hfit, hne, e⟩
  case inr.inr.inr.inr => exact ⟨hfit, hne, e⟩
  all_goals exact absurd (e ▸ h) nofun

/-- From CHK to the end: one step, and one for each payload byte where CHK goes on to PAY (R210, R213). -/
theorem runSteps_chkAndPay {s : State} (h : Going s) (hp : s.ph = .chk) (hw : s.window.length = s.avl) :
    runSteps (1 + if (chkStep s).ph = .pay then s.plen.toNat else 0) s = .next (transport (chkAndPay s)) := by
  obtain ⟨hbusy, hr, hc⟩ := h
  have hstep : step s = .next (transport (chkStep s)) := by
    have hq : quiet s = s := by rw [quiet, ← hc]
    rw [step_busy hbusy hr, hq, serialStep_of_chk hp, onNext_next]
  rw [runSteps_add (runSteps_one hstep), chkAndPay]
  split
  · next hpay =>
    obtain ⟨hfit, hne, e⟩ := chkStep_of_ph_pay hpay
    have hplen : 0 < s.plen.toNat := Nat.pos_of_ne_zero fun h0 => hne (BitVec.eq_of_toNat_eq h0)
    rw [e, transport_of_no_pulse (by exact hc)]
    have hgoing : Going { s with hlen := BitVec.ofNat 4 s.pos, hdrOk := true, idx := 0, ph := .pay } :=
      ⟨nofun, hr, hc⟩
    exact runSteps_pay_done hgoing rfl rfl hplen hfit hw
  · rfl

/-- R215's count of a transaction whose header is there: the start step, the header's bytes, CHK, and the payload's bytes
where CHK goes on to PAY. -/
theorem transactionSteps_of_frame {s : State} {op : BitVec 4} {f : FrameOps}
    (hd : decode (.frame s.window) = .instr (frameOf op f)) :
    transactionSteps s.window = 1 + (headerLength (byteAt s.window 1) +
      (1 + if (chkStep (loadHeader op f (startStep s))).ph = .pay then f.plen.toNat else 0)) := by
  have hhlen : f.hlen = headerLength (byteAt s.window 1) := by
    obtain ⟨hle, hi⟩ := decode_frame_eq_instr_iff.1 hd
    have hf := congrArg Instr.frame? hi
    simp only [frameOf_frame?, Option.some.injEq, Prod.mk.injEq] at hf
    rw [hf.2, frameOpsOf_hlen_eq hle]
  rw [transactionSteps, parse_of_frame hd]
  rcases chkStep_cases (loadHeader op f (startStep s)) with ⟨hcap, e⟩ | ⟨hcap, hrsv, e⟩ | ⟨hcap, hrsv, hshort, e⟩ |
      ⟨hcap, hrsv, hfit, hzero, e⟩ | ⟨hcap, hrsv, hfit, -, e⟩ <;>
    simp only [loadHeader_opc, loadHeader_plen, loadHeader_fin, loadHeader_avl, loadHeader_pos, startStep_avl,
      ctrlRange_iff, lt_125_iff] at * <;> rw [e]
  · simp [hcap, headerLength]
    omega
  · simp [hcap, hrsv, headerLength]
    omega
  · rw [if_neg hcap, if_neg hrsv, if_pos hshort]
    simp [headerLength]
    omega
  · rw [if_neg hcap, if_neg hrsv, if_neg (not_lt.2 hfit)]
    simp [hzero, hhlen]
    omega
  · rw [if_neg hcap, if_neg hrsv, if_neg (not_lt.2 hfit)]
    simp [hhlen]
    omega

/-! ### The grain is carried along -/

/-- `s` at the grain `g`. -/
def withGrain (g : Grain) (s : State) : State := { s with grain := g }

theorem loadHeader_withGrain (g : Grain) (op : BitVec 4) (f : FrameOps) (s : State) :
    loadHeader op f (withGrain g s) = withGrain g (loadHeader op f s) := rfl

theorem chkStep_withGrain (g : Grain) (s : State) : chkStep (withGrain g s) = withGrain g (chkStep s) := by
  simp only [chkStep, apply_ite (withGrain g)]
  rfl

theorem chkAndPay_withGrain (g : Grain) (s : State) : chkAndPay (withGrain g s) = withGrain g (chkAndPay s) := by
  simp only [chkAndPay, chkStep_withGrain, apply_ite (withGrain g)]
  rfl

theorem transport_withGrain (g : Grain) (s : State) : transport (withGrain g s) = withGrain g (transport s) := by
  simp only [transport, apply_ite (withGrain g)]
  rfl

/-- The start step of `s` at another grain, back at the grain of `s`. -/
theorem startStep_withGrain {s : State} {g : Grain} (hg : s.grain = g) (g' : Grain) :
    withGrain g (startStep (quiet (withGrain g' s))) = startStep s := by
  subst hg
  rfl

theorem failHeader_withGrain {s : State} {g : Grain} (hg : s.grain = g) (g' : Grain) {r : Reject} (hr : r ≠ .noWidth) :
    withGrain g (failHeader r (quiet (withGrain g' s))) = failHeader r s := by
  subst hg
  cases r with
  | noWidth => exact absurd rfl hr
  | hdr2 | ext | key => rfl

/-- A transaction's steps are the start step and those behind it. -/
theorem transactionSteps_pos (B : List Byte) : 0 < transactionSteps B := by
  unfold transactionSteps
  split <;> omega

/-- Settles O48: header, CHK and payload take the byte-serial machine through the states of the transaction, phase by
phase. -/
theorem serialAgreesWithTransaction : Obligations.SerialAgreesWithTransaction := by
  intro s hs hg
  have hr : s.rst = false := hs.2.2
  have hstart := runSteps_one (step_of_start hs hg)
  cases hd : decode (.frame s.window) with
  | rejected r =>
    have hnw : r ≠ .noWidth := fun e => decodeFrame_ne_noWidth s.window (e ▸ hd)
    refine ⟨_, step_of_rejected (s := withGrain .transaction s) hs rfl hd, ?_⟩
    rw [← Nat.add_sub_cancel' (transactionSteps_pos s.window), runSteps_add hstart, runSteps_failHeader hr hd]
    obtain ⟨-, -, -, -, hpulse, -⟩ := failHeader_frame r (quiet (withGrain .transaction s)) hnw
    rw [transport_of_no_pulse hpulse]
    exact congrArg _ (failHeader_withGrain hg _ hnw).symm
  | instr i =>
    obtain ⟨hlen, rfl⟩ := decode_frame_eq_instr_iff.1 hd
    refine ⟨_, step_of_frame (s := withGrain .transaction s) hs rfl hd (frameOf_frame? _ _), ?_⟩
    have hgoing : Going (loadHeader (opcodeOf (byteAt s.window 0)) (frameOpsOf s.window) (startStep s)) :=
      ⟨nofun, hr, rfl⟩
    rw [transactionSteps_of_frame hd, runSteps_add hstart, runSteps_add (runSteps_header hr hlen)]
    refine (runSteps_chkAndPay hgoing rfl rfl).trans (congrArg _ ?_)
    rw [← startStep_withGrain hg .transaction, loadHeader_withGrain, chkAndPay_withGrain, transport_withGrain]
    rfl

end Sys2Proof.Machine

/-! # The family 44_data_frames: whole frames complete, and which frames violate the protocol -/

namespace Sys2Proof.Machine

/-! ## A whole frame that breaks no rule (42_payload_extractor.md R161 to R163, 43_message_parser.md R210 to R213) -/

/-- CHK passes and the payload is there: OUT takes it, and `finish` consumes the frame. -/
theorem chkAndPay_of_whole_payload {s : State} (hcap : ¬ (ctrlRange s.opc = true ∧ 125#64 < s.plen))
    (hrsv : ¬ (reserved s.opc = true ∧ s.fin = false)) (hfit : s.pos + s.plen.toNat ≤ s.avl) (hidx : s.idx = 0) :
    chkAndPay s = finish (s.pos + s.plen.toNat)
      { s with hlen := BitVec.ofNat 4 s.pos, hdrOk := true, idx := s.plen.toNat, pos := s.pos + s.plen.toNat,
               out := Memory.writeBytes s.out 0 (payloadOf s) } := by
  rcases chkAndPay_cases s with ⟨h, -⟩ | ⟨-, h, -⟩ | ⟨-, -, h, -⟩ | ⟨-, -, -, x, hx, h⟩
  · exact absurd h hcap
  · exact absurd h hrsv
  · exact absurd hfit (not_le.2 h)
  · rw [h, hx (.inr hidx)]

/-- A whole frame within the cap and, where its opcode is reserved, with `fin`, from IDLE. -/
theorem exec_of_whole_frame {i : Instr} {op : BitVec 4} {f : FrameOps} {s : State} (hi : i.frame? = some (op, f))
    (hidle : s.ph = .idle) (hcap : 8 ≤ op.toNat → f.plen.toNat ≤ 125) (hrsv : reserved op = true → f.fin = true)
    (hwhole : WholeFrame f s) :
    exec i s = .next { headerRead op f s with
      pos := f.hlen + f.plen.toNat, idx := f.plen.toNat, hdrOk := true, kind := .ok, cause := .none,
      cons := f.hlen + f.plen.toNat, consValid := true, consK := f.hlen + f.plen.toNat,
      out := Memory.writeBytes s.out 0 (framePayload f s.window) } := by
  have hloaded := chkAndPay_of_whole_payload (s := loadHeader op f (startStep s)) (not_cap_violation hcap)
    (not_reserved_without_fin hrsv) hwhole rfl
  rw [exec_of_frame? hi, parseFrame_idle op f hidle, hloaded]
  rfl

/-- Byte `j` of the payload is byte `j` behind the header, unmasked where there is a key (R162, R163). -/
theorem framePayload_getElem? (f : FrameOps) (B : List Byte) {j : Nat} (hj : j < f.plen.toNat) :
    (framePayload f B)[j]? =
      (B[f.hlen + j]?).map (fun b => match f.key with | some k => b ^^^ k.get j | none => b) := by
  have hbyte : ((B.drop f.hlen).take f.plen.toNat)[j]? = B[f.hlen + j]? := by
    rw [List.getElem?_take_of_lt hj, List.getElem?_drop]
  rw [framePayload, unmask_getElem?, hbyte, FrameOps.masked]
  cases f.key <;> rfl

/-- Such a frame is carried out with full effect (10_state.md R32, 43_message_parser.md R221 (a)). -/
theorem completesFrom_of_whole_frame {i : Instr} {op : BitVec 4} {f : FrameOps} {s : State}
    (hi : i.frame? = some (op, f)) (hidle : s.ph = .idle) (hcap : 8 ≤ op.toNat → f.plen.toNat ≤ 125)
    (hrsv : reserved op = true → f.fin = true) (hwhole : WholeFrame f s) : CompletesFrom i op f s := by
  have hlen : (framePayload f s.window).length = f.plen.toNat := framePayload_length hwhole
  have hbelow {j : Nat} (hj : j < f.plen.toNat) :
      Memory.read (Memory.writeBytes s.out 0 (framePayload f s.window)) j = (framePayload f s.window)[j]? := by
    rw [Memory.read_writeBytes, if_pos (by omega), Nat.sub_zero]
  refine ⟨_, exec_of_whole_frame hi hidle hcap hrsv hwhole, rfl, fun j hj => ?_, fun a ha => ?_, fun j hj => ?_⟩
  · exact (hbelow hj).trans (framePayload_getElem? f s.window hj)
  · exact (Memory.read_writeBytes ..).trans (if_neg (by omega))
  · rw [hbelow hj, List.getElem?_eq_getElem (hlen ▸ hj)]
    rfl

/-- The flags of a completed frame are those of its `fin` and opcode (10_state.md R22, R30). -/
theorem CompletesFrom.flagsAre {i : Instr} {op : BitVec 4} {f : FrameOps} {s t : State} (h : CompletesFrom i op f s)
    (ht : exec i s = .next t) :
    FlagsAre t (isControlFrame op) (isFragmentHeader f.fin op) (isFragmentFooter f.fin op) (isFragment f.fin op) := by
  obtain ⟨u, hu, hregs, -⟩ := h
  cases hu.symm.trans ht
  have hfin : t.fin = f.fin := congrArg State.fin hregs
  have hopc : t.opc = op := congrArg State.opc hregs
  rw [← hfin, ← hopc]
  exact ⟨rfl, rfl, rfl, rfl⟩

/-! ## Continuation, text and binary frames (44_data_frames.md R170 to R173) -/

/-- The data opcodes are below the control range and not reserved, so a data frame breaks no rule of the header. -/
theorem completesFrom_of_data_frame {i : Instr} {op : BitVec 4} {f : FrameOps} {s : State}
    (hi : i.frame? = some (op, f)) (hop : op.toNat ≤ 2) (hidle : s.ph = .idle) (hwhole : WholeFrame f s) :
    CompletesFrom i op f s := by
  refine completesFrom_of_whole_frame hi hidle (fun h => ?_) (fun h => ?_) hwhole
  · omega
  · rw [reserved_iff] at h
    omega

/-- A continuation frame is a fragment, the last one when `fin` is set (R170). -/
theorem flags_cont (fin : Bool) :
    isControlFrame 0x0#4 = false ∧ isFragmentHeader fin 0x0#4 = false ∧ isFragmentFooter fin 0x0#4 = fin ∧
      isFragment fin 0x0#4 = true := by
  cases fin <;> decide

/-- A text or binary frame is a fragment, the first one, when `fin` is not set (R171, R172). -/
theorem flags_text_bin {op : BitVec 4} (hop : op = 0x1#4 ∨ op = 0x2#4) (fin : Bool) :
    isControlFrame op = false ∧ isFragmentHeader fin op = !fin ∧ isFragmentFooter fin op = false ∧
      isFragment fin op = !fin := by
  rcases hop with rfl | rfl <;> cases fin <;> decide

/-- Settles O10: a data frame that is whole completes, and the flags are those of opcode 0. -/
theorem contCompletes : Obligations.ContCompletes := by
  intro f s hidle hwhole
  have hdone : CompletesFrom (.cont f) 0x0#4 f s := completesFrom_of_data_frame rfl (by decide) hidle hwhole
  obtain ⟨hctrl, hhdr, hftr, hfrag⟩ := flags_cont f.fin
  refine ⟨hdone, fun t ht => ?_⟩
  simpa only [hctrl, hhdr, hftr, hfrag] using hdone.flagsAre ht

/-- Settles O11: the same for the opcodes 1 and 2, whose flags agree. -/
theorem textAndBinComplete : Obligations.TextAndBinComplete := by
  intro f s hidle hwhole
  have hflags {i : Instr} {op : BitVec 4} (hop : op = 0x1#4 ∨ op = 0x2#4) (hdone : CompletesFrom i op f s) (t : State)
      (ht : exec i s = .next t) : FlagsAre t false (!f.fin) false (!f.fin) := by
    obtain ⟨hctrl, hhdr, hftr, hfrag⟩ := flags_text_bin hop f.fin
    simpa only [hctrl, hhdr, hftr, hfrag] using hdone.flagsAre ht
  have htext : CompletesFrom (.text f) 0x1#4 f s := completesFrom_of_data_frame rfl (by decide) hidle hwhole
  have hbin : CompletesFrom (.bin f) 0x2#4 f s := completesFrom_of_data_frame rfl (by decide) hidle hwhole
  exact ⟨htext, hbin, hflags (.inl rfl) htext, hflags (.inr rfl) hbin⟩

/-! ## Which frames violate the protocol (44_data_frames.md R173, 46_reserved_frames.md R181, 30_encoding.md R106) -/

/-- The two violations come from CHK's two header rules and from nothing else; CTRL_LEN is the first of them
(43_message_parser.md R210). -/
theorem chkAndPay_violation_iff (s : State) :
    ((chkAndPay s).kind = .protocolViolation ↔
      (ctrlRange s.opc = true ∧ 125#64 < s.plen) ∨ (reserved s.opc = true ∧ s.fin = false)) ∧
    ((chkAndPay s).cause = .ctrlLen ↔ ctrlRange s.opc = true ∧ 125#64 < s.plen) := by
  rcases chkAndPay_cases s with ⟨hcap, e⟩ | ⟨hcap, hrsv, e⟩ | ⟨hcap, hrsv, -, e⟩ | ⟨hcap, hrsv, -, x, -, e⟩ <;> rw [e]
  · exact ⟨iff_of_true rfl (.inl hcap), iff_of_true rfl hcap⟩
  · exact ⟨iff_of_true rfl (.inr hrsv), iff_of_false nofun hcap⟩
  all_goals exact ⟨iff_of_false nofun (not_or.2 ⟨hcap, hrsv⟩), iff_of_false nofun hcap⟩

/-- Settles O18: from IDLE a frame's verdict is CHK's on the registers its header fills. -/
theorem whichFramesViolate : Obligations.WhichFramesViolate := by
  intro i op f s t hi hidle ht
  rw [exec_of_frame? hi, parseFrame_idle op f hidle] at ht
  cases ht
  rw [← ctrlRange_iff, ← lt_125_iff]
  exact chkAndPay_violation_iff (loadHeader op f (startStep s))

end Sys2Proof.Machine

/-! # The family 45_control_frames: close, ping and pong complete within the cap -/

namespace Sys2Proof.Machine

/-- A known control opcode is not reserved, so `fin = 0` breaks no rule of the header (45_control_frames.md R175 (b)). -/
theorem reserved_of_isControlFrame {op : BitVec 4} (hop : isControlFrame op = true) : reserved op = false := by
  rcases (isControlFrame_iff op).1 hop with rfl | rfl | rfl <;> rfl

/-- A control frame is no fragment, whatever its `fin` (R175 (b), (c)). -/
theorem fragment_flags_of_isControlFrame {op : BitVec 4} (hop : isControlFrame op = true) (fin : Bool) :
    isFragmentHeader fin op = false ∧ isFragmentFooter fin op = false ∧ isFragment fin op = false := by
  rcases (isControlFrame_iff op).1 hop with rfl | rfl | rfl <;> cases fin <;> decide

/-- The cap is the only rule that a control frame can break: within it, a whole one completes (R175). -/
theorem completesFrom_of_control_frame {i : Instr} {op : BitVec 4} {f : FrameOps} {s : State}
    (hi : i.frame? = some (op, f)) (hop : isControlFrame op = true) (hidle : s.ph = .idle) (hwhole : WholeFrame f s)
    (hcap : f.plen.toNat ≤ 125) : CompletesFrom i op f s :=
  completesFrom_of_whole_frame hi hidle (fun _ => hcap)
    (fun hrsv => absurd ((reserved_of_isControlFrame hop).symm.trans hrsv) Bool.false_ne_true) hwhole

/-- The flags of a completed control frame (R175 (c)). -/
theorem CompletesFrom.flagsAre_control {i : Instr} {op : BitVec 4} {f : FrameOps} {s t : State}
    (h : CompletesFrom i op f s) (hop : isControlFrame op = true) (ht : exec i s = .next t) :
    FlagsAre t true false false false := by
  obtain ⟨hhdr, hftr, hfrag⟩ := fragment_flags_of_isControlFrame hop f.fin
  simpa only [hop, hhdr, hftr, hfrag] using h.flagsAre ht

/-- Settles O12: the three opcodes are control opcodes, and a whole frame of one completes within the cap. -/
theorem controlFramesComplete : Obligations.ControlFramesComplete := by
  intro f s hidle hwhole hcap
  have hclose : CompletesFrom (.close f) 0x8#4 f s := completesFrom_of_control_frame rfl rfl hidle hwhole hcap
  have hping : CompletesFrom (.ping f) 0x9#4 f s := completesFrom_of_control_frame rfl rfl hidle hwhole hcap
  have hpong : CompletesFrom (.pong f) 0xA#4 f s := completesFrom_of_control_frame rfl rfl hidle hwhole hcap
  refine ⟨hclose, hping, hpong, fun i hi t ht => ?_⟩
  simp only [List.mem_cons, List.not_mem_nil, or_false] at hi
  rcases hi with rfl | rfl | rfl
  · exact hclose.flagsAre_control rfl ht
  · exact hping.flagsAre_control rfl ht
  · exact hpong.flagsAre_control rfl ht

end Sys2Proof.Machine

/-! # The family 46_reserved_frames: the ten reserved opcodes pass through with `fin` -/

namespace Sys2Proof.Machine

/-- The data opcodes are not reserved (10_state.md R15). -/
theorem ne_data_opcode_of_reserved {op : BitVec 4} (hop : reserved op = true) : op ≠ 0#4 ∧ op ≠ 1#4 ∧ op ≠ 2#4 := by
  refine ⟨?_, ?_, ?_⟩ <;> rintro rfl <;> exact absurd hop (by decide)

/-- No flag names a reserved opcode, whatever its `fin`: the control flag names close, ping and pong, the fragment flags
name the data opcodes (46_reserved_frames.md R180 (c)). -/
theorem flags_of_reserved {op : BitVec 4} (hop : reserved op = true) (fin : Bool) :
    isControlFrame op = false ∧ isFragmentHeader fin op = false ∧ isFragmentFooter fin op = false ∧
      isFragment fin op = false := by
  obtain ⟨hcont, htext, hbin⟩ := ne_data_opcode_of_reserved hop
  have hctrl : isControlFrame op = false :=
    Bool.eq_false_iff.2 fun h => absurd ((reserved_of_isControlFrame h).symm.trans hop) Bool.false_ne_true
  have hhdr : isFragmentHeader fin op = false := by simp [isFragmentHeader, htext, hbin]
  have hftr : isFragmentFooter fin op = false := by simp [isFragmentFooter, hcont]
  exact ⟨hctrl, hhdr, hftr, by simp [isFragment, hhdr, hftr, hcont]⟩

/-- With `fin` a frame can break only the cap, which applies to the control range alone: within it, a whole frame passes
through, its opcode reserved or not (R180 (a), (d), (e)). -/
theorem completesFrom_of_frame_with_fin {i : Instr} {op : BitVec 4} {f : FrameOps} {s : State}
    (hi : i.frame? = some (op, f)) (hcap : ctrlRange op = true → f.plen.toNat ≤ 125) (hidle : s.ph = .idle)
    (hwhole : WholeFrame f s) (hfin : f.fin = true) : CompletesFrom i op f s :=
  completesFrom_of_whole_frame hi hidle (fun h => hcap ((ctrlRange_iff op).2 h)) (fun _ => hfin) hwhole

/-- The flags of a completed frame with a reserved opcode (R180 (c)). -/
theorem CompletesFrom.flagsAre_reserved {i : Instr} {op : BitVec 4} {f : FrameOps} {s t : State}
    (h : CompletesFrom i op f s) (hop : reserved op = true) (ht : exec i s = .next t) :
    FlagsAre t false false false false := by
  obtain ⟨hctrl, hhdr, hftr, hfrag⟩ := flags_of_reserved hop f.fin
  simpa only [hctrl, hhdr, hftr, hfrag] using h.flagsAre ht

/-- Settles O13: the five opcodes are reserved and outside the control range, so the cap does not apply. -/
theorem reservedNonControlComplete : Obligations.ReservedNonControlComplete := by
  intro f s hidle hwhole hfin
  have hdone {i : Instr} {op : BitVec 4} (hi : i.frame? = some (op, f)) (hctrl : ctrlRange op = false) :
      CompletesFrom i op f s :=
    completesFrom_of_frame_with_fin hi (fun h => absurd (hctrl.symm.trans h) Bool.false_ne_true) hidle hwhole hfin
  refine ⟨hdone rfl rfl, hdone rfl rfl, hdone rfl rfl, hdone rfl rfl, hdone rfl rfl, fun i hi t ht => ?_⟩
  obtain ⟨op, hframe, hop, hctrl⟩ := reservedNonControl_frame? hi
  exact (hdone hframe hctrl).flagsAre_reserved hop ht

/-- Settles O14: the five opcodes are reserved and their length is within the cap. -/
theorem reservedControlComplete : Obligations.ReservedControlComplete := by
  intro f s hidle hwhole hfin hcap
  have hdone {i : Instr} {op : BitVec 4} (hi : i.frame? = some (op, f)) : CompletesFrom i op f s :=
    completesFrom_of_frame_with_fin hi (fun _ => hcap) hidle hwhole hfin
  refine ⟨hdone rfl, hdone rfl, hdone rfl, hdone rfl, hdone rfl, fun i hi t ht => ?_⟩
  obtain ⟨op, hframe, hop⟩ := reservedControl_frame? hi
  exact (hdone hframe).flagsAre_reserved hop ht

end Sys2Proof.Machine

/-! # The families 60_exceptions and 70_reset_and_hazards: broken headers and the retry, reset, `start` while busy, placed
words -/

namespace Sys2Proof.Machine

/-! ## A header that breaks off, and the retry (60_exceptions.md R243, R250, R251) -/

/-- Settles O9: the step is the exception of the decoder's verdict, and without a pulse the transport does nothing. -/
theorem brokenHeaderTakesException : Obligations.BrokenHeaderTakesException := by
  intro s r hs hg hd
  have hnw : r ≠ .noWidth := fun e => decodeFrame_ne_noWidth s.window (e ▸ hd)
  obtain ⟨hidle, hkind, hok, hcons, hpulse, hconsK, hout, hwindow, hrst, hstart, hbeIn, hbeLen, hbeWidth, hgrain, -⟩ :=
    failHeader_frame r (quiet s) hnw
  refine ⟨failHeader r (quiet s), ?_, hidle, hkind, ?_, hok, hcons, hpulse, hconsK, hout, hwindow, hrst, hstart, hbeIn,
    hbeLen, hbeWidth, hgrain⟩
  · rw [step_of_rejected hs hg hd, transport_of_no_pulse hpulse]
  · cases r with
    | noWidth => exact absurd rfl hnw
    | hdr2 | ext | key => rfl

/-- From CHK to the end the levels of `rst` and `start` and the grain stay. -/
theorem chkAndPay_levels (s : State) :
    (chkAndPay s).rst = s.rst ∧ (chkAndPay s).start = s.start ∧ (chkAndPay s).grain = s.grain := by
  rcases chkAndPay_cases s with ⟨-, e⟩ | ⟨-, -, e⟩ | ⟨-, -, -, e⟩ | ⟨-, -, -, x, -, e⟩ <;> rw [e] <;>
    exact ⟨rfl, rfl, rfl⟩

/-- A `start` left high asks for the next PARSE as soon as a whole transaction has ended (43_message_parser.md R205). -/
theorem parseAsked_of_step {s t : State} (hs : ParseAsked s) (hg : s.grain = .transaction) (h : step s = .next t) :
    ParseAsked t ∧ t.grain = .transaction := by
  have hidle : t.ph = .idle := (step_agreesWithParse hs hg h).1
  suffices hlevels : t.rst = s.rst ∧ t.start = s.start ∧ t.grain = s.grain by
    obtain ⟨hrst, hstart, hgrain⟩ := hlevels
    obtain ⟨-, hstart', hrst'⟩ := hs
    exact ⟨⟨hidle, hstart.trans hstart', hrst.trans hrst'⟩, hgrain.trans hg⟩
  cases hd : decode (.frame s.window) with
  | rejected r =>
    cases (step_of_rejected hs hg hd).symm.trans h
    have hnw : r ≠ .noWidth := fun e => decodeFrame_ne_noWidth s.window (e ▸ hd)
    obtain ⟨-, -, -, -, -, -, -, -, hrst, hstart, -, -, -, hgrain, -⟩ := failHeader_frame r (quiet s) hnw
    simpa using ⟨hrst, hstart, hgrain⟩
  | instr i =>
    obtain ⟨rfl, -, -⟩ := decodeFrame_eq_instr hd
    cases (step_of_frame hs hg hd (frameOf_frame? _ _)).symm.trans h
    simpa using chkAndPay_levels (loadHeader _ _ (startStep (quiet s)))

/-- Without a success a step leaves the window (20_memory.md R62). -/
theorem window_of_step_of_kind_ne_ok {s t : State} (h : step s = .next t) (hk : t.kind ≠ .ok) : t.window = s.window := by
  rcases windowMovesOnlyByConsume s t h with ⟨-, hok, -⟩ | ⟨-, hwindow⟩
  · exact absurd hok hk
  · exact hwindow

/-- The host may append while BUSY = 0 (R275). -/
theorem hostAppend_idle {s : State} (more : List Byte) (hidle : s.ph = .idle) :
    hostAppend more s = .next { s with window := s.window ++ more } := by
  simp [hostAppend, State.busy, hidle]

/-- Settles O52: the exception leaves the window, `start` still asks for a PARSE, and a PARSE agrees with `parse`. -/
theorem retryAfterMoreBytes : Obligations.RetryAfterMoreBytes := by
  intro s t more hs hg h hk
  obtain ⟨hask, hgrain⟩ := parseAsked_of_step hs hg h
  have hwindow : t.window = s.window := window_of_step_of_kind_ne_ok h (by simp [hk])
  obtain ⟨v, hv, hagree⟩ := transactionAgreesWithParse { t with window := t.window ++ more } hask hgrain
  exact ⟨_, v, hostAppend_idle more hask.1, hv, hwindow ▸ hagree⟩

/-! ## Reset (70_reset_and_hazards.md R270 to R272) -/

/-- A reset step makes no pulse, so the transport does nothing in it. -/
theorem step_of_reset {s : State} (hr : s.rst = true) : step s = .next (resetStep s) := by
  rw [step_eq, wsfpStep_reset (s := quiet s) hr, onNext_next, transport_of_no_pulse rfl]
  rfl

/-- The registers after a reset step are those of `State.reset`; OUT, the window, `cons_k` and the pins stay. -/
theorem resetStep_eq (s : State) :
    resetStep s = { State.reset with
      out := s.out, window := s.window, rst := s.rst, start := s.start, consK := s.consK,
      beIn := s.beIn, beLen := s.beLen, beWidth := s.beWidth, grain := s.grain } := rfl

/-- After a reset step STATUS reads 0x00. -/
theorem resetStep_status (s : State) : (resetStep s).status = 0x00#8 := by
  simp [State.status, State.busy, Kind.code, Cause.code]

/-- Settles O33: what the host reads after the step is computed from cleared registers and untouched ports. -/
theorem resetClearsRegisters : Obligations.ResetClearsRegisters := by
  intro s hr
  refine ⟨resetStep s, step_of_reset hr, resetStep_status s, rfl, ⟨rfl, rfl, rfl, rfl⟩, rfl, rfl, ?_⟩
  rw [resetStep_eq, hr]

/-- Settles O34: after the reset step the machine is in IDLE, where a PARSE agrees with `parse`. -/
theorem parseAfterResetSeesSameWindow : Obligations.ParseAfterResetSeesSameWindow := by
  intro s hr hstart
  obtain ⟨u, hu, hagree⟩ :=
    transactionAgreesWithParse { resetStep s with rst := false, grain := .transaction } ⟨rfl, hstart, rfl⟩ rfl
  exact ⟨resetStep s, u, step_of_reset hr, rfl, rfl, rfl, hu, hagree⟩

/-- A reset makes the invariant hold from any state with OUT in canonical form: it clears what a start step has set. -/
theorem resetStep_invariant {s : State} (hwf : Memory.wf s.out) : Invariant (resetStep s) :=
  resetStep_keeps (s := startStep s) ((Underway.start hwf).invariant ⟨rfl, rfl, rfl, rfl, rfl⟩)

/-- Settles O36: a reset step changes nothing in `State.reset`, and its OUT lists no byte. -/
theorem resetSatisfiesInvariant : Obligations.ResetSatisfiesInvariant :=
  resetStep_invariant (s := State.reset) List.Pairwise.nil

/-! ## `start` while BUSY = 1 (70_reset_and_hazards.md R277)

Driving `start` commutes with every phase of a running transaction. -/

section Start

variable (level : Bool)

/-- The two branches of a phase's test, followed by `g`. -/
theorem onNext_ite {c : Prop} [Decidable c] (o o' : Stepped) (g : State → State) :
    onNext (if c then o else o') g = if c then onNext o g else onNext o' g := apply_ite (onNext · g) c o o'

/-- A read of the window does not see `start`. -/
theorem onNext_readWindow_hostStart (a : Nat) (s : State) (k : Byte → Stepped) :
    onNext (readWindow a s k) (hostStart level) =
      readWindow a (hostStart level s) (fun b => onNext (k b) (hostStart level)) := by
  unfold readWindow
  rw [hostStart_avl, hostStart_window]
  split
  · split <;> rfl
  · rfl

theorem chkStep_hostStart (s : State) : chkStep (hostStart level s) = hostStart level (chkStep s) := by
  simp only [chkStep, apply_ite (hostStart level)]
  rfl

theorem transport_hostStart (s : State) : transport (hostStart level s) = hostStart level (transport s) := by
  simp only [transport, apply_ite (hostStart level)]
  rfl

theorem serialStep_hostStart (s : State) :
    serialStep (hostStart level s) = onNext (serialStep s) (hostStart level) := by
  unfold serialStep
  rw [hostStart_ph]
  cases s.ph with
  | idle => rfl
  | b0 => simp only [b0Step, onNext_ite, onNext_readWindow_hostStart]; rfl
  | b1 => simp only [b1Step, onNext_readWindow_hostStart]; rfl
  | ext => simp only [extStep, onNext_ite, onNext_readWindow_hostStart]; rfl
  | keyp => simp only [keypStep, onNext_ite, onNext_readWindow_hostStart]; rfl
  | chk => exact congrArg _ (chkStep_hostStart level s)
  | pay => simp only [payStep, onNext_readWindow_hostStart, onNext_next, apply_ite (hostStart level)]; rfl

/-- `start` is looked at in IDLE alone (43_message_parser.md R204); reset does not look at it either (R270). -/
theorem step_hostStart {s : State} (hp : s.ph ≠ .idle) :
    step (hostStart level s) = onNext (step s) (hostStart level) := by
  by_cases hr : s.rst = true
  · rw [step_of_reset hr, step_of_reset (s := hostStart level s) hr]
    rfl
  · rw [Bool.not_eq_true] at hr
    calc step (hostStart level s)
        = onNext (serialStep (hostStart level (quiet s))) transport := step_busy (s := hostStart level s) hp hr
      _ = onNext (serialStep (quiet s)) (fun t => hostStart level (transport t)) := by
          simp only [serialStep_hostStart, onNext_onNext, transport_hostStart]
      _ = onNext (step s) (hostStart level) := by rw [step_busy hp hr, onNext_onNext]

end Start

/-- Settles O19: a frame's meaning tests BUSY first, and a step of a busy machine commutes with driving `start`. -/
theorem startIgnoredWhileBusy : Obligations.StartIgnoredWhileBusy := fun s hp =>
  ⟨fun _ op f hi => (exec_of_frame? hi s).trans (parseFrame_busy op f hp), fun level => step_hostStart level hp⟩

/-! ## A placed word (30_encoding.md R99, R109; log 14) -/

/-- An encoding placed for the next step is the instruction that step runs: a frame from the front of the window, whatever
stands behind it there, or an operation from the ports. -/
theorem step_place {e : Encoded} {i : Instr} (hd : decode e = .instr i) (s : State) :
    step (place e s) = onNext (exec i (quiet (place e s))) transport := by
  cases e with
  | frame B => exact stepRunsDecodedFrame (placeFrame B s) i ⟨rfl, rfl, rfl⟩ rfl (decode_frame_append hd _)
  | ports w l x => exact stepRunsDecoderOperation (placePorts w l x s) i rfl rfl rfl hd

theorem decodeTableWord_eq_some {nbits w : Nat} {i : Instr} (h : decodeTableWord nbits w = some i) :
    decode (tableEncoded nbits w) = .instr i := by
  unfold decodeTableWord at h
  split at h
  · next j hd => rwa [← Option.some.inj h]
  · cases h

/-- Settles O8: the table word's encoding is placed as it is decoded. -/
theorem placedWordRuns : Obligations.PlacedWordRuns := fun s _ _ _ h =>
  step_place (decodeTableWord_eq_some h) s

end Sys2Proof.Machine
